-- ==== Sys2Proof/Word.lean ====
section
/-! DEFINITION. The words of the translator: bytes, nibbles, bus addresses and the 11-bit request word
(spec/00_scope.md R8, spec/30_encoding.md R50, R51). -/

namespace Sys2Proof

/-- A byte: 8 bits, unsigned, bit 0 least significant (R8). -/
abbrev Byte := BitVec 8

/-- A nibble: the 4-bit half of a byte that one strobe pair carries (R9). -/
abbrev Nibble := BitVec 4

/-- A bus device address: 7 bits (R7, R23). -/
abbrev DevAddr := BitVec 7

/-- A request word REQ: 11 bits, op in bits 10:8 and operand in bits 7:0 (R50, R51). -/
abbrev ReqWord := BitVec 11

/-- The expander's 8-bit register address space has 256 places (R23). -/
def registerSpace : Nat := 256

end Sys2Proof
end

