-- ==== Sys2Proof/Config.lean ====
section
/-! DEFINITION. What an implementation fixes (the Register Map, the Signal Bit Layout, the controller's codes and
the seed: spec/00_scope.md R5 to R7), the constants the source fixes (R7), and the FREE VALUES: opaque functions
without a body, of which nothing can be proved. -/

namespace Sys2Proof

/-- The answer of the bus transport to one transaction (R34). -/
inductive Answer where
  | ok
  | fail
  deriving DecidableEq, Repr, Inhabited

/-- What the controller latches on one falling edge of E: the pair (RS, nibble) (R44). -/
abbrev LatchedNibble := Bool × Nibble

/-- The parameters of the configuration, "an immutable configuration table" (R5, R6, R7, R10). -/
structure Config where
  /-- REG_IODIR, address of the direction register (R5). -/
  regIodir : Byte
  /-- REG_GPPU, address of the pull-up register (R5). -/
  regGppu : Byte
  /-- REG_GPIO, address of the GPIO output register (R5). -/
  regGpio : Byte
  /-- MASK_RS, the bit wired to register-select (R6). -/
  maskRs : Byte
  /-- MASK_E, the bit wired to the enable strobe (R6). -/
  maskE : Byte
  /-- SHIFT_DATA, place of the data nibble's lowest bit (R6). -/
  shiftData : Nat
  /-- SHIFT_BL, place of the backlight bit (R6). -/
  shiftBl : Nat
  /-- CODE_FUNCTION_RESET (R7). -/
  codeFunctionReset : Byte
  /-- CODE_FUNCTION (R7). -/
  codeFunction : Byte
  /-- CODE_FUNCTION_2LINES (R7). -/
  codeFunction2Lines : Byte
  /-- SEED_BYTES (R7, R22). -/
  seedBytes : List Byte
  deriving DecidableEq, Repr

/-- PRESUMED (log 2), unsafe where a claim names a number: the spec's default parameters (R5, R6, R7; D1, D2, D4, D5). -/
def Config.default : Config where
  regIodir := 0x00
  regGppu := 0x06
  regGpio := 0x09
  maskRs := 0x02
  maskE := 0x04
  shiftData := 3
  shiftBl := 7
  codeFunctionReset := 0x30
  codeFunction := 0x20
  codeFunction2Lines := 0x08
  seedBytes := [0x00, 0xFF, 0x00, 0x00, 0x00, 0x00, 0x00, 0x00, 0x00, 0x00, 0x00, 0x00]

/-- T_POWERUP: at least 20 ms after the direction write (R7, R74). -/
def tPowerUp : Nat := 20
/-- T_RESET1: at least 5 ms after the first function-reset nibble (R7, R75). -/
def tReset1 : Nat := 5
/-- T_RESET2: at least 1 ms after the second (R7, R75). -/
def tReset2 : Nat := 1
/-- T_RESET3: at least 1 ms after the third (R7, R75). -/
def tReset3 : Nat := 1
/-- T_MODE: at least 1 ms after the mode-select nibble (R7, R76). -/
def tMode : Nat := 1
/-- T_CLEAR: at least 5 ms after a command of at most CLEAR_HOME_MAX (R7, R94). -/
def tClear : Nat := 5
/-- CLEAR_HOME_MAX: the largest command value that takes the T_CLEAR delay (R7, R94). -/
def clearHomeMax : Byte := 3
/-- The device address when the host supplies none (R7, R53). -/
def defaultAddr : DevAddr := 0x20

/-- FREE VALUE (log 4): the answer to the n-th transaction where the environment has fixed none (R34). -/
opaque Config.busAnswer : Nat → Answer

/-- FREE VALUE (log 7, log 8): the content of expander register r in the n-th draw (R27, U4, U11). -/
opaque Config.expanderByte : Nat → Nat → Byte

/-- FREE VALUE (log 8): what the controller latched through the n-th failed transaction (R96, R117, U4). -/
opaque Config.strayNibbles : Nat → List LatchedNibble

/-- FREE VALUE (log 6): what a read of the backlight flag gives while the flag is unwritten (U10). -/
opaque Config.unwrittenBacklight : Nat → Bool

/-- FREE VALUE (log 9): the operand latch when no operation is in progress (R12, "dead (any value)"). -/
opaque Config.deadOpr : Nat → Byte

/-- FREE VALUE (log 9): the register-select latch when no operation is in progress (R12). -/
opaque Config.deadRsl : Nat → Bool

end Sys2Proof
end

