-- ==== Sys2Proof/Syntax.lean ====
section
/-! DEFINITION. The operation requests as data (spec/30_encoding.md R51 to R53): one constructor of Instr per row of
spec/opcode_table.json, the INITP block, and the raw request the host presents at the port. -/

namespace Sys2Proof

/-- A request that the external base may issue during the hand-off: op 0b001 to 0b100 (R53). The operand byte of a
backlight request is ignored (R58) and kept, so that its word can be written again. -/
inductive TransportOp where
  | writeCommand (cmd : Byte)
  | writeData (byte : Byte)
  | backlightOn (operand : Byte)
  | backlightOff (operand : Byte)
  deriving DecidableEq, Repr

/-- INITP, the construction parameters of INIT (R53, R70). -/
structure InitParams where
  addr : DevAddr
  lines : Byte
  cols : Byte
  blDefault : Bool
  baseOps : List TransportOp
  deriving DecidableEq, Repr

/-- The operations of the opcode table (R52), in the table's order. -/
inductive Instr where
  /-- INIT (R70): the operand is ignored, the parameters stand in INITP. -/
  | init (operand : Byte) (p : InitParams)
  /-- WRITE_COMMAND (R91). -/
  | writeCommand (cmd : Byte)
  /-- WRITE_DATA (R92). -/
  | writeData (byte : Byte)
  /-- BACKLIGHT_ON (R100): the operand is ignored. -/
  | backlightOn (operand : Byte)
  /-- BACKLIGHT_OFF (R101): the operand is ignored. -/
  | backlightOff (operand : Byte)
  /-- NIBBLE_INIT (R85): internal to INIT. -/
  | nibbleInit (code : Byte)
  /-- A reserved request (R58): op 0b110 or 0b111. -/
  | reserved (op : BitVec 3) (operand : Byte)
  deriving DecidableEq, Repr

/-- The INITP block as the host presents it (R53): no address means the default 0x20, and the base's requests are REQ
words still to be decoded. -/
structure InitBlock where
  addr : Option DevAddr
  lines : Byte
  cols : Byte
  blDefault : Bool
  baseOps : List ReqWord
  deriving DecidableEq, Repr

/-- The block that stands beside a word presented alone: no address supplied, every other field zero (log 17). -/
def InitBlock.blank : InitBlock where
  addr := none
  lines := 0
  cols := 0
  blDefault := false
  baseOps := []

/-- A request at the host port: the REQ word and the INITP block carried beside it, which only INIT reads (R50, R64). -/
structure Request where
  word : ReqWord
  initp : InitBlock
  deriving DecidableEq, Repr

end Sys2Proof
end

