-- ==== Sys2Proof/WellFormed.lean ====
section
/-! DEFINITION. The checks: of a configuration (spec/00_scope.md R5 to R7, R147), of an instruction (R58: a reserved
request has op 0b110 or 0b111) and of a request (R53: the base's words are transport requests). -/

namespace Sys2Proof

/-- Exactly one bit of m is set (R6). -/
def oneBit (m : Byte) : Bool := (List.range 8).any fun i => m == 1#8 <<< i

/-- The three register addresses are pairwise different (R5). -/
def Config.registersDistinct (c : Config) : Bool :=
  c.regIodir != c.regGppu && c.regIodir != c.regGpio && c.regGppu != c.regGpio

/-- The data field lies inside the byte, the backlight bit too, and the strobe and register-select masks have one bit
each (R6). -/
def Config.fieldsInByte (c : Config) : Bool :=
  oneBit c.maskRs && oneBit c.maskE && decide (c.shiftData ≤ 4) && decide (c.shiftBl ≤ 7)

/-- "these never overlap within the 8-bit output byte": the four fields are pairwise disjoint (R6). -/
def Config.fieldsDisjoint (c : Config) : Bool :=
  let data : Byte := 0x0F#8 <<< c.shiftData
  let bl : Byte := 1#8 <<< c.shiftBl
  c.maskRs &&& c.maskE == 0 && c.maskRs &&& data == 0 && c.maskRs &&& bl == 0 &&
    c.maskE &&& data == 0 && c.maskE &&& bl == 0 && data &&& bl == 0

/-- The configuration's check (R5, R6, R7, R147): what violates it is outside the spec. -/
def Config.WellFormed (c : Config) : Bool :=
  c.registersDistinct && c.fieldsInByte && c.fieldsDisjoint && !c.seedBytes.isEmpty

/-- The instruction's check: only a reserved request can be ill formed, by an op that is not reserved (R58). -/
def Instr.WellFormed : Instr → Bool
  | .init _ _ => true
  | .writeCommand _ => true
  | .writeData _ => true
  | .backlightOn _ => true
  | .backlightOff _ => true
  | .nibbleInit _ => true
  | .reserved op _ => op == 0b110 || op == 0b111

/-- A REQ word that the external base may issue: op 0b001 to 0b100 (R53). -/
def isBaseWord (w : ReqWord) : Bool :=
  let op := w.toNat / 256
  decide (1 ≤ op) && decide (op ≤ 4)

/-- The request's check: the words of an INIT request's base list are base requests (R53). Beside every other op the
INITP block is not looked at. -/
def Request.WellFormed (r : Request) : Bool :=
  r.word.toNat / 256 != 0 || r.initp.baseOps.all isBaseWord

end Sys2Proof
end

