-- ==== Sys2Proof/Decode.lean ====
section
/-! DEFINITION. The decoder, total on every request and rejecting by name, and the encoder beside it, both written from
the opcode map of spec/30_encoding.md R51 to R53, R58. -/

namespace Sys2Proof

/-- Why a request is no instruction: a word of INITP's base list is not a transport request (R53, R58). -/
inductive DecodeError where
  | notABaseRequest (word : ReqWord)
  deriving DecidableEq, Repr

/-- Field op, bits 10:8 (R51). -/
def opField (w : ReqWord) : BitVec 3 := w.extractLsb' 8 3

/-- Field operand, bits 7:0 (R51). -/
def operandField (w : ReqWord) : Byte := w.extractLsb' 0 8

/-- One word of the base's list (R53). -/
def decodeBaseWord (w : ReqWord) : Except DecodeError TransportOp :=
  match (opField w).toNat with
  | 1 => .ok (.writeCommand (operandField w))
  | 2 => .ok (.writeData (operandField w))
  | 3 => .ok (.backlightOn (operandField w))
  | 4 => .ok (.backlightOff (operandField w))
  | _ => .error (.notABaseRequest w)

/-- The base's list, word by word in list order (R53). -/
def decodeBaseWords : List ReqWord → Except DecodeError (List TransportOp)
  | [] => .ok []
  | w :: ws =>
    match decodeBaseWord w, decodeBaseWords ws with
    | .ok t, .ok ts => .ok (t :: ts)
    | .error e, _ => .error e
    | .ok _, .error e => .error e

/-- The INITP block: the address defaults to 0x20 when none is supplied (R53, R61). -/
def decodeInitBlock (b : InitBlock) : Except DecodeError InitParams :=
  match decodeBaseWords b.baseOps with
  | .ok ops => .ok
      { addr := b.addr.getD defaultAddr, lines := b.lines, cols := b.cols, blDefault := b.blDefault, baseOps := ops }
  | .error e => .error e

/-- The opcode map (R52): bits 10:8 alone decide (R64). -/
def decode (r : Request) : Except DecodeError Instr :=
  match (opField r.word).toNat with
  | 0 =>
    match decodeInitBlock r.initp with
    | .ok p => .ok (.init (operandField r.word) p)
    | .error e => .error e
  | 1 => .ok (.writeCommand (operandField r.word))
  | 2 => .ok (.writeData (operandField r.word))
  | 3 => .ok (.backlightOn (operandField r.word))
  | 4 => .ok (.backlightOff (operandField r.word))
  | 5 => .ok (.nibbleInit (operandField r.word))
  | _ => .ok (.reserved (opField r.word) (operandField r.word))

/-- The request word with the given fields (R51). -/
def reqWord (op : BitVec 3) (operand : Byte) : ReqWord := op ++ operand

/-- The word of a base request (R52, R53). -/
def encodeBaseWord : TransportOp → ReqWord
  | .writeCommand cmd => reqWord 0b001 cmd
  | .writeData byte => reqWord 0b010 byte
  | .backlightOn operand => reqWord 0b011 operand
  | .backlightOff operand => reqWord 0b100 operand

/-- The INITP block of given parameters, its address supplied (R53). -/
def encodeInitBlock (p : InitParams) : InitBlock where
  addr := some p.addr
  lines := p.lines
  cols := p.cols
  blDefault := p.blDefault
  baseOps := p.baseOps.map encodeBaseWord

/-- The request of an instruction (R51, R52); only INIT carries a block of its own. -/
def encode : Instr → Request
  | .init operand p => { word := reqWord 0b000 operand, initp := encodeInitBlock p }
  | .writeCommand cmd => { word := reqWord 0b001 cmd, initp := .blank }
  | .writeData byte => { word := reqWord 0b010 byte, initp := .blank }
  | .backlightOn operand => { word := reqWord 0b011 operand, initp := .blank }
  | .backlightOff operand => { word := reqWord 0b100 operand, initp := .blank }
  | .nibbleInit code => { word := reqWord 0b101 code, initp := .blank }
  | .reserved op operand => { word := reqWord op operand, initp := .blank }

/-- The request of a table word: a REQ word presented with the blank INITP block (log 17). -/
def tableRequest (nbits w : Nat) : Request where
  word := BitVec.ofNat 11 (w % 2 ^ nbits)
  initp := .blank

/-- What the decoder reads from a table word. A REQ word has 11 bits (R50): a number with a bit above bit 10 is none. -/
def decodeTableWord (nbits w : Nat) : Option Instr :=
  if w % 2 ^ nbits < 2 ^ 11 then
    match decode (tableRequest nbits w) with
    | .ok i => some i
    | .error _ => none
  else none

end Sys2Proof
end

