-- ==== Sys2Proof/Machine/State.lean ====
section
/-! DEFINITION. The state of the translator, of the expander and controller behind it as far as the rules depend on
them, the event trace, the reasons a step can stop, and the state after reset (spec/10_state.md). -/

namespace Sys2Proof.Machine

/-- SEQ.PHASE (R14). -/
inductive Phase where
  | unbuilt
  | init
  | handoff
  | final
  | ready
  deriving DecidableEq, Repr

/-- SEQ.OP: the operation whose event list is being emitted, none when idle (R14). -/
inductive Op where
  | none
  | init
  | nibbleInit
  | writeCommand
  | writeData
  | backlightOn
  | backlightOff
  deriving DecidableEq, Repr

/-- ERR, the completion report (R17, R65, R115); its code is `Report.code`. -/
inductive Report where
  | ok
  | busFault
  | paramFault
  | refused
  deriving DecidableEq, Repr

/-- The controller's interface state (R25): unknown, or 4-bit mode expecting the high or the low nibble next. -/
inductive Iface where
  | unknown
  | expectHigh
  | expectLow
  deriving DecidableEq, Repr

/-- A bus transaction, one call of a write primitive (R31, R32, R57). -/
inductive Transaction where
  | raw (a : DevAddr) (bytes : List Byte)
  | reg (a : DevAddr) (r v : Byte)
  deriving DecidableEq, Repr

/-- An event of the event trace (R8): RAW and REG of a successful transaction, DELAY, HANDOFF, and FAIL, which names
the failed transaction and the (OP, STEP) at which it failed (R111). -/
inductive Event where
  | bus (t : Transaction)
  | delay (ms : Nat)
  | handoff
  | fail (t : Transaction) (op : Op) (step : Nat)
  deriving DecidableEq, Repr

/-- One entry of an operation's fixed event list (R14, R80, R85, R90, R91, R92, R100, R101). -/
inductive MicroOp where
  /-- `BusWriteRaw(ADDR, SEED_BYTES)` (R72). -/
  | seed
  /-- `BusWriteReg(ADDR, REG_IODIR, DIR_VALUE)` (R73). -/
  | direction
  /-- `Delay(ms)` (R141). -/
  | delay (ms : Nat)
  /-- One write of NIBBLE_INIT(code): strobe asserted or deasserted (R85). -/
  | nibble (code : Byte) (asserted : Bool)
  /-- One write of StrobeNibble: of OPR's high or low nibble, strobe asserted or deasserted (R90). -/
  | strobe (high : Bool) (asserted : Bool)
  /-- The single write of a backlight operation (R100, R101). -/
  | level
  /-- `if OPR ≤ 3: Delay(5)` (R91, R94). -/
  | clearDelay
  deriving DecidableEq, Repr

/-- What the host can do at the port: present a request, or reset the block (R47, R130). -/
inductive HostInput where
  | request (r : Request)
  | reset
  deriving DecidableEq, Repr

/-- Reasons for which the machine stops. -/
inductive Fault where
  /-- Raised by `step` alone, when SEQ holds a triple that no row of R14 and R15 produces. SAFE: the model stops where
  the spec gives no behaviour (log 19). -/
  | illegalSequencer
  deriving DecidableEq, Repr

/-- Reasons for which a step is refused. -/
inductive Refusal where
  /-- Raised by `exec` for an instruction without a meaning yet. SAFE: nothing is claimed of it. -/
  | notModelled (mnemonic : String)
  /-- Raised by `step` when the configuration violates R6 (R147, U6: "the model should refuse such a configuration").
  SAFE: such a block is outside the spec (log 18). -/
  | illFormedConfig
  /-- Raised by `step` for an INIT request whose base list holds a word that R53's type excludes. SAFE: the spec gives
  such a request no behaviour (log 17). -/
  | malformedBaseRequest
  deriving DecidableEq, Repr

/-- The expander's registers: (address, byte) pairs, addresses strictly rising; an unlisted one holds a free value
(R18, R24, log 7). -/
abbrev Memory := List Host.Cell

/-- The state. Fields up to `err` are the translator's own (R10). -/
structure State where
  /-- The configuration table, never written (R10, R48; log 1). -/
  cfg : Config
  /-- BL, the backlight flag; `none` is "unwritten (holds no value)" (R11). -/
  bl : Option Bool
  /-- OPR, the operand latch (R12). -/
  opr : Byte
  /-- RSL, the register-select latch (R12). -/
  rsl : Bool
  /-- ADDR (R13). -/
  addr : DevAddr
  /-- LINES (R13). -/
  lines : Byte
  /-- COLS (R13). -/
  cols : Byte
  /-- SEQ.PHASE (R14). -/
  phase : Phase
  /-- SEQ.OP (R14). -/
  op : Op
  /-- SEQ.STEP (R14). -/
  step : Nat
  /-- FAULT (R16). -/
  fault : Bool
  /-- ERR (R17). -/
  err : Report
  /-- BL_DEFAULT as presented with INIT (R53, R78; log 26). -/
  blDefault : Bool
  /-- What is left of BASE_INIT_OPS (R53, R78; log 26). -/
  baseOps : List TransportOp
  /-- The expander's registers, the output latch among them (R18, R24, R40). -/
  regs : Memory
  /-- MODEL: the draw from which the unlisted expander registers come (log 7). -/
  epoch : Nat
  /-- The controller's interface state (R25). -/
  iface : Iface
  /-- The latched stream (R44). What is added to it while FAULT = 1 is the model's choice (R16, U2; log 28). -/
  latched : List LatchedNibble
  /-- What the host has presented and the port has not taken, oldest first (R47). -/
  inputs : List HostInput
  /-- Bus answers the environment has already fixed, oldest first (R34; log 4). -/
  answers : List Answer
  /-- MODEL: how many transactions have been answered (log 4). -/
  sent : Nat
  /-- MODEL: how many free values have been drawn (log 7 to 9). -/
  draws : Nat
  /-- The event trace (R8). -/
  trace : List Event
  deriving DecidableEq, Repr

/-- The machine right after reset (R27, R130, R131). OPR, RSL, ADDR, LINES, COLS and the hand-off inputs have no reset
value in the spec: zero and empty are DESIGN CHOICES, unsafe (log 5). -/
def State.reset : State where
  cfg := Config.default
  bl := none
  opr := 0
  rsl := false
  addr := 0
  lines := 0
  cols := 0
  phase := .unbuilt
  op := .none
  step := 0
  fault := false
  err := .ok
  blDefault := false
  baseOps := []
  regs := []
  epoch := 0
  iface := .unknown
  latched := []
  inputs := []
  answers := []
  sent := 0
  draws := 0
  trace := []

end Sys2Proof.Machine
end

