-- ==== Sys2Proof/Machine/Operands.lean ====
section
/-! DEFINITION. Operand assembly: nibbles, masks, the GPIO byte, the direction value and the final command
(spec/30_encoding.md R55, R56; spec/00_scope.md R6; spec/10_state.md R20; spec/40_init_sequencer.md R79). -/

namespace Sys2Proof.Machine

/-- `Hi(v) = (v >> 4) & 0xF` (R56). -/
def hiNibble (v : Byte) : Nibble := v.extractLsb' 4 4

/-- `Lo(v) = v & 0xF` (R56). -/
def loNibble (v : Byte) : Nibble := v.extractLsb' 0 4

/-- A single bit as a byte: `bl << SHIFT_BL` starts from it (R55). -/
def bitByte (b : Bool) : Byte := if b then 1 else 0

/-- `MASK_DATA = (0x0F << SHIFT_DATA) & 0xFF` (R6). -/
def maskData (c : Config) : Byte := 0x0F#8 <<< c.shiftData

/-- `MASK_BL = (1 << SHIFT_BL) & 0xFF` (R6). -/
def maskBl (c : Config) : Byte := 1#8 <<< c.shiftBl

/-- `MASK_SIGNALS = MASK_RS | MASK_E | MASK_DATA | MASK_BL` (R6). -/
def maskSignals (c : Config) : Byte := c.maskRs ||| c.maskE ||| maskData c ||| maskBl c

/-- `DIR_VALUE = (~MASK_SIGNALS) & 0xFF` (R6, R20). -/
def dirValue (c : Config) : Byte := ~~~ maskSignals c

/-- `MASK_SPARE = DIR_VALUE`: the one bit in none of the four fields (R6). -/
def maskSpare (c : Config) : Byte := dirValue c

/-- `Compose(bl, rs, nib)`: the GPIO byte with the strobe deasserted (R55). -/
def compose (c : Config) (bl rs : Bool) (nib : Nibble) : Byte :=
  (bitByte bl <<< c.shiftBl) ||| (nib.setWidth 8 <<< c.shiftData) ||| (if rs then c.maskRs else 0)

/-- The byte as it is written with the strobe asserted (`b | MASK_E`) or deasserted (`b`) (R55, R85, R90). -/
def withStrobe (c : Config) (asserted : Bool) (b : Byte) : Byte := if asserted then b ||| c.maskE else b

/-- `FINAL_CMD = CODE_FUNCTION | (LINES > 1 ? CODE_FUNCTION_2LINES : 0)` (R79). -/
def finalCmd (c : Config) (lines : Byte) : Byte :=
  c.codeFunction ||| (if 1#8 < lines then c.codeFunction2Lines else 0)

/-- The data field of a GPIO byte: `(byte & MASK_DATA) >> SHIFT_DATA` (R42, R55). -/
def dataField (c : Config) (b : Byte) : Nibble := ((b &&& maskData c) >>> c.shiftData).setWidth 4

end Sys2Proof.Machine
end

