-- ==== Sys2Proof/Machine/Flags.lean ====
section
/-! DEFINITION. The flags and what is computed for them: BL, FAULT, ERR and the one comparison of the block
(spec/10_state.md R11, R16, R17; spec/42_transport.md R93, R94; spec/60_exceptions.md R115). -/

namespace Sys2Proof.Machine

/-- The 2-bit code of ERR (R65, R115). -/
def Report.code : Report → BitVec 2
  | .ok => 0
  | .busFault => 1
  | .paramFault => 2
  | .refused => 3

/-- The value a composed byte takes from BL (R93). Reading BL while it is unwritten, which no rule does, gives a free
value (R11, U10; log 6). -/
def State.backlight (s : State) : Bool := s.bl.getD (Config.unwrittenBacklight s.draws)

/-- `cmd ≤ 3`, an unsigned comparison of the whole byte (R63, R94). -/
def isClearHome (cmd : Byte) : Bool := decide (cmd ≤ clearHomeMax)

/-- `BL <- v` (R100, R101, R78). -/
def State.setBacklight (s : State) (v : Bool) : State := { s with bl := some v }

/-- `ERR <- r`, written at the end of every request (R17). -/
def State.report (s : State) (r : Report) : State := { s with err := r }

end Sys2Proof.Machine
end

