-- ==== Sys2Proof/Machine/Pins.lean ====
section
/-! DEFINITION. The target side: the expander's registers, its pins, the strobe's edges and what the controller
latches (spec/20_memory.md R40 to R44; spec/10_state.md R24, R25). -/

namespace Sys2Proof.Machine

/-- The byte listed for register address a, if any. -/
def Memory.read : Memory → Nat → Option Byte
  | [], _ => none
  | (k, v) :: m, a => if k = a then some v else Memory.read m a

/-- Register a now holds v; the addresses stay strictly rising. -/
def Memory.write : Memory → Nat → Byte → Memory
  | [], a, v => [(a, v)]
  | (k, w) :: m, a, v =>
    if a < k then (a, v) :: (k, w) :: m
    else if a = k then (a, v) :: m
    else (k, w) :: Memory.write m a v

/-- The bytes fill the registers a, a+1, a+2, ... in order (R41). -/
def Memory.writeFrom : Memory → Nat → List Byte → Memory
  | m, _, [] => m
  | m, a, b :: bs => Memory.writeFrom (Memory.write m a b) (a + 1) bs

/-- The canonical form: addresses strictly rising and inside the 8-bit register space. An unlisted register reads as
a free value, which no listed byte can be compared with, so every register with a settled byte is listed. -/
abbrev Memory.wf (m : Memory) : Prop :=
  m.Pairwise (fun x y => x.1 < y.1) ∧ ∀ c ∈ m, c.1 < registerSpace

/-- What expander register a holds: its listed byte, else a free value (R27, U11; log 7). -/
def State.regByte (s : State) (a : Nat) : Byte := (s.regs.read a).getD (Config.expanderByte s.epoch a)

/-- LAT: the last byte stored in the GPIO output register, with which the expander drives its outputs (R24, R42). -/
def State.lat (s : State) : Byte := s.regByte s.cfg.regGpio.toNat

/-- DIR: the direction register (R42). -/
def State.dir (s : State) : Byte := s.regByte s.cfg.regIodir.toNat

/-- One line of the expander: driven to a level, or an input whose level the board gives (R42). -/
inductive Line where
  | driven (level : Bool)
  | input
  deriving DecidableEq, Repr

/-- Line i (R42): an output with level `LAT[i]` when `DIR[i] = 0`, an input when `DIR[i] = 1`. -/
def State.line (s : State) (i : Nat) : Line :=
  if s.dir.getLsbD i then .input else .driven (s.lat.getLsbD i)

/-- A byte's strobe level: `b & MASK_E ≠ 0` (R42). -/
def eLevel (c : Config) (b : Byte) : Bool := b &&& c.maskE != 0

/-- A byte's register-select level: `b & MASK_RS ≠ 0` (R42). -/
def rsLevel (c : Config) (b : Byte) : Bool := b &&& c.maskRs != 0

/-- A byte's backlight level: `b & MASK_BL ≠ 0` (R42). -/
def blLevel (c : Config) (b : Byte) : Bool := b &&& maskBl c != 0

/-- A rising edge of E (R43). -/
def risingEdge (c : Config) (old new : Byte) : Bool := !eLevel c old && eLevel c new

/-- A falling edge of E (R43). -/
def fallingEdge (c : Config) (old new : Byte) : Bool := eLevel c old && !eLevel c new

/-- What the controller latches when LAT goes from old to new: on a falling edge of E the pair presented at that
moment (R44). -/
def latches (c : Config) (old new : Byte) : List LatchedNibble :=
  if fallingEdge c old new then [(rsLevel c new, dataField c new)] else []

/-- DEDUCED (log 13): a latched nibble turns "expecting a high nibble" and "expecting a low nibble" into each other; an
unknown state stays unknown (R25). -/
def Iface.afterNibbles : Iface → List LatchedNibble → Iface
  | i, [] => i
  | .unknown, _ :: ns => Iface.afterNibbles .unknown ns
  | .expectHigh, _ :: ns => Iface.afterNibbles .expectLow ns
  | .expectLow, _ :: ns => Iface.afterNibbles .expectHigh ns

/-- Every expander register holds any value from now on: nothing is listed and a new draw stands behind (R27, R117;
log 7, log 8). -/
def State.forgetRegisters (s : State) : State :=
  { s with regs := [], epoch := s.draws + 1, draws := s.draws + 1 }

/-- A successful register write at the expander (R40): the register holds v; if it is the GPIO output register, LAT
changes and the controller latches what a falling edge presents (R43, R44). DESIGN CHOICE (log 28): this holds whatever
FAULT is, although with FAULT = 1 the spec lets nothing be concluded about the latched nibbles (R16, R119, U2). -/
def State.storeRegister (s : State) (r v : Byte) : State :=
  let seen := if r = s.cfg.regGpio then latches s.cfg s.lat v else []
  { s with
    regs := s.regs.write r.toNat v
    latched := s.latched ++ seen
    iface := s.iface.afterNibbles seen }

/-- A successful raw write at the expander (R41): the first byte is a register address, the others fill the registers
from there on. PRESUMED (log 10). Bytes that would go past the register space leave every register any value. -/
def State.storeRaw (s : State) : List Byte → State
  | [] => s
  | p :: data =>
    if p.toNat + data.length ≤ registerSpace then { s with regs := s.regs.writeFrom p.toNat data }
    else s.forgetRegisters

/-- What a successful transaction does at the target (R40, R41). -/
def State.deliver (s : State) : Transaction → State
  | .raw _ bytes => s.storeRaw bytes
  | .reg _ r v => s.storeRegister r v

/-- What a failed transaction may have done at the target (R34, R117, U4; log 8): the register it addressed (for the raw
write: every register) holds any value, the controller may have latched anything and its state is unknown (R25). -/
def State.spoil (s : State) (t : Transaction) : State :=
  let stray := Config.strayNibbles (s.draws + 1)
  match t with
  | .raw _ _ => { s.forgetRegisters with latched := s.latched ++ stray, iface := .unknown }
  | .reg _ r _ =>
    { s with
      regs := s.regs.write r.toNat (Config.expanderByte (s.draws + 1) r.toNat)
      draws := s.draws + 1
      latched := s.latched ++ stray
      iface := .unknown }

end Sys2Proof.Machine
end

