-- ==== Sys2Proof/Machine/Ops.lean ====
section
/-! DEFINITION. The shared operations: asking the bus, recording an event, taking a fault (and what stands in for the
return from one), running an event list, and the state of the port (spec/20_memory.md R31 to R34, R45;
spec/60_exceptions.md R111 to R119; spec/10_state.md R14, R15). -/

namespace Sys2Proof.Machine

/-- The answer to the k-th transaction from now: as the environment has fixed it, else a free value (R34; log 4). -/
def State.answerAt (s : State) (k : Nat) : Answer :=
  (s.answers[k]?).getD (Config.busAnswer (s.sent + k))

/-- One answer has been received. -/
def State.popAnswer (s : State) : State := { s with answers := s.answers.tail, sent := s.sent + 1 }

/-- The event with index SEQ.STEP has happened: it stands in the trace and STEP is the next index (R8, R14). -/
def State.record (s : State) (e : Event) : State := { s with trace := s.trace ++ [e], step := s.step + 1 }

/-- `OPR <- v` (R85). -/
def State.loadOpr (s : State) (v : Byte) : State := { s with opr := v }

/-- `OPR <- v; RSL <- rs` (R91, R92). -/
def State.loadLatches (s : State) (v : Byte) (rs : Bool) : State := { s with opr := v, rsl := rs }

/-- What is left of the base's list (R78). -/
def State.withBase (s : State) (ts : List TransportOp) : State := { s with baseOps := ts }

/-- What is left of what the host has presented (R47). -/
def State.withInputs (s : State) (ins : List HostInput) : State := { s with inputs := ins }

/-- No operation reads OPR and RSL any more: from now on they hold any value (R12, "dead (any value)"; log 9). -/
def State.releaseLatches (s : State) : State :=
  { s with opr := Config.deadOpr s.draws, rsl := Config.deadRsl s.draws, draws := s.draws + 1 }

/-- NIBBLE_INIT does not read OPR any more (R85, "dead afterwards"; log 9). -/
def State.releaseOpr (s : State) : State := { s with opr := Config.deadOpr s.draws, draws := s.draws + 1 }

/-- The operation in progress ends: the latches it used are dead (R12, R85). A backlight operation uses none (R100, R101). -/
def State.retireLatches (s : State) : State :=
  match s.op with
  | .none => s
  | .init => s.releaseLatches
  | .nibbleInit => s.releaseLatches
  | .writeCommand => s.releaseLatches
  | .writeData => s.releaseLatches
  | .backlightOn => s
  | .backlightOff => s

/-- The latches where a BusFault abandons what is in progress. In READY that is the transport operation, as at its end. In
every other PHASE it is INIT, whose NIBBLE_INITs and commands have used OPR and RSL, so that they are dead whichever request
of the base has failed, a backlight request too (R12, R85, R114 (d), R120; log 9). -/
def State.abandonLatches (s : State) : State := if s.phase = .ready then s.retireLatches else s.releaseLatches

/-- TAKING A BUSFAULT at transaction t (R114): the FAIL event with the (OP, STEP) of the failing transaction (R111),
FAULT and ERR set, SEQ idle, PHASE back to UNBUILT unless the fault occurred in READY, the rest of a hand-off's base
requests dropped (R120), the target spoilt (R117). BL, ADDR, LINES, COLS keep their values. -/
def State.takeBusFault (s : State) (t : Transaction) : State :=
  let s' := (s.spoil t).abandonLatches
  { s' with
    trace := s.trace ++ [.fail t s.op s.step]
    fault := true
    err := .busFault
    op := .none
    step := 0
    phase := if s.phase = .ready then .ready else .unbuilt
    baseOps := [] }

/-- TAKING A PARAMFAULT (R71, R112, R114): only ERR changes. -/
def State.takeParamFault (s : State) : State := s.report .paramFault

/-- A request is Refused (R58, R113): only ERR changes. -/
def State.takeRefused (s : State) : State := s.report .refused

/-- How a piece of an operation ends: it goes on from s, or a BusFault has been taken and the rest is abandoned
(R34, R114). -/
inductive Flow where
  | goes (s : State)
  | stopped (s : State)
  deriving DecidableEq, Repr

/-- The state in which control leaves the operation. -/
def Flow.state : Flow → State
  | .goes s => s
  | .stopped s => s

/-- Go on with f unless the operation has been abandoned: "no later bus write and no later delay" (R114). -/
def Flow.andThen : Flow → (State → Flow) → Flow
  | .goes s, f => f s
  | .stopped s, _ => .stopped s

/-- One bus transaction (R31, R32, R34): ok, and it takes effect and stands in the trace, or a BusFault. -/
def transact (t : Transaction) (s : State) : Flow :=
  match s.answerAt 0 with
  | .ok => .goes ((s.popAnswer.deliver t).record (.bus t))
  | .fail => .stopped (s.popAnswer.takeBusFault t)

/-- `BusWriteRaw(ADDR, bytes)` (R31). -/
def busWriteRaw (bytes : List Byte) (s : State) : Flow := transact (.raw s.addr bytes) s

/-- `BusWriteReg(ADDR, r, v)` (R32). -/
def busWriteReg (r v : Byte) (s : State) : Flow := transact (.reg s.addr r v) s

/-- `Delay(ms)` (R141): no transaction; the trace carries the lower bound. -/
def delay (ms : Nat) (s : State) : Flow := .goes (s.record (.delay ms))

/-- One entry of an event list (R80, R85, R90, R91, R100, R101). -/
def runMicro : MicroOp → State → Flow
  | .seed, s => busWriteRaw s.cfg.seedBytes s
  | .direction, s => busWriteReg s.cfg.regIodir (dirValue s.cfg) s
  | .delay ms, s => delay ms s
  | .nibble code asserted, s =>
    busWriteReg s.cfg.regGpio (withStrobe s.cfg asserted (compose s.cfg false false (hiNibble code))) (s.loadOpr code)
  | .strobe high asserted, s =>
    busWriteReg s.cfg.regGpio
      (withStrobe s.cfg asserted (compose s.cfg s.backlight s.rsl (if high then hiNibble s.opr else loNibble s.opr))) s
  | .level, s => busWriteReg s.cfg.regGpio (compose s.cfg s.backlight false 0) s
  | .clearDelay, s => if isClearHome s.opr then delay tClear s else .goes s

/-- An event list in order: program order and nothing else (R45). -/
def runMicros : List MicroOp → State → Flow
  | [], s => .goes s
  | m :: ms, s => (runMicro m s).andThen (runMicros ms)

/-- What is left of an event list from index SEQ.STEP on (R14). -/
def runFromStep (events : List MicroOp) (s : State) : Flow := runMicros (events.drop s.step) s

/-- SEQ between two steps: an idle port, an operation in progress, or a triple that R14 and R15 never produce. -/
inductive SeqStatus where
  | idle
  | running
  | illegal
  deriving DecidableEq, Repr

/-- The last index at which a transport operation can stand (R91, R92, R100, R101); none for the other operations. -/
def lastTransportStep : Op → Option Nat
  | .writeCommand => some 4
  | .writeData => some 3
  | .backlightOn => some 0
  | .backlightOff => some 0
  | .none => none
  | .init => none
  | .nibbleInit => none

/-- A transport operation stands inside its event list. -/
def transportInProgress (op : Op) (step : Nat) : Bool :=
  match lastTransportStep op with
  | some last => decide (step ≤ last)
  | none => false

/-- The legal triples (R14, R15): idle in UNBUILT and READY; a transport operation in READY or nested in HANDOFF; INIT at
its own indices 0 to 15 in INIT, 15 in HANDOFF, 16 to 20 in FINAL. -/
def seqStatusOf (phase : Phase) (op : Op) (step : Nat) : SeqStatus :=
  match phase with
  | .unbuilt => if op = .none ∧ step = 0 then .idle else .illegal
  | .ready =>
    if op = .none ∧ step = 0 then .idle
    else if transportInProgress op step then .running else .illegal
  | .init => if op = .init ∧ step ≤ 15 then .running else .illegal
  | .handoff =>
    if (op = .init ∧ step = 15) ∨ transportInProgress op step = true then .running else .illegal
  | .final => if op = .init ∧ 16 ≤ step ∧ step ≤ 20 then .running else .illegal

/-- The status of the state's SEQ. -/
def State.seqStatus (s : State) : SeqStatus := seqStatusOf s.phase s.op s.step

/-- Hardware reset of the block, taken in an idle state (R130, R134): the translator's own state as after reset, the
controller's state unknown (R27), no bus transaction; the expander goes on driving the last GPIO byte (R134; log 24). -/
def State.hardwareReset (s : State) : State :=
  { s with
    bl := State.reset.bl
    opr := State.reset.opr
    rsl := State.reset.rsl
    addr := State.reset.addr
    lines := State.reset.lines
    cols := State.reset.cols
    phase := State.reset.phase
    op := State.reset.op
    step := State.reset.step
    fault := State.reset.fault
    err := State.reset.err
    blDefault := State.reset.blDefault
    baseOps := State.reset.baseOps
    iface := .unknown }

/-- Nothing is pending at an idle port: the block waits and issues nothing (R130, R47). -/
def State.waitForRequest (s : State) : State := s

end Sys2Proof.Machine
end

