-- ==== Sys2Proof/Machine/Transport.lean ====
section
/-! DEFINITION. The command and data transport: acceptance, the shared event lists, WRITE_COMMAND and WRITE_DATA
(spec/42_transport.md R90 to R98). -/

namespace Sys2Proof.Machine

/-- What the port does with a transport request. -/
inductive Acceptance where
  | take
  | refuse
  | wait
  deriving DecidableEq, Repr

/-- A transport request is taken when PHASE = READY and OP = NONE, or as an element of the base's list while INIT is
suspended at its hand-off (R98, R104, R47); it is Refused in UNBUILT (R58, R113); otherwise the port is not ready and
the request is not taken (R15). -/
def State.transportAcceptance (s : State) : Acceptance :=
  if (s.phase = .ready ∧ s.op = .none) ∨ (s.phase = .handoff ∧ s.op = .init) then .take
  else if s.phase = .unbuilt ∧ s.op = .none then .refuse
  else .wait

/-- A transport operation has been taken: `SEQ.OP <- op`, `SEQ.STEP <- 0` (R15). -/
def State.beginTransport (s : State) (op : Op) : State := { s with op := op, step := 0 }

/-- The end of a transport operation (R91, R92, R100, R101): `ERR <- 0`; SEQ is idle, or, inside the hand-off, INIT
suspended at its event 15 again (R78); the latches it used are dead (R12). -/
def State.endTransport (s : State) : State :=
  let s' := s.retireLatches
  { s' with
    err := .ok
    op := if s.phase = .handoff then .init else .none
    step := if s.phase = .handoff then 15 else 0 }

/-- The four writes of a byte: high nibble first, each nibble asserted then deasserted (R35, R90). -/
def byteEvents : List MicroOp := [.strobe true true, .strobe true false, .strobe false true, .strobe false false]

/-- The event list of WRITE_COMMAND (R91). -/
def commandEvents : List MicroOp := byteEvents ++ [.clearDelay]

/-- The event list of WRITE_DATA (R92): no delay for any value (R97 (f)). -/
def dataEvents : List MicroOp := byteEvents

/-- The event list of BACKLIGHT_ON and BACKLIGHT_OFF (R100, R101): "no strobe sequence" (R102). -/
def levelEvents : List MicroOp := [.level]

/-- The event list of a transport operation (R14); the other operations have none here. -/
def transportEvents : Op → List MicroOp
  | .writeCommand => commandEvents
  | .writeData => dataEvents
  | .backlightOn => levelEvents
  | .backlightOff => levelEvents
  | .none => []
  | .init => []
  | .nibbleInit => []

/-- The rest of the event list from SEQ.STEP on, then the operation's end. -/
def finishTransport (events : List MicroOp) (s : State) : Flow :=
  (runFromStep events s).andThen fun s' => .goes s'.endTransport

/-- WRITE_COMMAND(cmd) executed whole (R91). -/
def writeCommandOp (cmd : Byte) (s : State) : Flow :=
  finishTransport commandEvents ((s.beginTransport .writeCommand).loadLatches cmd false)

/-- WRITE_DATA(byte) executed whole (R92). -/
def writeDataOp (byte : Byte) (s : State) : Flow :=
  finishTransport dataEvents ((s.beginTransport .writeData).loadLatches byte true)

/-- WRITE_COMMAND as a request (R91, R98, R113). -/
def execWriteCommand (cmd : Byte) (s : State) : Host.Outcome State Fault Refusal :=
  match s.transportAcceptance with
  | .take => .next (writeCommandOp cmd s).state
  | .refuse => .next s.takeRefused
  | .wait => .next s

/-- WRITE_DATA as a request (R92, R98, R113). -/
def execWriteData (byte : Byte) (s : State) : Host.Outcome State Fault Refusal :=
  match s.transportAcceptance with
  | .take => .next (writeDataOp byte s).state
  | .refuse => .next s.takeRefused
  | .wait => .next s

end Sys2Proof.Machine
end

