-- ==== Sys2Proof/Machine/Backlight.lean ====
section
/-! DEFINITION. BACKLIGHT_ON and BACKLIGHT_OFF: the flag first, then one GPIO byte (spec/43_backlight.md R100 to R104). -/

namespace Sys2Proof.Machine

/-- BACKLIGHT_ON executed whole (R100): `BL <- 1`, one write, whatever BL held (R103). -/
def backlightOnOp (s : State) : Flow := finishTransport levelEvents ((s.beginTransport .backlightOn).setBacklight true)

/-- BACKLIGHT_OFF executed whole (R101): `BL <- 0`, one write, whatever BL held (R103). -/
def backlightOffOp (s : State) : Flow := finishTransport levelEvents ((s.beginTransport .backlightOff).setBacklight false)

/-- BACKLIGHT_ON as a request (R100, R104, R113); the operand is ignored (R58). -/
def execBacklightOn (_operand : Byte) (s : State) : Host.Outcome State Fault Refusal :=
  match s.transportAcceptance with
  | .take => .next (backlightOnOp s).state
  | .refuse => .next s.takeRefused
  | .wait => .next s

/-- BACKLIGHT_OFF as a request (R101, R104, R113); the operand is ignored (R58). -/
def execBacklightOff (_operand : Byte) (s : State) : Host.Outcome State Fault Refusal :=
  match s.transportAcceptance with
  | .take => .next (backlightOffOp s).state
  | .refuse => .next s.takeRefused
  | .wait => .next s

end Sys2Proof.Machine
end

