-- ==== Sys2Proof/Machine/Nibble.lean ====
section
/-! DEFINITION. NIBBLE_INIT, the init-only nibble primitive, and the requests that are Refused whatever they carry
(spec/41_nibble_primitive.md R85 to R89; spec/30_encoding.md R58). -/

namespace Sys2Proof.Machine

/-- The event list of NIBBLE_INIT(code) (R85): asserted, then immediately deasserted (R88). -/
def nibbleEvents (code : Byte) : List MicroOp := [.nibble code true, .nibble code false]

/-- NIBBLE_INIT(code) executed whole (R85): OPR (dead afterwards) and SEQ.STEP are written, ERR and
BL are not. -/
def nibbleInitOp (code : Byte) (s : State) : Flow :=
  (runMicros (nibbleEvents code) s).andThen fun s' => .goes s'.releaseOpr

/-- NIBBLE_INIT (R85, R87): issued by the sequencer while INIT runs its steps 3 and 4, it has its effect; from the host
port it is Refused (R58); while another operation is in progress the port is not ready (R15). -/
def execNibbleInit (code : Byte) (s : State) : Host.Outcome State Fault Refusal :=
  if s.phase = .init ∧ s.op = .init then .next (nibbleInitOp code s).state
  else if s.op = .none then .next s.takeRefused
  else .next s

/-- A reserved request (R58, R113): Refused when the port takes it, not taken while an operation is in progress (R15). -/
def execReserved (_op : BitVec 3) (_operand : Byte) (s : State) : Host.Outcome State Fault Refusal :=
  if s.op = .none then .next s.takeRefused else .next s

end Sys2Proof.Machine
end

