-- ==== Sys2Proof/Machine/Init.lean ====
section
/-! DEFINITION. INIT, the initialization sequencer, with its hand-off to the external base, and the resumption of an
operation from SEQ (spec/40_init_sequencer.md R70 to R84; spec/10_state.md R14, R15). -/

namespace Sys2Proof.Machine

/-- INIT is accepted (R70, R71, R27): FAULT cleared, the parameters latched, BL unwritten, SEQ at (INIT, INIT, 0); the
expander's registers and the controller's state are unspecified again (R27; log 23). -/
def State.acceptInit (s : State) (p : InitParams) : State :=
  { s.forgetRegisters with
    fault := false
    addr := p.addr
    lines := p.lines
    cols := p.cols
    bl := none
    phase := .init
    op := .init
    step := 0
    blDefault := p.blDefault
    baseOps := p.baseOps
    iface := .unknown }

/-- INIT's events 0 to 14 (R72 to R76, R80): seed, direction, wait, three function-reset nibbles, one mode-select nibble. -/
def initEvents (c : Config) : List MicroOp :=
  [.seed, .direction, .delay tPowerUp] ++
    (nibbleEvents c.codeFunctionReset ++ [.delay tReset1]) ++
    (nibbleEvents c.codeFunctionReset ++ [.delay tReset2]) ++
    (nibbleEvents c.codeFunctionReset ++ [.delay tReset3]) ++
    (nibbleEvents c.codeFunction ++ [.delay tMode])

/-- Event 15, the hand-off (R78): the mark in the trace, PHASE = HANDOFF with INIT suspended at index 15 (R47), and the
base sets the flag with no bus transaction. -/
def State.enterHandoff (s : State) : State :=
  { s with trace := s.trace ++ [.handoff], phase := .handoff, bl := some s.blDefault }

/-- One request of the external base, executed whole by its own rule (R78). -/
def baseRequest : TransportOp → State → Flow
  | .writeCommand cmd, s => writeCommandOp cmd s
  | .writeData byte, s => writeDataOp byte s
  | .backlightOn _, s => backlightOnOp s
  | .backlightOff _, s => backlightOffOp s

/-- The base's requests in list order (R78); a fault in one ends INIT too and drops the rest (R120). -/
def runBase : List TransportOp → State → Flow
  | [], s => .goes s
  | t :: ts, s => (baseRequest t (s.withBase ts)).andThen (runBase ts)

/-- The list is exhausted (R78, R79): PHASE = FINAL, INIT goes on at index 16, and the final command is latched. -/
def State.enterFinal (s : State) : State :=
  { s with phase := .final, op := .init, step := 16, opr := finalCmd s.cfg s.lines, rsl := false }

/-- INIT completes (R79, R133): SEQ = (READY, NONE, 0), ERR = 0, and the controller is in 4-bit mode expecting a high
nibble (R25). -/
def State.finishInit (s : State) : State :=
  { s.releaseLatches with phase := .ready, op := .none, step := 0, err := .ok, iface := .expectHigh }

/-- INIT's events from 16 on: the final WRITE_COMMAND (R79), then completion. -/
def runFinal (s : State) : Flow :=
  (runMicros (commandEvents.drop (s.step - 16)) s).andThen fun s' => .goes s'.finishInit

/-- INIT from the hand-off on: what is left of the base's list, then the final command. -/
def runHandoff (s : State) : Flow := (runBase s.baseOps s).andThen fun s' => runFinal s'.enterFinal

/-- INIT from index SEQ.STEP on (R80). -/
def runInit (s : State) : Flow :=
  (runFromStep (initEvents s.cfg) s).andThen fun s' => runHandoff s'.enterHandoff

/-- INIT as a request (R70, R71): taken in UNBUILT and READY with OP = NONE; zero lines or columns are a ParamFault before
everything else (R112, R116); while an operation is in progress the port is not ready (R58). The operand is ignored. -/
def execInit (_operand : Byte) (p : InitParams) (s : State) : Host.Outcome State Fault Refusal :=
  if (s.phase = .unbuilt ∨ s.phase = .ready) ∧ s.op = .none then
    if p.lines = 0 ∨ p.cols = 0 then .next s.takeParamFault
    else .next (runInit (s.acceptInit p)).state
  else .next s

/-- The rest of the operation that SEQ says is in progress (R14, R15): the step of a state in which OP is not NONE. -/
def State.resume (s : State) : State :=
  match s.phase with
  | .unbuilt => s
  | .init => (runInit s).state
  | .handoff =>
    if s.op = .init then (runHandoff s).state
    else ((finishTransport (transportEvents s.op) s).andThen runHandoff).state
  | .final => (runFinal s).state
  | .ready => (finishTransport (transportEvents s.op) s).state

end Sys2Proof.Machine
end

