-- ==== Sys2Proof/Machine/Dispatch.lean ====
section
/-! DEFINITION. One arm per operation of the opcode table. -/

namespace Sys2Proof.Machine

/-- The meaning of a request. -/
def exec (i : Instr) (s : State) : Host.Outcome State Fault Refusal :=
  match i with
  | .init operand p => Sys2Proof.Machine.execInit operand p s
  | .writeCommand cmd => Sys2Proof.Machine.execWriteCommand cmd s
  | .writeData byte => Sys2Proof.Machine.execWriteData byte s
  | .backlightOn operand => Sys2Proof.Machine.execBacklightOn operand s
  | .backlightOff operand => Sys2Proof.Machine.execBacklightOff operand s
  | .nibbleInit code => Sys2Proof.Machine.execNibbleInit code s
  | .reserved op operand => Sys2Proof.Machine.execReserved op operand s

end Sys2Proof.Machine
end

