-- ==== Sys2Proof/Machine/Step.lean ====
section
/-! DEFINITION. One step: what the port and the sequencer do next (spec/10_state.md R15; spec/20_memory.md R45, R47). -/

namespace Sys2Proof.Machine

/-- An ill-formed configuration is refused (R147). An operation in progress runs to its end before the port takes
anything (R15, R47). An idle port takes the oldest thing presented: a request, which is decoded and executed, or a
hardware reset. With nothing presented the block waits. -/
def step (s : State) : Host.Outcome State Fault Refusal :=
  if s.cfg.WellFormed then
    match s.seqStatus with
    | .illegal => .fault .illegalSequencer
    | .running => .next s.resume
    | .idle =>
      match s.inputs with
      | [] => .next s.waitForRequest
      | .reset :: rest => .next (s.withInputs rest).hardwareReset
      | .request r :: rest =>
        match decode r with
        | .ok i => exec i (s.withInputs rest)
        | .error _ => .refused .malformedBaseRequest
  else .refused .illFormedConfig

/-- s with the request of a table word as the next thing the port takes, in place of what stood there (log 17). -/
def State.withFetchWord (s : State) (nbits w : Nat) : State :=
  { s with inputs := .request (tableRequest nbits w) :: s.inputs.tail }

end Sys2Proof.Machine
end

