-- ==== Sys2Proof/Safety.lean ====
section
/-! DEFINITION. The terms in which claims speak: answers that are ok, the event traces of the rules written down as plain
functions of their parameters (spec/40 to spec/43), and the invariants of the machine. None of the machine's own files
uses this one. -/

namespace Sys2Proof.Machine

/-- The next n transactions are answered ok (R34). -/
def State.AnswersOk (s : State) (n : Nat) : Prop := ∀ k < n, s.answerAt k = .ok

/-- The first n transactions are answered ok and the next one fail: the transport ends an operation there (R116). -/
def State.FailsAt (s : State) (n : Nat) : Prop := s.AnswersOk n ∧ s.answerAt n = .fail

/-- A register write of the operation at device address a (R32). -/
def gpioWrite (c : Config) (a : DevAddr) (b : Byte) : Event := .bus (.reg a c.regGpio b)

/-- The strobe pair of a composed byte: `REG(GPIO, b|E), REG(GPIO, b)` (R85, R90). -/
def strobePair (c : Config) (a : DevAddr) (b : Byte) : List Event :=
  [gpioWrite c a (b ||| c.maskE), gpioWrite c a b]

/-- The two strobe pairs of a byte, high nibble first (R35, R90). -/
def bytePairs (c : Config) (a : DevAddr) (bl rs : Bool) (v : Byte) : List Event :=
  strobePair c a (compose c bl rs (hiNibble v)) ++ strobePair c a (compose c bl rs (loNibble v))

/-- The trace of a fault-free WRITE_COMMAND(cmd) (R91, R94). -/
def commandTrace (c : Config) (a : DevAddr) (bl : Bool) (cmd : Byte) : List Event :=
  bytePairs c a bl false cmd ++ (if cmd.toNat ≤ 3 then [.delay 5] else [])

/-- The trace of a fault-free WRITE_DATA(byte) (R92). -/
def dataTrace (c : Config) (a : DevAddr) (bl : Bool) (byte : Byte) : List Event := bytePairs c a bl true byte

/-- The trace of a fault-free BACKLIGHT_ON (bl) or BACKLIGHT_OFF (not bl) (R100, R101). -/
def levelTrace (c : Config) (a : DevAddr) (bl : Bool) : List Event := [gpioWrite c a (compose c bl false 0)]

/-- The trace of a fault-free NIBBLE_INIT(code) (R85). -/
def nibbleTrace (c : Config) (a : DevAddr) (code : Byte) : List Event :=
  strobePair c a (compose c false false (hiNibble code))

/-- The backlight flag after the base's requests (R78, R100, R101). -/
def baseBacklight : Bool → List TransportOp → Bool
  | bl, [] => bl
  | bl, .writeCommand _ :: ts => baseBacklight bl ts
  | bl, .writeData _ :: ts => baseBacklight bl ts
  | _, .backlightOn _ :: ts => baseBacklight true ts
  | _, .backlightOff _ :: ts => baseBacklight false ts

/-- The trace of the base's requests, each by its own rule, in list order (R78). -/
def baseTrace (c : Config) (a : DevAddr) : Bool → List TransportOp → List Event
  | _, [] => []
  | bl, .writeCommand cmd :: ts => commandTrace c a bl cmd ++ baseTrace c a bl ts
  | bl, .writeData byte :: ts => dataTrace c a bl byte ++ baseTrace c a bl ts
  | _, .backlightOn _ :: ts => levelTrace c a true ++ baseTrace c a true ts
  | _, .backlightOff _ :: ts => levelTrace c a false ++ baseTrace c a false ts

/-- INIT's events 0 to 14 (R80). -/
def handshakeTrace (c : Config) (a : DevAddr) : List Event :=
  [.bus (.raw a c.seedBytes), .bus (.reg a c.regIodir (dirValue c)), .delay 20] ++
    nibbleTrace c a c.codeFunctionReset ++ [.delay 5] ++
    nibbleTrace c a c.codeFunctionReset ++ [.delay 1] ++
    nibbleTrace c a c.codeFunctionReset ++ [.delay 1] ++
    nibbleTrace c a c.codeFunction ++ [.delay 1]

/-- The trace of a fault-free INIT (R80): the handshake, the hand-off mark, the base's requests, the final command. -/
def initTrace (c : Config) (p : InitParams) : List Event :=
  handshakeTrace c p.addr ++ [.handoff] ++ baseTrace c p.addr p.blDefault p.baseOps ++
    commandTrace c p.addr (baseBacklight p.blDefault p.baseOps)
      (c.codeFunction ||| (if 1 < p.lines.toNat then c.codeFunction2Lines else 0))

/-- How many bus transactions an event list holds. -/
def transactions : List Event → Nat
  | [] => 0
  | .bus _ :: es => transactions es + 1
  | .fail _ _ _ :: es => transactions es + 1
  | .delay _ :: es => transactions es
  | .handoff :: es => transactions es

/-- The least time in milliseconds that the DELAY events of a trace stand for (R141, R148). -/
def leastMillis : List Event → Nat
  | [] => 0
  | .delay ms :: es => ms + leastMillis es
  | .bus _ :: es => leastMillis es
  | .fail _ _ _ :: es => leastMillis es
  | .handoff :: es => leastMillis es

/-- The waits of a trace, in order. -/
def delaysOf (es : List Event) : List Nat :=
  es.filterMap fun e => match e with
    | .delay ms => some ms
    | .bus _ => none
    | .fail _ _ _ => none
    | .handoff => none

/-- The nibbles of a byte as the controller latches them (R44). -/
def byteNibbles (rs : Bool) (v : Byte) : List LatchedNibble := [(rs, hiNibble v), (rs, loNibble v)]

/-- The latched nibbles of the base's requests: backlight requests add nothing (R44). -/
def baseNibbles : List TransportOp → List LatchedNibble
  | [] => []
  | .writeCommand cmd :: ts => byteNibbles false cmd ++ baseNibbles ts
  | .writeData byte :: ts => byteNibbles true byte ++ baseNibbles ts
  | .backlightOn _ :: ts => baseNibbles ts
  | .backlightOff _ :: ts => baseNibbles ts

/-- The latched nibbles of a fault-free INIT (R44, R82). -/
def initNibbles (c : Config) (p : InitParams) : List LatchedNibble :=
  [(false, hiNibble c.codeFunctionReset), (false, hiNibble c.codeFunctionReset),
    (false, hiNibble c.codeFunctionReset), (false, hiNibble c.codeFunction)] ++
    baseNibbles p.baseOps ++ byteNibbles false (finalCmd c p.lines)

/-- A transport request is taken: PHASE = READY with OP = NONE, or inside the hand-off, where INIT is suspended (R98, R104). -/
def State.takesTransport (s : State) : Prop :=
  (s.phase = .ready ∧ s.op = .none) ∨ (s.phase = .handoff ∧ s.op = .init)

/-- An INIT request is taken: PHASE is UNBUILT or READY and OP = NONE (R70). -/
def State.takesInit (s : State) : Prop := (s.phase = .unbuilt ∨ s.phase = .ready) ∧ s.op = .none

/-- The sequencer is at a point of INIT where it can issue NIBBLE_INIT (R85). -/
def State.runsInit (s : State) : Prop := s.phase = .init ∧ s.op = .init

/-- SEQ after a transport operation: idle in READY, INIT suspended at its event 15 in the hand-off (R15, R78). -/
def State.seqAfterTransport (s t : State) : Prop :=
  t.phase = s.phase ∧ (s.phase = .ready → t.op = .none ∧ t.step = 0) ∧ (s.phase = .handoff → t.op = .init ∧ t.step = 15)

/-- The state in which a BusFault leaves the block, fault taken in s (R114, R96, R81). -/
def State.faultedFrom (s t : State) : Prop :=
  t.fault = true ∧ t.err = .busFault ∧ t.op = .none ∧ t.step = 0 ∧
    t.phase = (if s.phase = .ready then .ready else .unbuilt) ∧ t.iface = .unknown

/-- t differs from s in no parameter latch, no configuration and no hand-off flag, and the port has taken nothing. -/
def State.sameParameters (s t : State) : Prop :=
  t.cfg = s.cfg ∧ t.addr = s.addr ∧ t.lines = s.lines ∧ t.cols = s.cols ∧ t.blDefault = s.blDefault ∧ t.inputs = s.inputs

/-- Every expander register but the GPIO output register holds what it held. -/
def State.onlyGpioChanged (s t : State) : Prop := ∀ a, a ≠ s.cfg.regGpio.toNat → t.regByte a = s.regByte a

/-- An operation that writes an event list: the trace of its fault-free run in s (R91, R92, R100, R101, R85). -/
def transportTrace (s : State) : TransportOp → List Event
  | .writeCommand cmd => commandTrace s.cfg s.addr s.backlight cmd
  | .writeData byte => dataTrace s.cfg s.addr s.backlight byte
  | .backlightOn _ => levelTrace s.cfg s.addr true
  | .backlightOff _ => levelTrace s.cfg s.addr false

/-- The flag after a transport operation, whether it faults or not (R96, R100, R101, R103). -/
def transportFlag (s : State) : TransportOp → Option Bool
  | .writeCommand _ => s.bl
  | .writeData _ => s.bl
  | .backlightOn _ => some true
  | .backlightOff _ => some false

/-- The nibbles the controller latches in a fault-free transport operation (R44). -/
def transportNibbles : TransportOp → List LatchedNibble
  | .writeCommand cmd => byteNibbles false cmd
  | .writeData byte => byteNibbles true byte
  | .backlightOn _ => []
  | .backlightOff _ => []

/-- SEQ.OP while the transport operation runs (R14, R15). -/
def transportOp : TransportOp → Op
  | .writeCommand _ => .writeCommand
  | .writeData _ => .writeData
  | .backlightOn _ => .backlightOn
  | .backlightOff _ => .backlightOff

/-- The transport request as an instruction. -/
def transportInstr : TransportOp → Instr
  | .writeCommand cmd => .writeCommand cmd
  | .writeData byte => .writeData byte
  | .backlightOn operand => .backlightOn operand
  | .backlightOff operand => .backlightOff operand

/-- The byte last written to REG_GPIO is known and its E is 0 (R28). -/
def State.strobeLow (s : State) : Prop :=
  ∃ v, s.regs.read s.cfg.regGpio.toNat = some v ∧ eLevel s.cfg v = false

/-- A transaction that the block may issue (R18, R21, R31, R32, R38, R60): to the device at a, the seed, the direction
write, or a GPIO byte whose spare bit is 0. -/
def Transaction.allowed (c : Config) (a : DevAddr) : Transaction → Prop
  | .raw a' bytes => a' = a ∧ bytes = c.seedBytes
  | .reg a' r v => a' = a ∧ ((r = c.regIodir ∧ v = dirValue c) ∨ (r = c.regGpio ∧ v &&& maskSpare c = 0))

/-- An event whose transaction, if it has one, the block may issue. -/
def Event.allowed (c : Config) (a : DevAddr) : Event → Prop
  | .bus t => t.allowed c a
  | .fail t _ _ => t.allowed c a
  | .delay _ => True
  | .handoff => True

/-- The event is the mark of a failed transaction. -/
def Event.isFail : Event → Bool
  | .fail _ _ _ => true
  | .bus _ => false
  | .delay _ => false
  | .handoff => false

/-- The invariant of the states between operations: configuration and register list well formed; SEQ idle (R14); an
instance has a backlight flag (R98); with no fault recorded its strobe is low (R28) and the controller is in 4-bit mode
expecting a high nibble (R25). -/
def State.Settled (s : State) : Prop :=
  s.cfg.WellFormed = true ∧ s.regs.wf ∧ s.seqStatus = .idle ∧
    (s.phase = .ready → s.bl ≠ none) ∧
    (s.phase = .ready → s.fault = false → s.strobeLow ∧ s.iface = .expectHigh)

end Sys2Proof.Machine
end

