-- ==== Sys2Proof/Certificates/Slice0/Obligations.lean ====
section
/-! DEFINITION. The statements for the provers. Each docstring names the rules of spec/ that its statement formalises. -/

open Sys2Proof Sys2Proof.Machine

/-! ### Encodings (spec/30_encoding.md) -/

/-- R51 to R53: for EVERY well-formed instruction, with every operand value and every INITP block, decoding its encoding
gives it back. -/
def Obligations.DecodeOfEncodeIsTheInstruction : Prop :=
  ∀ i : Instr, i.WellFormed = true → decode (encode i) = .ok i

/-- R51, R52: no bit of a request word is dropped: the decoded instruction's word is the word, and the instruction is
well formed. -/
def Obligations.DecodingDropsNoBitOfTheWord : Prop :=
  ∀ (r : Request) (i : Instr), decode r = .ok i → (encode i).word = r.word ∧ i.WellFormed = true

/-- R53, R58, R64: a request is an instruction exactly when the words of an INIT request's base list are transport
requests; every other word, the reserved ones included, has a meaning. -/
def Obligations.RequestDecodesExactlyWhenWellFormed : Prop :=
  ∀ r : Request, (∃ i, decode r = .ok i) ↔ r.WellFormed = true

/-- R51, R52, spec/95_test_vectors.md P1 to P5, V-R1, V-R2: words written out bit by bit. -/
def Obligations.SpecWordsDecodeToTheirOperations : Prop :=
  decode ⟨0b000_00000000#11, ⟨some 0x20, 2, 16, true, []⟩⟩ = .ok (.init 0x00 ⟨0x20, 2, 16, true, []⟩) ∧
  decode ⟨0b001_00000001#11, .blank⟩ = .ok (.writeCommand 0x01) ∧
  decode ⟨0b010_01000001#11, .blank⟩ = .ok (.writeData 0x41) ∧
  decode ⟨0b011_10100101#11, .blank⟩ = .ok (.backlightOn 0xA5) ∧
  decode ⟨0b100_00000000#11, .blank⟩ = .ok (.backlightOff 0x00) ∧
  decode ⟨0b101_00110000#11, .blank⟩ = .ok (.nibbleInit 0x30) ∧
  decode ⟨0b110_00000000#11, .blank⟩ = .ok (.reserved 0b110 0x00) ∧
  decode ⟨0b111_11111111#11, .blank⟩ = .ok (.reserved 0b111 0xFF)

/-! ### The GPIO byte (spec/30_encoding.md R55, R60) -/

/-- R55, R60: in every configuration of the spec each field of a composed byte can be read back, asserted or not, and
asserting the strobe changes the strobe alone. -/
def Obligations.ComposedFieldsReadBack : Prop :=
  ∀ (c : Config) (bl rs asserted : Bool) (nib : Nibble), c.WellFormed = true →
    dataField c (withStrobe c asserted (compose c bl rs nib)) = nib ∧
    blLevel c (withStrobe c asserted (compose c bl rs nib)) = bl ∧
    rsLevel c (withStrobe c asserted (compose c bl rs nib)) = rs ∧
    eLevel c (withStrobe c asserted (compose c bl rs nib)) = asserted ∧
    withStrobe c asserted (compose c bl rs nib) &&& maskSpare c = 0

/-- R6, R20: the direction value has exactly one bit, the one that is in none of the four fields. -/
def Obligations.DirectionValueIsTheOneSpareBit : Prop :=
  ∀ c : Config, c.WellFormed = true →
    oneBit (dirValue c) = true ∧ dirValue c &&& maskSignals c = 0 ∧ dirValue c ||| maskSignals c = 0xFF

/-! ### Reset and the step -/

/-- R130: hardware reset, at power-on (`State.reset`) and presented to an idle block: UNBUILT, OP = NONE, STEP = 0,
FAULT = 0, ERR = 0, BL unwritten, no event. That the expander keeps its registers is R134; that the register list and the
other environment fields stay is the model's (log 24). -/
def Obligations.HardwareResetLeavesAnUnbuiltBlock : Prop :=
  (State.reset.phase = .unbuilt ∧ State.reset.op = .none ∧ State.reset.step = 0 ∧ State.reset.fault = false ∧
    State.reset.err.code = 0 ∧ State.reset.bl = none ∧ State.reset.trace = []) ∧
  ∀ (s : State) (rest : List HostInput), s.cfg.WellFormed = true → s.seqStatus = .idle → s.inputs = .reset :: rest →
    ∃ t, step s = .next t ∧ t.phase = .unbuilt ∧ t.op = .none ∧ t.step = 0 ∧ t.fault = false ∧ t.err.code = 0 ∧
      t.bl = none ∧ t.trace = s.trace ∧ t.regs = s.regs ∧ t.epoch = s.epoch ∧ t.inputs = rest

/-- R15, R47: when the oldest thing presented to an idle port decodes to an instruction, the step IS that instruction's
meaning, on the state without the request taken. -/
def Obligations.StepRunsTheDecodedRequest : Prop :=
  ∀ (s : State) (r : Request) (rest : List HostInput) (i : Instr), s.cfg.WellFormed = true → s.seqStatus = .idle →
    s.inputs = .request r :: rest → decode r = .ok i → step s = exec i (s.withInputs rest)

/-- The model's form of a waiting port (log 16, a DESIGN CHOICE): with nothing presented the step changes nothing. R130 and
R47 say only that the block issues no transaction on its own and takes one request at a time. -/
def Obligations.IdlePortWithNothingPresentedChangesNothing : Prop :=
  ∀ s : State, s.cfg.WellFormed = true → s.seqStatus = .idle → s.inputs = [] → step s = .next s

/-- R15 (last row), R47: while an operation is in progress nothing presented is taken; the operation runs to its end. -/
def Obligations.OperationInProgressEndsBeforeThePortTakesAnything : Prop :=
  ∀ s : State, s.cfg.WellFormed = true → s.seqStatus = .running →
    ∃ t, step s = .next t ∧ t.inputs = s.inputs ∧ t.seqStatus = .idle

/-- R14, R45 (c): every step ends with SEQ idle: PHASE is UNBUILT or READY, OP = NONE, STEP = 0. -/
def Obligations.EveryStepEndsWithAnIdleSequencer : Prop :=
  ∀ s t : State, step s = .next t → (t.phase = .unbuilt ∨ t.phase = .ready) ∧ t.op = .none ∧ t.step = 0

/-- The machine stops nowhere but outside the spec: R147 (configuration), R14 and R15 (SEQ), R53 (base list). -/
def Obligations.StepStopsOnlyOutsideTheSpec : Prop :=
  ∀ s : State, s.cfg.WellFormed = true → s.seqStatus ≠ .illegal →
    (∀ r rest, s.inputs = .request r :: rest → r.WellFormed = true) → ∃ t, step s = .next t

/-- R147, U6: a step in a configuration that violates R6 is refused; SEQ outside R15's table is a fault; a base list
outside R53's type is refused. -/
def Obligations.StepStopsByName : Prop :=
  (∀ s : State, s.cfg.WellFormed = false → step s = .refused .illFormedConfig) ∧
  (∀ s : State, s.cfg.WellFormed = true → s.seqStatus = .illegal → step s = .fault .illegalSequencer) ∧
  (∀ (s : State) (r : Request) (rest : List HostInput), s.cfg.WellFormed = true → s.seqStatus = .idle →
    s.inputs = .request r :: rest → r.WellFormed = false → step s = .refused .malformedBaseRequest)

/-! ### WRITE_COMMAND and WRITE_DATA (spec/42_transport.md) -/

/-- R91, R94: a WRITE_COMMAND that is taken, with its four transactions ok, ends in a next state whose trace has grown by
its two strobe pairs, high nibble first, and by DELAY(5) exactly when cmd ≤ 3; ERR = 0, BL and FAULT unchanged, SEQ at rest. -/
def Obligations.WriteCommandSendsBothNibblesAndDelaysUpToThree : Prop :=
  ∀ (cmd : Byte) (s : State), s.takesTransport → s.AnswersOk 4 →
    ∃ t, exec (.writeCommand cmd) s = .next t ∧ t.trace = s.trace ++ commandTrace s.cfg s.addr s.backlight cmd ∧
      t.err = .ok ∧ t.bl = s.bl ∧ t.fault = s.fault ∧ s.seqAfterTransport t ∧ s.sameParameters t ∧
      t.baseOps = s.baseOps ∧ t.regByte s.cfg.regGpio.toNat = compose s.cfg s.backlight false (loNibble cmd) ∧
      s.onlyGpioChanged t

/-- R92: the same for WRITE_DATA, with RS set in all four bytes and no delay for any value. -/
def Obligations.WriteDataSendsBothNibblesWithoutDelay : Prop :=
  ∀ (byte : Byte) (s : State), s.takesTransport → s.AnswersOk 4 →
    ∃ t, exec (.writeData byte) s = .next t ∧ t.trace = s.trace ++ dataTrace s.cfg s.addr s.backlight byte ∧
      t.err = .ok ∧ t.bl = s.bl ∧ t.fault = s.fault ∧ s.seqAfterTransport t ∧ s.sameParameters t ∧
      t.baseOps = s.baseOps ∧ t.regByte s.cfg.regGpio.toNat = compose s.cfg s.backlight true (loNibble byte) ∧
      s.onlyGpioChanged t

/-- R97 (a) to (f), for every fault-free WRITE_COMMAND (rs = false) and WRITE_DATA (rs = true). The nibbles are written out
as `(v >> 4) & 0xF` and `v & 0xF`. Clause (e), the spare bit, is the spec's own inference from R60. -/
def Obligations.TransportBytesCarryNibbleRegisterSelectAndBacklight : Prop :=
  ∀ (rs : Bool) (v : Byte) (s : State), s.cfg.WellFormed = true → s.takesTransport → s.AnswersOk 4 →
    ∃ t b0 b1 b2 b3, exec (if rs then .writeData v else .writeCommand v) s = .next t ∧
      t.trace = s.trace ++ [gpioWrite s.cfg s.addr b0, gpioWrite s.cfg s.addr b1, gpioWrite s.cfg s.addr b2,
        gpioWrite s.cfg s.addr b3] ++ (if rs = false ∧ v ∈ [0#8, 1#8, 2#8, 3#8] then [.delay 5] else []) ∧
      ((dataField s.cfg b0).setWidth 8 = (v >>> 4) &&& 0x0F ∧ (dataField s.cfg b1).setWidth 8 = (v >>> 4) &&& 0x0F ∧
        (dataField s.cfg b2).setWidth 8 = v &&& 0x0F ∧ (dataField s.cfg b3).setWidth 8 = v &&& 0x0F) ∧
      (∀ b ∈ [b0, b1, b2, b3], rsLevel s.cfg b = rs ∧ (∀ f, s.bl = some f → blLevel s.cfg b = f) ∧
        b &&& maskSpare s.cfg = 0) ∧
      (b0 = b1 ||| s.cfg.maskE ∧ b2 = b3 ||| s.cfg.maskE ∧ eLevel s.cfg b1 = false ∧ eLevel s.cfg b3 = false)

/-- R94: after the four writes of a WRITE_COMMAND, a base request's too (`takesTransport` holds in the hand-off), and after
those of INIT's final command, the trace ends with DELAY(5) exactly when the value is at most 3, unsigned, and the operation
reports completion behind it; when one of the four writes fails there is no delay. -/
def Obligations.PostCommandDelayIsPerformedExactlyUpToThree : Prop :=
  (∀ (cmd : Byte) (s : State), s.takesTransport → s.AnswersOk 4 →
    ∃ t b0 b1 b2 b3, exec (.writeCommand cmd) s = .next t ∧ t.err = .ok ∧
      t.trace = s.trace ++ [gpioWrite s.cfg s.addr b0, gpioWrite s.cfg s.addr b1, gpioWrite s.cfg s.addr b2,
        gpioWrite s.cfg s.addr b3] ++ (if cmd.toNat ≤ 3 then [.delay 5] else [])) ∧
  (∀ (cmd : Byte) (n : Nat) (s : State), s.takesTransport → n < 4 → s.FailsAt n →
    ∃ t es, exec (.writeCommand cmd) s = .next t ∧ t.trace = s.trace ++ es ∧ es.length = n + 1 ∧
      ∀ ms, .delay ms ∉ es) ∧
  (∀ (operand : Byte) (p : InitParams) (s : State), s.takesInit → p.lines ≠ 0 → p.cols ≠ 0 →
    s.AnswersOk (transactions (initTrace s.cfg p)) →
    ∃ t b0 b1 b2 b3, exec (.init operand p) s = .next t ∧ t.err = .ok ∧
      t.trace = s.trace ++ handshakeTrace s.cfg p.addr ++ [.handoff] ++
        baseTrace s.cfg p.addr p.blDefault p.baseOps ++
        [gpioWrite s.cfg p.addr b0, gpioWrite s.cfg p.addr b1, gpioWrite s.cfg p.addr b2, gpioWrite s.cfg p.addr b3] ++
        (if (finalCmd s.cfg p.lines).toNat ≤ 3 then [.delay 5] else [])) ∧
  (∀ (operand : Byte) (p : InitParams) (n : Nat) (s : State), s.takesInit → p.lines ≠ 0 → p.cols ≠ 0 →
    transactions (initTrace s.cfg p) ≤ n + 4 → n < transactions (initTrace s.cfg p) → s.FailsAt n →
    ∃ t es, exec (.init operand p) s = .next t ∧
      t.trace = s.trace ++ handshakeTrace s.cfg p.addr ++ [.handoff] ++
        baseTrace s.cfg p.addr p.blDefault p.baseOps ++ es ∧
      ∀ ms, .delay ms ∉ es)

/-! ### BACKLIGHT_ON and BACKLIGHT_OFF (spec/43_backlight.md) -/

/-- R100, R102, R103: BACKLIGHT_ON sets the flag and writes one byte, whatever the flag held and whatever the operand. -/
def Obligations.BacklightOnSetsTheFlagAndWritesOneByte : Prop :=
  ∀ (operand : Byte) (s : State), s.takesTransport → s.AnswersOk 1 →
    ∃ t, exec (.backlightOn operand) s = .next t ∧ t.bl = some true ∧
      t.trace = s.trace ++ [gpioWrite s.cfg s.addr (maskBl s.cfg)] ∧
      t.err = .ok ∧ t.fault = s.fault ∧ t.opr = s.opr ∧ t.rsl = s.rsl ∧ s.seqAfterTransport t ∧ s.sameParameters t ∧
      t.baseOps = s.baseOps ∧ t.regByte s.cfg.regGpio.toNat = maskBl s.cfg ∧ s.onlyGpioChanged t

/-- R101, R102, R103: BACKLIGHT_OFF clears the flag and writes the byte 0. -/
def Obligations.BacklightOffClearsTheFlagAndWritesZero : Prop :=
  ∀ (operand : Byte) (s : State), s.takesTransport → s.AnswersOk 1 →
    ∃ t, exec (.backlightOff operand) s = .next t ∧ t.bl = some false ∧
      t.trace = s.trace ++ [gpioWrite s.cfg s.addr 0] ∧
      t.err = .ok ∧ t.fault = s.fault ∧ t.opr = s.opr ∧ t.rsl = s.rsl ∧ s.seqAfterTransport t ∧ s.sameParameters t ∧
      t.baseOps = s.baseOps ∧ t.regByte s.cfg.regGpio.toNat = 0 ∧ s.onlyGpioChanged t

/-- R103, R114: when the write of a backlight operation fails, the flag keeps the NEW value. -/
def Obligations.FailedBacklightWriteKeepsTheNewFlag : Prop :=
  ∀ (on : Bool) (operand : Byte) (s : State), s.takesTransport → s.answerAt 0 = .fail →
    ∃ t, exec (if on then .backlightOn operand else .backlightOff operand) s = .next t ∧ t.bl = some on ∧
      s.faultedFrom t ∧ s.sameParameters t ∧
      t.trace = s.trace ++ [.fail (.reg s.addr s.cfg.regGpio (compose s.cfg on false 0))
        (if on then .backlightOn else .backlightOff) 0]

/-! ### NIBBLE_INIT (spec/41_nibble_primitive.md) -/

/-- R85, R86, R88: issued inside INIT, NIBBLE_INIT writes the strobe pair of its argument's high nibble, with RS = 0 and
the backlight bit 0 whatever BL holds, and goes on at the next but one index of INIT's list. -/
def Obligations.NibbleInitStrobesTheHighNibble : Prop :=
  ∀ (code : Byte) (s : State), s.runsInit → s.AnswersOk 2 →
    ∃ t, exec (.nibbleInit code) s = .next t ∧ t.trace = s.trace ++ nibbleTrace s.cfg s.addr code ∧
      t.step = s.step + 2 ∧ t.op = s.op ∧ t.phase = s.phase ∧ t.bl = s.bl ∧ t.rsl = s.rsl ∧ t.err = s.err ∧
      t.fault = s.fault ∧ s.sameParameters t ∧ t.baseOps = s.baseOps ∧
      t.regByte s.cfg.regGpio.toNat = compose s.cfg false false (hiNibble code) ∧ s.onlyGpioChanged t

/-- R85, R81: a failed write of NIBBLE_INIT is a BusFault of INIT: no instance survives. -/
def Obligations.FailedNibbleInitAbortsConstruction : Prop :=
  ∀ (code : Byte) (n : Nat) (s : State), s.runsInit → n < 2 → s.FailsAt n →
    ∃ t tx, exec (.nibbleInit code) s = .next t ∧ s.faultedFrom t ∧ t.phase = .unbuilt ∧ t.bl = s.bl ∧
      s.sameParameters t ∧ (nibbleTrace s.cfg s.addr code)[n]? = some (.bus tx) ∧
      t.trace = s.trace ++ (nibbleTrace s.cfg s.addr code).take n ++ [.fail tx .init (s.step + n)]

/-! ### INIT (spec/40_init_sequencer.md) -/

/-- R70 to R80: an INIT that is taken with valid parameters, for EVERY finite list of base requests, with every
transaction ok, ends in READY with the whole event sequence in the trace. That the controller is then in 4-bit mode expecting
a high nibble is R25 and R133, in the reading of log 13. -/
def Obligations.InitRunsTheWholeSequence : Prop :=
  ∀ (operand : Byte) (p : InitParams) (s : State), s.takesInit → p.lines ≠ 0 → p.cols ≠ 0 →
    s.AnswersOk (transactions (initTrace s.cfg p)) →
    ∃ t, exec (.init operand p) s = .next t ∧ t.trace = s.trace ++ initTrace s.cfg p ∧
      t.addr = p.addr ∧ t.lines = p.lines ∧ t.cols = p.cols ∧
      t.bl = some (baseBacklight p.blDefault p.baseOps) ∧
      t.phase = .ready ∧ t.op = .none ∧ t.step = 0 ∧ t.fault = false ∧ t.err = .ok ∧ t.iface = .expectHigh ∧
      t.cfg = s.cfg ∧ t.inputs = s.inputs

/-- R81, R116, R117, R120: an INIT whose n-th transaction is the first that fails leaves exactly the events before it
and one FAIL event, and no instance: every later write, delay, hand-off and base request is missing. That the FAIL event of a
transaction before the hand-off carries (INIT, its index in R80) is DEDUCED (log 14). -/
def Obligations.InitIsCutAtTheFirstFailedTransaction : Prop :=
  ∀ (operand : Byte) (p : InitParams) (n : Nat) (s : State), s.takesInit → p.lines ≠ 0 → p.cols ≠ 0 →
    n < transactions (initTrace s.cfg p) → s.FailsAt n →
    ∃ t pre tx post o k, exec (.init operand p) s = .next t ∧ initTrace s.cfg p = pre ++ .bus tx :: post ∧
      transactions pre = n ∧ t.trace = s.trace ++ pre ++ [.fail tx o k] ∧
      (pre.length < 15 → o = .init ∧ k = pre.length) ∧
      t.phase = .unbuilt ∧ t.op = .none ∧ t.step = 0 ∧ t.fault = true ∧ t.err = .busFault ∧ t.iface = .unknown ∧
      t.addr = p.addr ∧ t.lines = p.lines ∧ t.cols = p.cols ∧ t.cfg = s.cfg ∧ t.inputs = s.inputs

/-- R82 (S-P6): the events of a fault-free INIT hold exactly one raw write (the seed) and one direction write, both before
every GPIO write, and the waits before the hand-off are 20, 5, 1, 1, 1. -/
def Obligations.InitConfiguresTheExpanderOnceAndWaits : Prop :=
  ∀ (operand : Byte) (p : InitParams) (s : State), s.cfg.WellFormed = true → s.takesInit → p.lines ≠ 0 → p.cols ≠ 0 →
    s.AnswersOk (transactions (initTrace s.cfg p)) →
    ∃ t before after, exec (.init operand p) s = .next t ∧
      t.trace = s.trace ++ [.bus (.raw p.addr s.cfg.seedBytes), .bus (.reg p.addr s.cfg.regIodir (dirValue s.cfg))] ++
        before ++ [.handoff] ++ after ∧
      delaysOf before = [20, 5, 1, 1, 1] ∧
      (∀ e ∈ before ++ after, e ≠ .handoff ∧
        ∀ tx, e = .bus tx → ∃ v, tx = .reg p.addr s.cfg.regGpio v)

/-- R148: the waits of a fault-free INIT sum up to 28 ms at least, and to exactly 28 with an empty base list and a final
command above 3. -/
def Obligations.InitWaitsAtLeast28Milliseconds : Prop :=
  ∀ (operand : Byte) (p : InitParams) (s : State), s.takesInit → p.lines ≠ 0 → p.cols ≠ 0 →
    s.AnswersOk (transactions (initTrace s.cfg p)) →
    ∃ t es, exec (.init operand p) s = .next t ∧ t.trace = s.trace ++ es ∧ 28 ≤ leastMillis es ∧
      (p.baseOps = [] → isClearHome (finalCmd s.cfg p.lines) = false → leastMillis es = 28)

/-- R13, R79, R83: two INIT requests that differ only in LINES and COLS, both nonzero and both, or neither, with more than
one line, run to states that differ only in LINES and COLS, whatever the bus answers. -/
def Obligations.DisplayGeometryReachesTheBusOnlyThroughTheFinalCommand : Prop :=
  ∀ (operand : Byte) (p : InitParams) (l c : Byte) (s : State), s.takesInit → p.lines ≠ 0 → p.cols ≠ 0 → l ≠ 0 → c ≠ 0 →
    (1 < p.lines.toNat ↔ 1 < l.toNat) →
    ∃ t u, exec (.init operand p) s = .next t ∧ exec (.init operand { p with lines := l, cols := c }) s = .next u ∧
      u.lines = l ∧ u.cols = c ∧ { u with lines := t.lines, cols := t.cols } = t

/-- R112, R71: ParamFault, code 2: an INIT that is taken with zero lines or columns changes ERR alone, before any bus
transaction (that the check comes before all bus traffic and all state changes is the spec's own decision D11); with any
other parameters it is not rejected; and nothing else raises it. -/
def Obligations.ParamFaultIsRaisedExactlyByZeroLinesOrColumns : Prop :=
  (∀ (operand : Byte) (p : InitParams) (s : State), s.takesInit → p.lines = 0 ∨ p.cols = 0 →
    exec (.init operand p) s = .next { s with err := .paramFault }) ∧
  Report.code .paramFault = 2 ∧
  (∀ (operand : Byte) (p : InitParams) (s t : State), s.takesInit → p.lines ≠ 0 → p.cols ≠ 0 →
    exec (.init operand p) s = .next t → t.err ≠ .paramFault) ∧
  (∀ (i : Instr) (s t : State), exec i s = .next t → s.err ≠ .paramFault → t.err = .paramFault →
    s.takesInit ∧ ∃ operand p, i = .init operand p ∧ (p.lines = 0 ∨ p.cols = 0))

/-! ### Refusals and the busy port -/

/-- R113, the spec's own decision D14: Refused, code 3: a reserved request, NIBBLE_INIT from the host port and a transport
request in UNBUILT change ERR alone; and nothing else is Refused. That NIBBLE_INIT comes from the host port where OP = NONE and
from the sequencer where INIT runs is DEDUCED (log 15). The three clauses of the first part are over different instructions. -/
def Obligations.ExactlyTheRequestsOutOfPlaceAreRefused : Prop :=
  ((∀ (op : BitVec 3) (operand : Byte) (s : State), s.op = .none →
      exec (.reserved op operand) s = .next { s with err := .refused }) ∧
    (∀ (code : Byte) (s : State), s.op = .none → exec (.nibbleInit code) s = .next { s with err := .refused }) ∧
    (∀ (q : TransportOp) (s : State), s.phase = .unbuilt → s.op = .none →
      exec (transportInstr q) s = .next { s with err := .refused })) ∧
  Report.code .refused = 3 ∧
  (∀ (i : Instr) (s t : State), exec i s = .next t → s.err ≠ .refused → t.err = .refused →
    (∃ op operand, i = .reserved op operand) ∨ (∃ code, i = .nibbleInit code ∧ ¬ s.runsInit) ∨
      (∃ q, i = transportInstr q ∧ s.phase = .unbuilt))

/-- R15 (last row), R58, R47: an instruction for which the port is not ready is not taken and changes nothing. -/
def Obligations.NotReadyPortTakesNothing : Prop :=
  (∀ (operand : Byte) (p : InitParams) (s : State), ¬ s.takesInit → exec (.init operand p) s = .next s) ∧
  (∀ (q : TransportOp) (s : State), ¬ s.takesTransport → ¬ (s.phase = .unbuilt ∧ s.op = .none) →
    exec (transportInstr q) s = .next s) ∧
  (∀ (code : Byte) (s : State), ¬ s.runsInit → s.op ≠ .none → exec (.nibbleInit code) s = .next s) ∧
  (∀ (op : BitVec 3) (operand : Byte) (s : State), s.op ≠ .none → exec (.reserved op operand) s = .next s)

/-- R58: the operand bits of INIT, BACKLIGHT_ON and BACKLIGHT_OFF are ignored. -/
def Obligations.IgnoredOperandsMakeNoDifference : Prop :=
  ∀ (a b : Byte) (p : InitParams) (s : State), exec (.init a p) s = exec (.init b p) s ∧
    exec (.backlightOn a) s = exec (.backlightOn b) s ∧ exec (.backlightOff a) s = exec (.backlightOff b) s

/-! ### Faults (spec/60_exceptions.md) -/

/-- R96, R114, R116, R117: a transport operation whose n-th transaction is the first that fails leaves exactly the events
before it and one FAIL event with its (OP, STEP); PHASE stays READY, or goes to UNBUILT inside the hand-off; the other
expander registers hold what they held. -/
def Obligations.TransportIsCutAtTheFirstFailedTransaction : Prop :=
  ∀ (q : TransportOp) (n : Nat) (s : State), s.takesTransport → n < transactions (transportTrace s q) → s.FailsAt n →
    ∃ t tx, exec (transportInstr q) s = .next t ∧ (transportTrace s q)[n]? = some (.bus tx) ∧
      t.trace = s.trace ++ (transportTrace s q).take n ++ [.fail tx (transportOp q) n] ∧
      s.faultedFrom t ∧ t.bl = transportFlag s q ∧ s.sameParameters t ∧ s.onlyGpioChanged t

/-- R116, R117, R118: whatever a step does, the trace only grows, at most one FAIL event is added, nothing follows it, and
then FAULT is set and ERR is BUS_FAULT. -/
def Obligations.AFailedTransactionEndsTheOperation : Prop :=
  ∀ s t : State, step s = .next t → ∃ es, t.trace = s.trace ++ es ∧
    ((∀ e ∈ es, e.isFail = false) ∨
      ∃ pre tx o k, es = pre ++ [.fail tx o k] ∧ (∀ e ∈ pre, e.isFail = false) ∧ t.fault = true ∧ t.err = .busFault)

/-- R16: FAULT is set only by an operation that ends in BUS_FAULT, and cleared only by an INIT taken with valid parameters
or by hardware reset: for every instruction, and for EVERY step, one that resumes an operation in progress too (it clears
FAULT never). -/
def Obligations.FaultFlagIsSetByBusFaultsAndClearedByInit : Prop :=
  (∀ (i : Instr) (s t : State), exec i s = .next t → s.fault = false → t.fault = true → t.err = .busFault) ∧
  (∀ (i : Instr) (s t : State), exec i s = .next t → s.fault = true → t.fault = false →
    s.takesInit ∧ ∃ operand p, i = .init operand p ∧ p.lines ≠ 0 ∧ p.cols ≠ 0) ∧
  (∀ s t : State, step s = .next t → s.fault = false → t.fault = true → t.err = .busFault) ∧
  (∀ s t : State, step s = .next t → s.fault = true → t.fault = false → s.seqStatus = .idle ∧
    ((∃ rest, s.inputs = .reset :: rest) ∨
      ∃ r rest operand p, s.inputs = .request r :: rest ∧ decode r = .ok (.init operand p) ∧ p.lines ≠ 0 ∧ p.cols ≠ 0))

/-- R16: FAULT "is read by no operation rule (it changes no bus traffic)": two states that differ in FAULT alone run every
instruction to states that differ at most in FAULT. -/
def Obligations.FaultFlagChangesNoBusTraffic : Prop :=
  ∀ (i : Instr) (v : Bool) (s t : State), exec i s = .next t →
    ∃ u, exec i { s with fault := v } = .next u ∧ { u with fault := t.fault } = t

/-! ### Frames -/

/-- What WRITE_COMMAND, WRITE_DATA, BACKLIGHT_ON, BACKLIGHT_OFF, NIBBLE_INIT and the reserved requests leave alone in EVERY
next state, a BusFault included: the configuration, ADDR, LINES, COLS, the hand-off flag, what the host has presented, and
every expander register but the GPIO output register. BL is changed by the backlight operations alone. -/
def Obligations.TransportLeavesParametersAndOtherRegisters : Prop :=
  ∀ (i : Instr) (s t : State), (∀ operand p, i ≠ .init operand p) → exec i s = .next t →
    s.sameParameters t ∧ s.onlyGpioChanged t ∧
      ((∀ a, i ≠ .backlightOn a) → (∀ a, i ≠ .backlightOff a) → t.bl = s.bl)

/-- What INIT leaves alone in EVERY next state, a BusFault included: the configuration and what the host has presented. An
INIT that is taken with nonzero lines and columns leaves ADDR, LINES and COLS at the request's parameters, however it ends
(R71, R81); one that is rejected or not taken leaves the whole state but ERR (R71, R112, R15). -/
def Obligations.InitChangesParametersOnlyToItsOwn : Prop :=
  ∀ (operand : Byte) (p : InitParams) (s t : State), exec (.init operand p) s = .next t →
    (t.cfg = s.cfg ∧ t.inputs = s.inputs) ∧
    (s.takesInit ∧ p.lines ≠ 0 ∧ p.cols ≠ 0 → t.addr = p.addr ∧ t.lines = p.lines ∧ t.cols = p.cols) ∧
    (¬ (s.takesInit ∧ p.lines ≠ 0 ∧ p.cols ≠ 0) → t = { s with err := t.err })

/-! ### The target side (spec/20_memory.md) -/

/-- R40: after a successful register write the register holds the byte, and every other register what it held. -/
def Obligations.RegisterWriteIsHeldByThatRegisterAlone : Prop :=
  ∀ (a : DevAddr) (r v : Byte) (s : State), (s.deliver (.reg a r v)).regByte r.toNat = v ∧
    ∀ k, k ≠ r.toNat → (s.deliver (.reg a r v)).regByte k = s.regByte k

/-- R41 (general knowledge, log 10): the default seed sets the direction register to 0xFF and the registers 0x01 to 0x0A to
0x00, whatever they held. -/
def Obligations.DefaultSeedReleasesTheLinesAndClearsTheRest : Prop :=
  ∀ (a : DevAddr) (s : State), (s.deliver (.raw a Config.default.seedBytes)).regByte 0 = 0xFF ∧
    ∀ k, 1 ≤ k → k ≤ 10 → (s.deliver (.raw a Config.default.seedBytes)).regByte k = 0x00

/-- R41 (general knowledge and D21, log 10), for ANY seed: the bytes after the first fill the registers from the address that
the first byte names, in order; every other register holds what it held; and the controller latches nothing (R44, log 12).
A raw write that would pass the register space is the model's choice (log 10) and is left out. -/
def Obligations.RawWriteFillsSuccessiveRegistersFromItsFirstByte : Prop :=
  ∀ (a : DevAddr) (p : Byte) (data : List Byte) (s : State), p.toNat + data.length ≤ 256 →
    (∀ (i : Nat) (v : Byte), data[i]? = some v → (s.deliver (.raw a (p :: data))).regByte (p.toNat + i) = v) ∧
    (∀ k, k < p.toNat ∨ p.toNat + data.length ≤ k → (s.deliver (.raw a (p :: data))).regByte k = s.regByte k) ∧
    (s.deliver (.raw a (p :: data))).latched = s.latched

/-- R44, R28, R102, R145: with E low before it, a fault-free transport operation leaves E low; and with FAULT = 0, the premise
that R16 and U2 ask of every claim about the controller, it makes the controller latch exactly its nibbles (none for a
backlight operation) and leaves "expecting a high nibble" as it was (R25). -/
def Obligations.TransportLatchesItsNibblesAndLeavesTheStrobeLow : Prop :=
  ∀ (q : TransportOp) (s : State), s.cfg.WellFormed = true → s.takesTransport → s.strobeLow →
    s.AnswersOk (transactions (transportTrace s q)) →
    ∃ t, exec (transportInstr q) s = .next t ∧ t.strobeLow ∧
      (s.fault = false → t.latched = s.latched ++ transportNibbles q ∧ (s.iface = .expectHigh → t.iface = .expectHigh))

/-- R44, R82, R28: in EVERY configuration of the spec, whatever its layout, codes and seed, a fault-free INIT makes the
controller latch the function-reset nibble three times, the function nibble, the base's nibbles and the final command's, from
any controller state and any expander contents, and leaves E low. That edges are seen at GPIO writes alone is log 12. -/
def Obligations.InitLatchesTheHandshakeThenTheFinalCommand : Prop :=
  ∀ (operand : Byte) (p : InitParams) (s : State), s.cfg.WellFormed = true → s.takesInit → p.lines ≠ 0 → p.cols ≠ 0 →
    s.AnswersOk (transactions (initTrace s.cfg p)) →
    ∃ t, exec (.init operand p) s = .next t ∧ t.latched = s.latched ++ initNibbles s.cfg p ∧ t.strobeLow

/-- R42, R73, R20: after a fault-free INIT the seven signal lines are outputs that carry the last byte written and the
spare line is an input. -/
def Obligations.LinesAfterInitAreSevenOutputsAndOneInput : Prop :=
  ∀ (operand : Byte) (p : InitParams) (s : State), s.cfg.WellFormed = true → s.takesInit → p.lines ≠ 0 → p.cols ≠ 0 →
    s.AnswersOk (transactions (initTrace s.cfg p)) →
    ∃ t, exec (.init operand p) s = .next t ∧ t.dir = dirValue s.cfg ∧
      t.lat = compose s.cfg (baseBacklight p.blDefault p.baseOps) false (loNibble (finalCmd s.cfg p.lines)) ∧
      ∀ i, i < 8 → t.line i = if (maskSpare s.cfg).getLsbD i then .input else .driven (t.lat.getLsbD i)

/-! ### Invariants and whole-machine rules -/

/-- R14, R25, R28, R98: from every settled state a step that answers a next state gives a settled one. -/
def Obligations.EveryStepKeepsTheSettledState : Prop :=
  ∀ s t : State, s.Settled → step s = .next t → t.Settled

/-- R27, R130: the state after reset is settled. -/
def Obligations.ResetIsSettled : Prop := State.reset.Settled

/-- From EVERY state whose expander registers are listed in canonical form, a step gives one whose registers are. -/
def Obligations.EveryStepKeepsTheRegisterListCanonical : Prop :=
  ∀ s t : State, s.regs.wf → step s = .next t → t.regs.wf

/-- R48: no bus write, no operation, no fault and no reset alters the configuration. -/
def Obligations.NoStepAltersTheConfiguration : Prop := ∀ s t : State, step s = .next t → t.cfg = s.cfg

/-- R60 (the spec's own inference from R55), R20: the spare bit of every GPIO byte that any step emits is 0, no emitted byte
has a bit outside the four fields, and the direction value has exactly the spare bit set. -/
def Obligations.NoEmittedByteHasABitOutsideTheFields : Prop :=
  ∀ s t : State, s.cfg.WellFormed = true → step s = .next t → ∃ es, t.trace = s.trace ++ es ∧
    (∀ a v, (.bus (.reg a s.cfg.regGpio v) ∈ es ∨ ∃ o k, .fail (.reg a s.cfg.regGpio v) o k ∈ es) →
      v &&& maskSpare s.cfg = 0 ∧ v &&& ~~~ maskSignals s.cfg = 0) ∧
    dirValue s.cfg = maskSpare s.cfg ∧ oneBit (maskSpare s.cfg) = true

/-- R21: no step emits a register write to the pull-up register, ever. -/
def Obligations.NoStepWritesThePullUpRegister : Prop :=
  ∀ s t : State, s.cfg.WellFormed = true → step s = .next t → ∃ es, t.trace = s.trace ++ es ∧
    ∀ a v, .bus (.reg a s.cfg.regGppu v) ∉ es ∧ ∀ o k, .fail (.reg a s.cfg.regGppu v) o k ∉ es

/-- R31, R32, R33, R38: every transaction that any step issues, the failed one included, goes to the device at ADDR and is
the seed, the direction write or a GPIO write. -/
def Obligations.EveryTransactionGoesToAddrAndIsOneOfThree : Prop :=
  ∀ s t : State, s.cfg.WellFormed = true → step s = .next t → ∃ es, t.trace = s.trace ++ es ∧
    ∀ e ∈ es, e.allowed s.cfg t.addr

/-- R11, R98: in every settled state in which a transport request is taken BL has been written, so that the flag an
operation reads is the stored one and never the free value (log 6). -/
def Obligations.TransportIsNeverTakenWithAnUnwrittenFlag : Prop :=
  ∀ s : State, s.Settled → s.takesTransport → ∃ b, s.bl = some b ∧ s.backlight = b

/-- Every instruction answers a next state in every state: no instruction is refused and none faults (R113, R15). Where the
port is not ready for it, that next state is the state as it was: the model's choice (log 16). -/
def Obligations.EveryInstructionAnswersANextState : Prop := ∀ (i : Instr) (s : State), ∃ t, exec i s = .next t
end

