-- ==== Sys2Proof/Laws/State.lean ====
section
/-! SUPPORT. One lemma per field per named update of State: what the update writes there, or that it leaves the field
alone. No later proof unfolds a record update. -/

namespace Sys2Proof.Machine

/-! ### setBacklight -/

@[simp] theorem State.setBacklight_cfg (s : State) (v : Bool) : (s.setBacklight v).cfg = s.cfg := rfl
@[simp] theorem State.setBacklight_bl (s : State) (v : Bool) : (s.setBacklight v).bl = some v := rfl
@[simp] theorem State.setBacklight_opr (s : State) (v : Bool) : (s.setBacklight v).opr = s.opr := rfl
@[simp] theorem State.setBacklight_rsl (s : State) (v : Bool) : (s.setBacklight v).rsl = s.rsl := rfl
@[simp] theorem State.setBacklight_addr (s : State) (v : Bool) : (s.setBacklight v).addr = s.addr := rfl
@[simp] theorem State.setBacklight_lines (s : State) (v : Bool) : (s.setBacklight v).lines = s.lines := rfl
@[simp] theorem State.setBacklight_cols (s : State) (v : Bool) : (s.setBacklight v).cols = s.cols := rfl
@[simp] theorem State.setBacklight_phase (s : State) (v : Bool) : (s.setBacklight v).phase = s.phase := rfl
@[simp] theorem State.setBacklight_op (s : State) (v : Bool) : (s.setBacklight v).op = s.op := rfl
@[simp] theorem State.setBacklight_step (s : State) (v : Bool) : (s.setBacklight v).step = s.step := rfl
@[simp] theorem State.setBacklight_fault (s : State) (v : Bool) : (s.setBacklight v).fault = s.fault := rfl
@[simp] theorem State.setBacklight_err (s : State) (v : Bool) : (s.setBacklight v).err = s.err := rfl
@[simp] theorem State.setBacklight_blDefault (s : State) (v : Bool) :
    (s.setBacklight v).blDefault = s.blDefault := rfl
@[simp] theorem State.setBacklight_baseOps (s : State) (v : Bool) : (s.setBacklight v).baseOps = s.baseOps := rfl
@[simp] theorem State.setBacklight_regs (s : State) (v : Bool) : (s.setBacklight v).regs = s.regs := rfl
@[simp] theorem State.setBacklight_epoch (s : State) (v : Bool) : (s.setBacklight v).epoch = s.epoch := rfl
@[simp] theorem State.setBacklight_iface (s : State) (v : Bool) : (s.setBacklight v).iface = s.iface := rfl
@[simp] theorem State.setBacklight_latched (s : State) (v : Bool) : (s.setBacklight v).latched = s.latched := rfl
@[simp] theorem State.setBacklight_inputs (s : State) (v : Bool) : (s.setBacklight v).inputs = s.inputs := rfl
@[simp] theorem State.setBacklight_answers (s : State) (v : Bool) : (s.setBacklight v).answers = s.answers := rfl
@[simp] theorem State.setBacklight_sent (s : State) (v : Bool) : (s.setBacklight v).sent = s.sent := rfl
@[simp] theorem State.setBacklight_draws (s : State) (v : Bool) : (s.setBacklight v).draws = s.draws := rfl
@[simp] theorem State.setBacklight_trace (s : State) (v : Bool) : (s.setBacklight v).trace = s.trace := rfl

/-! ### report -/

@[simp] theorem State.report_cfg (s : State) (r : Report) : (s.report r).cfg = s.cfg := rfl
@[simp] theorem State.report_bl (s : State) (r : Report) : (s.report r).bl = s.bl := rfl
@[simp] theorem State.report_opr (s : State) (r : Report) : (s.report r).opr = s.opr := rfl
@[simp] theorem State.report_rsl (s : State) (r : Report) : (s.report r).rsl = s.rsl := rfl
@[simp] theorem State.report_addr (s : State) (r : Report) : (s.report r).addr = s.addr := rfl
@[simp] theorem State.report_lines (s : State) (r : Report) : (s.report r).lines = s.lines := rfl
@[simp] theorem State.report_cols (s : State) (r : Report) : (s.report r).cols = s.cols := rfl
@[simp] theorem State.report_phase (s : State) (r : Report) : (s.report r).phase = s.phase := rfl
@[simp] theorem State.report_op (s : State) (r : Report) : (s.report r).op = s.op := rfl
@[simp] theorem State.report_step (s : State) (r : Report) : (s.report r).step = s.step := rfl
@[simp] theorem State.report_fault (s : State) (r : Report) : (s.report r).fault = s.fault := rfl
@[simp] theorem State.report_err (s : State) (r : Report) : (s.report r).err = r := rfl
@[simp] theorem State.report_blDefault (s : State) (r : Report) : (s.report r).blDefault = s.blDefault := rfl
@[simp] theorem State.report_baseOps (s : State) (r : Report) : (s.report r).baseOps = s.baseOps := rfl
@[simp] theorem State.report_regs (s : State) (r : Report) : (s.report r).regs = s.regs := rfl
@[simp] theorem State.report_epoch (s : State) (r : Report) : (s.report r).epoch = s.epoch := rfl
@[simp] theorem State.report_iface (s : State) (r : Report) : (s.report r).iface = s.iface := rfl
@[simp] theorem State.report_latched (s : State) (r : Report) : (s.report r).latched = s.latched := rfl
@[simp] theorem State.report_inputs (s : State) (r : Report) : (s.report r).inputs = s.inputs := rfl
@[simp] theorem State.report_answers (s : State) (r : Report) : (s.report r).answers = s.answers := rfl
@[simp] theorem State.report_sent (s : State) (r : Report) : (s.report r).sent = s.sent := rfl
@[simp] theorem State.report_draws (s : State) (r : Report) : (s.report r).draws = s.draws := rfl
@[simp] theorem State.report_trace (s : State) (r : Report) : (s.report r).trace = s.trace := rfl

/-! ### takeParamFault -/

@[simp] theorem State.takeParamFault_cfg (s : State) : (s.takeParamFault).cfg = s.cfg := rfl
@[simp] theorem State.takeParamFault_bl (s : State) : (s.takeParamFault).bl = s.bl := rfl
@[simp] theorem State.takeParamFault_opr (s : State) : (s.takeParamFault).opr = s.opr := rfl
@[simp] theorem State.takeParamFault_rsl (s : State) : (s.takeParamFault).rsl = s.rsl := rfl
@[simp] theorem State.takeParamFault_addr (s : State) : (s.takeParamFault).addr = s.addr := rfl
@[simp] theorem State.takeParamFault_lines (s : State) : (s.takeParamFault).lines = s.lines := rfl
@[simp] theorem State.takeParamFault_cols (s : State) : (s.takeParamFault).cols = s.cols := rfl
@[simp] theorem State.takeParamFault_phase (s : State) : (s.takeParamFault).phase = s.phase := rfl
@[simp] theorem State.takeParamFault_op (s : State) : (s.takeParamFault).op = s.op := rfl
@[simp] theorem State.takeParamFault_step (s : State) : (s.takeParamFault).step = s.step := rfl
@[simp] theorem State.takeParamFault_fault (s : State) : (s.takeParamFault).fault = s.fault := rfl
@[simp] theorem State.takeParamFault_err (s : State) : (s.takeParamFault).err = .paramFault := rfl
@[simp] theorem State.takeParamFault_blDefault (s : State) : (s.takeParamFault).blDefault = s.blDefault := rfl
@[simp] theorem State.takeParamFault_baseOps (s : State) : (s.takeParamFault).baseOps = s.baseOps := rfl
@[simp] theorem State.takeParamFault_regs (s : State) : (s.takeParamFault).regs = s.regs := rfl
@[simp] theorem State.takeParamFault_epoch (s : State) : (s.takeParamFault).epoch = s.epoch := rfl
@[simp] theorem State.takeParamFault_iface (s : State) : (s.takeParamFault).iface = s.iface := rfl
@[simp] theorem State.takeParamFault_latched (s : State) : (s.takeParamFault).latched = s.latched := rfl
@[simp] theorem State.takeParamFault_inputs (s : State) : (s.takeParamFault).inputs = s.inputs := rfl
@[simp] theorem State.takeParamFault_answers (s : State) : (s.takeParamFault).answers = s.answers := rfl
@[simp] theorem State.takeParamFault_sent (s : State) : (s.takeParamFault).sent = s.sent := rfl
@[simp] theorem State.takeParamFault_draws (s : State) : (s.takeParamFault).draws = s.draws := rfl
@[simp] theorem State.takeParamFault_trace (s : State) : (s.takeParamFault).trace = s.trace := rfl

/-! ### takeRefused -/

@[simp] theorem State.takeRefused_cfg (s : State) : (s.takeRefused).cfg = s.cfg := rfl
@[simp] theorem State.takeRefused_bl (s : State) : (s.takeRefused).bl = s.bl := rfl
@[simp] theorem State.takeRefused_opr (s : State) : (s.takeRefused).opr = s.opr := rfl
@[simp] theorem State.takeRefused_rsl (s : State) : (s.takeRefused).rsl = s.rsl := rfl
@[simp] theorem State.takeRefused_addr (s : State) : (s.takeRefused).addr = s.addr := rfl
@[simp] theorem State.takeRefused_lines (s : State) : (s.takeRefused).lines = s.lines := rfl
@[simp] theorem State.takeRefused_cols (s : State) : (s.takeRefused).cols = s.cols := rfl
@[simp] theorem State.takeRefused_phase (s : State) : (s.takeRefused).phase = s.phase := rfl
@[simp] theorem State.takeRefused_op (s : State) : (s.takeRefused).op = s.op := rfl
@[simp] theorem State.takeRefused_step (s : State) : (s.takeRefused).step = s.step := rfl
@[simp] theorem State.takeRefused_fault (s : State) : (s.takeRefused).fault = s.fault := rfl
@[simp] theorem State.takeRefused_err (s : State) : (s.takeRefused).err = .refused := rfl
@[simp] theorem State.takeRefused_blDefault (s : State) : (s.takeRefused).blDefault = s.blDefault := rfl
@[simp] theorem State.takeRefused_baseOps (s : State) : (s.takeRefused).baseOps = s.baseOps := rfl
@[simp] theorem State.takeRefused_regs (s : State) : (s.takeRefused).regs = s.regs := rfl
@[simp] theorem State.takeRefused_epoch (s : State) : (s.takeRefused).epoch = s.epoch := rfl
@[simp] theorem State.takeRefused_iface (s : State) : (s.takeRefused).iface = s.iface := rfl
@[simp] theorem State.takeRefused_latched (s : State) : (s.takeRefused).latched = s.latched := rfl
@[simp] theorem State.takeRefused_inputs (s : State) : (s.takeRefused).inputs = s.inputs := rfl
@[simp] theorem State.takeRefused_answers (s : State) : (s.takeRefused).answers = s.answers := rfl
@[simp] theorem State.takeRefused_sent (s : State) : (s.takeRefused).sent = s.sent := rfl
@[simp] theorem State.takeRefused_draws (s : State) : (s.takeRefused).draws = s.draws := rfl
@[simp] theorem State.takeRefused_trace (s : State) : (s.takeRefused).trace = s.trace := rfl

/-! ### forgetRegisters -/

@[simp] theorem State.forgetRegisters_cfg (s : State) : (s.forgetRegisters).cfg = s.cfg := rfl
@[simp] theorem State.forgetRegisters_bl (s : State) : (s.forgetRegisters).bl = s.bl := rfl
@[simp] theorem State.forgetRegisters_opr (s : State) : (s.forgetRegisters).opr = s.opr := rfl
@[simp] theorem State.forgetRegisters_rsl (s : State) : (s.forgetRegisters).rsl = s.rsl := rfl
@[simp] theorem State.forgetRegisters_addr (s : State) : (s.forgetRegisters).addr = s.addr := rfl
@[simp] theorem State.forgetRegisters_lines (s : State) : (s.forgetRegisters).lines = s.lines := rfl
@[simp] theorem State.forgetRegisters_cols (s : State) : (s.forgetRegisters).cols = s.cols := rfl
@[simp] theorem State.forgetRegisters_phase (s : State) : (s.forgetRegisters).phase = s.phase := rfl
@[simp] theorem State.forgetRegisters_op (s : State) : (s.forgetRegisters).op = s.op := rfl
@[simp] theorem State.forgetRegisters_step (s : State) : (s.forgetRegisters).step = s.step := rfl
@[simp] theorem State.forgetRegisters_fault (s : State) : (s.forgetRegisters).fault = s.fault := rfl
@[simp] theorem State.forgetRegisters_err (s : State) : (s.forgetRegisters).err = s.err := rfl
@[simp] theorem State.forgetRegisters_blDefault (s : State) : (s.forgetRegisters).blDefault = s.blDefault := rfl
@[simp] theorem State.forgetRegisters_baseOps (s : State) : (s.forgetRegisters).baseOps = s.baseOps := rfl
@[simp] theorem State.forgetRegisters_regs (s : State) : (s.forgetRegisters).regs = [] := rfl
@[simp] theorem State.forgetRegisters_epoch (s : State) : (s.forgetRegisters).epoch = s.draws + 1 := rfl
@[simp] theorem State.forgetRegisters_iface (s : State) : (s.forgetRegisters).iface = s.iface := rfl
@[simp] theorem State.forgetRegisters_latched (s : State) : (s.forgetRegisters).latched = s.latched := rfl
@[simp] theorem State.forgetRegisters_inputs (s : State) : (s.forgetRegisters).inputs = s.inputs := rfl
@[simp] theorem State.forgetRegisters_answers (s : State) : (s.forgetRegisters).answers = s.answers := rfl
@[simp] theorem State.forgetRegisters_sent (s : State) : (s.forgetRegisters).sent = s.sent := rfl
@[simp] theorem State.forgetRegisters_draws (s : State) : (s.forgetRegisters).draws = s.draws + 1 := rfl
@[simp] theorem State.forgetRegisters_trace (s : State) : (s.forgetRegisters).trace = s.trace := rfl

/-! ### storeRegister -/

@[simp] theorem State.storeRegister_cfg (s : State) (r v : Byte) : (s.storeRegister r v).cfg = s.cfg := rfl
@[simp] theorem State.storeRegister_bl (s : State) (r v : Byte) : (s.storeRegister r v).bl = s.bl := rfl
@[simp] theorem State.storeRegister_opr (s : State) (r v : Byte) : (s.storeRegister r v).opr = s.opr := rfl
@[simp] theorem State.storeRegister_rsl (s : State) (r v : Byte) : (s.storeRegister r v).rsl = s.rsl := rfl
@[simp] theorem State.storeRegister_addr (s : State) (r v : Byte) : (s.storeRegister r v).addr = s.addr := rfl
@[simp] theorem State.storeRegister_lines (s : State) (r v : Byte) : (s.storeRegister r v).lines = s.lines := rfl
@[simp] theorem State.storeRegister_cols (s : State) (r v : Byte) : (s.storeRegister r v).cols = s.cols := rfl
@[simp] theorem State.storeRegister_phase (s : State) (r v : Byte) : (s.storeRegister r v).phase = s.phase := rfl
@[simp] theorem State.storeRegister_op (s : State) (r v : Byte) : (s.storeRegister r v).op = s.op := rfl
@[simp] theorem State.storeRegister_step (s : State) (r v : Byte) : (s.storeRegister r v).step = s.step := rfl
@[simp] theorem State.storeRegister_fault (s : State) (r v : Byte) : (s.storeRegister r v).fault = s.fault := rfl
@[simp] theorem State.storeRegister_err (s : State) (r v : Byte) : (s.storeRegister r v).err = s.err := rfl
@[simp] theorem State.storeRegister_blDefault (s : State) (r v : Byte) :
    (s.storeRegister r v).blDefault = s.blDefault := rfl
@[simp] theorem State.storeRegister_baseOps (s : State) (r v : Byte) :
    (s.storeRegister r v).baseOps = s.baseOps := rfl
@[simp] theorem State.storeRegister_regs (s : State) (r v : Byte) :
    (s.storeRegister r v).regs = s.regs.write r.toNat v := rfl
@[simp] theorem State.storeRegister_epoch (s : State) (r v : Byte) : (s.storeRegister r v).epoch = s.epoch := rfl
@[simp] theorem State.storeRegister_iface (s : State) (r v : Byte) :
    (s.storeRegister r v).iface = s.iface.afterNibbles (if r = s.cfg.regGpio then latches s.cfg s.lat v else []) := rfl
@[simp] theorem State.storeRegister_latched (s : State) (r v : Byte) :
    (s.storeRegister r v).latched = s.latched ++ (if r = s.cfg.regGpio then latches s.cfg s.lat v else []) := rfl
@[simp] theorem State.storeRegister_inputs (s : State) (r v : Byte) : (s.storeRegister r v).inputs = s.inputs := rfl
@[simp] theorem State.storeRegister_answers (s : State) (r v : Byte) :
    (s.storeRegister r v).answers = s.answers := rfl
@[simp] theorem State.storeRegister_sent (s : State) (r v : Byte) : (s.storeRegister r v).sent = s.sent := rfl
@[simp] theorem State.storeRegister_draws (s : State) (r v : Byte) : (s.storeRegister r v).draws = s.draws := rfl
@[simp] theorem State.storeRegister_trace (s : State) (r v : Byte) : (s.storeRegister r v).trace = s.trace := rfl

/-! ### popAnswer -/

@[simp] theorem State.popAnswer_cfg (s : State) : (s.popAnswer).cfg = s.cfg := rfl
@[simp] theorem State.popAnswer_bl (s : State) : (s.popAnswer).bl = s.bl := rfl
@[simp] theorem State.popAnswer_opr (s : State) : (s.popAnswer).opr = s.opr := rfl
@[simp] theorem State.popAnswer_rsl (s : State) : (s.popAnswer).rsl = s.rsl := rfl
@[simp] theorem State.popAnswer_addr (s : State) : (s.popAnswer).addr = s.addr := rfl
@[simp] theorem State.popAnswer_lines (s : State) : (s.popAnswer).lines = s.lines := rfl
@[simp] theorem State.popAnswer_cols (s : State) : (s.popAnswer).cols = s.cols := rfl
@[simp] theorem State.popAnswer_phase (s : State) : (s.popAnswer).phase = s.phase := rfl
@[simp] theorem State.popAnswer_op (s : State) : (s.popAnswer).op = s.op := rfl
@[simp] theorem State.popAnswer_step (s : State) : (s.popAnswer).step = s.step := rfl
@[simp] theorem State.popAnswer_fault (s : State) : (s.popAnswer).fault = s.fault := rfl
@[simp] theorem State.popAnswer_err (s : State) : (s.popAnswer).err = s.err := rfl
@[simp] theorem State.popAnswer_blDefault (s : State) : (s.popAnswer).blDefault = s.blDefault := rfl
@[simp] theorem State.popAnswer_baseOps (s : State) : (s.popAnswer).baseOps = s.baseOps := rfl
@[simp] theorem State.popAnswer_regs (s : State) : (s.popAnswer).regs = s.regs := rfl
@[simp] theorem State.popAnswer_epoch (s : State) : (s.popAnswer).epoch = s.epoch := rfl
@[simp] theorem State.popAnswer_iface (s : State) : (s.popAnswer).iface = s.iface := rfl
@[simp] theorem State.popAnswer_latched (s : State) : (s.popAnswer).latched = s.latched := rfl
@[simp] theorem State.popAnswer_inputs (s : State) : (s.popAnswer).inputs = s.inputs := rfl
@[simp] theorem State.popAnswer_answers (s : State) : (s.popAnswer).answers = s.answers.tail := rfl
@[simp] theorem State.popAnswer_sent (s : State) : (s.popAnswer).sent = s.sent + 1 := rfl
@[simp] theorem State.popAnswer_draws (s : State) : (s.popAnswer).draws = s.draws := rfl
@[simp] theorem State.popAnswer_trace (s : State) : (s.popAnswer).trace = s.trace := rfl

/-! ### record -/

@[simp] theorem State.record_cfg (s : State) (e : Event) : (s.record e).cfg = s.cfg := rfl
@[simp] theorem State.record_bl (s : State) (e : Event) : (s.record e).bl = s.bl := rfl
@[simp] theorem State.record_opr (s : State) (e : Event) : (s.record e).opr = s.opr := rfl
@[simp] theorem State.record_rsl (s : State) (e : Event) : (s.record e).rsl = s.rsl := rfl
@[simp] theorem State.record_addr (s : State) (e : Event) : (s.record e).addr = s.addr := rfl
@[simp] theorem State.record_lines (s : State) (e : Event) : (s.record e).lines = s.lines := rfl
@[simp] theorem State.record_cols (s : State) (e : Event) : (s.record e).cols = s.cols := rfl
@[simp] theorem State.record_phase (s : State) (e : Event) : (s.record e).phase = s.phase := rfl
@[simp] theorem State.record_op (s : State) (e : Event) : (s.record e).op = s.op := rfl
@[simp] theorem State.record_step (s : State) (e : Event) : (s.record e).step = s.step + 1 := rfl
@[simp] theorem State.record_fault (s : State) (e : Event) : (s.record e).fault = s.fault := rfl
@[simp] theorem State.record_err (s : State) (e : Event) : (s.record e).err = s.err := rfl
@[simp] theorem State.record_blDefault (s : State) (e : Event) : (s.record e).blDefault = s.blDefault := rfl
@[simp] theorem State.record_baseOps (s : State) (e : Event) : (s.record e).baseOps = s.baseOps := rfl
@[simp] theorem State.record_regs (s : State) (e : Event) : (s.record e).regs = s.regs := rfl
@[simp] theorem State.record_epoch (s : State) (e : Event) : (s.record e).epoch = s.epoch := rfl
@[simp] theorem State.record_iface (s : State) (e : Event) : (s.record e).iface = s.iface := rfl
@[simp] theorem State.record_latched (s : State) (e : Event) : (s.record e).latched = s.latched := rfl
@[simp] theorem State.record_inputs (s : State) (e : Event) : (s.record e).inputs = s.inputs := rfl
@[simp] theorem State.record_answers (s : State) (e : Event) : (s.record e).answers = s.answers := rfl
@[simp] theorem State.record_sent (s : State) (e : Event) : (s.record e).sent = s.sent := rfl
@[simp] theorem State.record_draws (s : State) (e : Event) : (s.record e).draws = s.draws := rfl
@[simp] theorem State.record_trace (s : State) (e : Event) : (s.record e).trace = s.trace ++ [e] := rfl

/-! ### loadOpr -/

@[simp] theorem State.loadOpr_cfg (s : State) (v : Byte) : (s.loadOpr v).cfg = s.cfg := rfl
@[simp] theorem State.loadOpr_bl (s : State) (v : Byte) : (s.loadOpr v).bl = s.bl := rfl
@[simp] theorem State.loadOpr_opr (s : State) (v : Byte) : (s.loadOpr v).opr = v := rfl
@[simp] theorem State.loadOpr_rsl (s : State) (v : Byte) : (s.loadOpr v).rsl = s.rsl := rfl
@[simp] theorem State.loadOpr_addr (s : State) (v : Byte) : (s.loadOpr v).addr = s.addr := rfl
@[simp] theorem State.loadOpr_lines (s : State) (v : Byte) : (s.loadOpr v).lines = s.lines := rfl
@[simp] theorem State.loadOpr_cols (s : State) (v : Byte) : (s.loadOpr v).cols = s.cols := rfl
@[simp] theorem State.loadOpr_phase (s : State) (v : Byte) : (s.loadOpr v).phase = s.phase := rfl
@[simp] theorem State.loadOpr_op (s : State) (v : Byte) : (s.loadOpr v).op = s.op := rfl
@[simp] theorem State.loadOpr_step (s : State) (v : Byte) : (s.loadOpr v).step = s.step := rfl
@[simp] theorem State.loadOpr_fault (s : State) (v : Byte) : (s.loadOpr v).fault = s.fault := rfl
@[simp] theorem State.loadOpr_err (s : State) (v : Byte) : (s.loadOpr v).err = s.err := rfl
@[simp] theorem State.loadOpr_blDefault (s : State) (v : Byte) : (s.loadOpr v).blDefault = s.blDefault := rfl
@[simp] theorem State.loadOpr_baseOps (s : State) (v : Byte) : (s.loadOpr v).baseOps = s.baseOps := rfl
@[simp] theorem State.loadOpr_regs (s : State) (v : Byte) : (s.loadOpr v).regs = s.regs := rfl
@[simp] theorem State.loadOpr_epoch (s : State) (v : Byte) : (s.loadOpr v).epoch = s.epoch := rfl
@[simp] theorem State.loadOpr_iface (s : State) (v : Byte) : (s.loadOpr v).iface = s.iface := rfl
@[simp] theorem State.loadOpr_latched (s : State) (v : Byte) : (s.loadOpr v).latched = s.latched := rfl
@[simp] theorem State.loadOpr_inputs (s : State) (v : Byte) : (s.loadOpr v).inputs = s.inputs := rfl
@[simp] theorem State.loadOpr_answers (s : State) (v : Byte) : (s.loadOpr v).answers = s.answers := rfl
@[simp] theorem State.loadOpr_sent (s : State) (v : Byte) : (s.loadOpr v).sent = s.sent := rfl
@[simp] theorem State.loadOpr_draws (s : State) (v : Byte) : (s.loadOpr v).draws = s.draws := rfl
@[simp] theorem State.loadOpr_trace (s : State) (v : Byte) : (s.loadOpr v).trace = s.trace := rfl

/-! ### loadLatches -/

@[simp] theorem State.loadLatches_cfg (s : State) (v : Byte) (rs : Bool) : (s.loadLatches v rs).cfg = s.cfg := rfl
@[simp] theorem State.loadLatches_bl (s : State) (v : Byte) (rs : Bool) : (s.loadLatches v rs).bl = s.bl := rfl
@[simp] theorem State.loadLatches_opr (s : State) (v : Byte) (rs : Bool) : (s.loadLatches v rs).opr = v := rfl
@[simp] theorem State.loadLatches_rsl (s : State) (v : Byte) (rs : Bool) : (s.loadLatches v rs).rsl = rs := rfl
@[simp] theorem State.loadLatches_addr (s : State) (v : Byte) (rs : Bool) : (s.loadLatches v rs).addr = s.addr := rfl
@[simp] theorem State.loadLatches_lines (s : State) (v : Byte) (rs : Bool) :
    (s.loadLatches v rs).lines = s.lines := rfl
@[simp] theorem State.loadLatches_cols (s : State) (v : Byte) (rs : Bool) : (s.loadLatches v rs).cols = s.cols := rfl
@[simp] theorem State.loadLatches_phase (s : State) (v : Byte) (rs : Bool) :
    (s.loadLatches v rs).phase = s.phase := rfl
@[simp] theorem State.loadLatches_op (s : State) (v : Byte) (rs : Bool) : (s.loadLatches v rs).op = s.op := rfl
@[simp] theorem State.loadLatches_step (s : State) (v : Byte) (rs : Bool) : (s.loadLatches v rs).step = s.step := rfl
@[simp] theorem State.loadLatches_fault (s : State) (v : Byte) (rs : Bool) :
    (s.loadLatches v rs).fault = s.fault := rfl
@[simp] theorem State.loadLatches_err (s : State) (v : Byte) (rs : Bool) : (s.loadLatches v rs).err = s.err := rfl
@[simp] theorem State.loadLatches_blDefault (s : State) (v : Byte) (rs : Bool) :
    (s.loadLatches v rs).blDefault = s.blDefault := rfl
@[simp] theorem State.loadLatches_baseOps (s : State) (v : Byte) (rs : Bool) :
    (s.loadLatches v rs).baseOps = s.baseOps := rfl
@[simp] theorem State.loadLatches_regs (s : State) (v : Byte) (rs : Bool) : (s.loadLatches v rs).regs = s.regs := rfl
@[simp] theorem State.loadLatches_epoch (s : State) (v : Byte) (rs : Bool) :
    (s.loadLatches v rs).epoch = s.epoch := rfl
@[simp] theorem State.loadLatches_iface (s : State) (v : Byte) (rs : Bool) :
    (s.loadLatches v rs).iface = s.iface := rfl
@[simp] theorem State.loadLatches_latched (s : State) (v : Byte) (rs : Bool) :
    (s.loadLatches v rs).latched = s.latched := rfl
@[simp] theorem State.loadLatches_inputs (s : State) (v : Byte) (rs : Bool) :
    (s.loadLatches v rs).inputs = s.inputs := rfl
@[simp] theorem State.loadLatches_answers (s : State) (v : Byte) (rs : Bool) :
    (s.loadLatches v rs).answers = s.answers := rfl
@[simp] theorem State.loadLatches_sent (s : State) (v : Byte) (rs : Bool) : (s.loadLatches v rs).sent = s.sent := rfl
@[simp] theorem State.loadLatches_draws (s : State) (v : Byte) (rs : Bool) :
    (s.loadLatches v rs).draws = s.draws := rfl
@[simp] theorem State.loadLatches_trace (s : State) (v : Byte) (rs : Bool) :
    (s.loadLatches v rs).trace = s.trace := rfl

/-! ### withBase -/

@[simp] theorem State.withBase_cfg (s : State) (ts : List TransportOp) : (s.withBase ts).cfg = s.cfg := rfl
@[simp] theorem State.withBase_bl (s : State) (ts : List TransportOp) : (s.withBase ts).bl = s.bl := rfl
@[simp] theorem State.withBase_opr (s : State) (ts : List TransportOp) : (s.withBase ts).opr = s.opr := rfl
@[simp] theorem State.withBase_rsl (s : State) (ts : List TransportOp) : (s.withBase ts).rsl = s.rsl := rfl
@[simp] theorem State.withBase_addr (s : State) (ts : List TransportOp) : (s.withBase ts).addr = s.addr := rfl
@[simp] theorem State.withBase_lines (s : State) (ts : List TransportOp) : (s.withBase ts).lines = s.lines := rfl
@[simp] theorem State.withBase_cols (s : State) (ts : List TransportOp) : (s.withBase ts).cols = s.cols := rfl
@[simp] theorem State.withBase_phase (s : State) (ts : List TransportOp) : (s.withBase ts).phase = s.phase := rfl
@[simp] theorem State.withBase_op (s : State) (ts : List TransportOp) : (s.withBase ts).op = s.op := rfl
@[simp] theorem State.withBase_step (s : State) (ts : List TransportOp) : (s.withBase ts).step = s.step := rfl
@[simp] theorem State.withBase_fault (s : State) (ts : List TransportOp) : (s.withBase ts).fault = s.fault := rfl
@[simp] theorem State.withBase_err (s : State) (ts : List TransportOp) : (s.withBase ts).err = s.err := rfl
@[simp] theorem State.withBase_blDefault (s : State) (ts : List TransportOp) :
    (s.withBase ts).blDefault = s.blDefault := rfl
@[simp] theorem State.withBase_baseOps (s : State) (ts : List TransportOp) : (s.withBase ts).baseOps = ts := rfl
@[simp] theorem State.withBase_regs (s : State) (ts : List TransportOp) : (s.withBase ts).regs = s.regs := rfl
@[simp] theorem State.withBase_epoch (s : State) (ts : List TransportOp) : (s.withBase ts).epoch = s.epoch := rfl
@[simp] theorem State.withBase_iface (s : State) (ts : List TransportOp) : (s.withBase ts).iface = s.iface := rfl
@[simp] theorem State.withBase_latched (s : State) (ts : List TransportOp) :
    (s.withBase ts).latched = s.latched := rfl
@[simp] theorem State.withBase_inputs (s : State) (ts : List TransportOp) : (s.withBase ts).inputs = s.inputs := rfl
@[simp] theorem State.withBase_answers (s : State) (ts : List TransportOp) :
    (s.withBase ts).answers = s.answers := rfl
@[simp] theorem State.withBase_sent (s : State) (ts : List TransportOp) : (s.withBase ts).sent = s.sent := rfl
@[simp] theorem State.withBase_draws (s : State) (ts : List TransportOp) : (s.withBase ts).draws = s.draws := rfl
@[simp] theorem State.withBase_trace (s : State) (ts : List TransportOp) : (s.withBase ts).trace = s.trace := rfl

/-! ### withInputs -/

@[simp] theorem State.withInputs_cfg (s : State) (ins : List HostInput) : (s.withInputs ins).cfg = s.cfg := rfl
@[simp] theorem State.withInputs_bl (s : State) (ins : List HostInput) : (s.withInputs ins).bl = s.bl := rfl
@[simp] theorem State.withInputs_opr (s : State) (ins : List HostInput) : (s.withInputs ins).opr = s.opr := rfl
@[simp] theorem State.withInputs_rsl (s : State) (ins : List HostInput) : (s.withInputs ins).rsl = s.rsl := rfl
@[simp] theorem State.withInputs_addr (s : State) (ins : List HostInput) : (s.withInputs ins).addr = s.addr := rfl
@[simp] theorem State.withInputs_lines (s : State) (ins : List HostInput) : (s.withInputs ins).lines = s.lines := rfl
@[simp] theorem State.withInputs_cols (s : State) (ins : List HostInput) : (s.withInputs ins).cols = s.cols := rfl
@[simp] theorem State.withInputs_phase (s : State) (ins : List HostInput) : (s.withInputs ins).phase = s.phase := rfl
@[simp] theorem State.withInputs_op (s : State) (ins : List HostInput) : (s.withInputs ins).op = s.op := rfl
@[simp] theorem State.withInputs_step (s : State) (ins : List HostInput) : (s.withInputs ins).step = s.step := rfl
@[simp] theorem State.withInputs_fault (s : State) (ins : List HostInput) : (s.withInputs ins).fault = s.fault := rfl
@[simp] theorem State.withInputs_err (s : State) (ins : List HostInput) : (s.withInputs ins).err = s.err := rfl
@[simp] theorem State.withInputs_blDefault (s : State) (ins : List HostInput) :
    (s.withInputs ins).blDefault = s.blDefault := rfl
@[simp] theorem State.withInputs_baseOps (s : State) (ins : List HostInput) :
    (s.withInputs ins).baseOps = s.baseOps := rfl
@[simp] theorem State.withInputs_regs (s : State) (ins : List HostInput) : (s.withInputs ins).regs = s.regs := rfl
@[simp] theorem State.withInputs_epoch (s : State) (ins : List HostInput) : (s.withInputs ins).epoch = s.epoch := rfl
@[simp] theorem State.withInputs_iface (s : State) (ins : List HostInput) : (s.withInputs ins).iface = s.iface := rfl
@[simp] theorem State.withInputs_latched (s : State) (ins : List HostInput) :
    (s.withInputs ins).latched = s.latched := rfl
@[simp] theorem State.withInputs_inputs (s : State) (ins : List HostInput) : (s.withInputs ins).inputs = ins := rfl
@[simp] theorem State.withInputs_answers (s : State) (ins : List HostInput) :
    (s.withInputs ins).answers = s.answers := rfl
@[simp] theorem State.withInputs_sent (s : State) (ins : List HostInput) : (s.withInputs ins).sent = s.sent := rfl
@[simp] theorem State.withInputs_draws (s : State) (ins : List HostInput) : (s.withInputs ins).draws = s.draws := rfl
@[simp] theorem State.withInputs_trace (s : State) (ins : List HostInput) : (s.withInputs ins).trace = s.trace := rfl

/-! ### releaseLatches -/

@[simp] theorem State.releaseLatches_cfg (s : State) : (s.releaseLatches).cfg = s.cfg := rfl
@[simp] theorem State.releaseLatches_bl (s : State) : (s.releaseLatches).bl = s.bl := rfl
@[simp] theorem State.releaseLatches_opr (s : State) : (s.releaseLatches).opr = Config.deadOpr s.draws := rfl
@[simp] theorem State.releaseLatches_rsl (s : State) : (s.releaseLatches).rsl = Config.deadRsl s.draws := rfl
@[simp] theorem State.releaseLatches_addr (s : State) : (s.releaseLatches).addr = s.addr := rfl
@[simp] theorem State.releaseLatches_lines (s : State) : (s.releaseLatches).lines = s.lines := rfl
@[simp] theorem State.releaseLatches_cols (s : State) : (s.releaseLatches).cols = s.cols := rfl
@[simp] theorem State.releaseLatches_phase (s : State) : (s.releaseLatches).phase = s.phase := rfl
@[simp] theorem State.releaseLatches_op (s : State) : (s.releaseLatches).op = s.op := rfl
@[simp] theorem State.releaseLatches_step (s : State) : (s.releaseLatches).step = s.step := rfl
@[simp] theorem State.releaseLatches_fault (s : State) : (s.releaseLatches).fault = s.fault := rfl
@[simp] theorem State.releaseLatches_err (s : State) : (s.releaseLatches).err = s.err := rfl
@[simp] theorem State.releaseLatches_blDefault (s : State) : (s.releaseLatches).blDefault = s.blDefault := rfl
@[simp] theorem State.releaseLatches_baseOps (s : State) : (s.releaseLatches).baseOps = s.baseOps := rfl
@[simp] theorem State.releaseLatches_regs (s : State) : (s.releaseLatches).regs = s.regs := rfl
@[simp] theorem State.releaseLatches_epoch (s : State) : (s.releaseLatches).epoch = s.epoch := rfl
@[simp] theorem State.releaseLatches_iface (s : State) : (s.releaseLatches).iface = s.iface := rfl
@[simp] theorem State.releaseLatches_latched (s : State) : (s.releaseLatches).latched = s.latched := rfl
@[simp] theorem State.releaseLatches_inputs (s : State) : (s.releaseLatches).inputs = s.inputs := rfl
@[simp] theorem State.releaseLatches_answers (s : State) : (s.releaseLatches).answers = s.answers := rfl
@[simp] theorem State.releaseLatches_sent (s : State) : (s.releaseLatches).sent = s.sent := rfl
@[simp] theorem State.releaseLatches_draws (s : State) : (s.releaseLatches).draws = s.draws + 1 := rfl
@[simp] theorem State.releaseLatches_trace (s : State) : (s.releaseLatches).trace = s.trace := rfl

/-! ### releaseOpr -/

@[simp] theorem State.releaseOpr_cfg (s : State) : (s.releaseOpr).cfg = s.cfg := rfl
@[simp] theorem State.releaseOpr_bl (s : State) : (s.releaseOpr).bl = s.bl := rfl
@[simp] theorem State.releaseOpr_opr (s : State) : (s.releaseOpr).opr = Config.deadOpr s.draws := rfl
@[simp] theorem State.releaseOpr_rsl (s : State) : (s.releaseOpr).rsl = s.rsl := rfl
@[simp] theorem State.releaseOpr_addr (s : State) : (s.releaseOpr).addr = s.addr := rfl
@[simp] theorem State.releaseOpr_lines (s : State) : (s.releaseOpr).lines = s.lines := rfl
@[simp] theorem State.releaseOpr_cols (s : State) : (s.releaseOpr).cols = s.cols := rfl
@[simp] theorem State.releaseOpr_phase (s : State) : (s.releaseOpr).phase = s.phase := rfl
@[simp] theorem State.releaseOpr_op (s : State) : (s.releaseOpr).op = s.op := rfl
@[simp] theorem State.releaseOpr_step (s : State) : (s.releaseOpr).step = s.step := rfl
@[simp] theorem State.releaseOpr_fault (s : State) : (s.releaseOpr).fault = s.fault := rfl
@[simp] theorem State.releaseOpr_err (s : State) : (s.releaseOpr).err = s.err := rfl
@[simp] theorem State.releaseOpr_blDefault (s : State) : (s.releaseOpr).blDefault = s.blDefault := rfl
@[simp] theorem State.releaseOpr_baseOps (s : State) : (s.releaseOpr).baseOps = s.baseOps := rfl
@[simp] theorem State.releaseOpr_regs (s : State) : (s.releaseOpr).regs = s.regs := rfl
@[simp] theorem State.releaseOpr_epoch (s : State) : (s.releaseOpr).epoch = s.epoch := rfl
@[simp] theorem State.releaseOpr_iface (s : State) : (s.releaseOpr).iface = s.iface := rfl
@[simp] theorem State.releaseOpr_latched (s : State) : (s.releaseOpr).latched = s.latched := rfl
@[simp] theorem State.releaseOpr_inputs (s : State) : (s.releaseOpr).inputs = s.inputs := rfl
@[simp] theorem State.releaseOpr_answers (s : State) : (s.releaseOpr).answers = s.answers := rfl
@[simp] theorem State.releaseOpr_sent (s : State) : (s.releaseOpr).sent = s.sent := rfl
@[simp] theorem State.releaseOpr_draws (s : State) : (s.releaseOpr).draws = s.draws + 1 := rfl
@[simp] theorem State.releaseOpr_trace (s : State) : (s.releaseOpr).trace = s.trace := rfl

/-! ### beginTransport -/

@[simp] theorem State.beginTransport_cfg (s : State) (o : Op) : (s.beginTransport o).cfg = s.cfg := rfl
@[simp] theorem State.beginTransport_bl (s : State) (o : Op) : (s.beginTransport o).bl = s.bl := rfl
@[simp] theorem State.beginTransport_opr (s : State) (o : Op) : (s.beginTransport o).opr = s.opr := rfl
@[simp] theorem State.beginTransport_rsl (s : State) (o : Op) : (s.beginTransport o).rsl = s.rsl := rfl
@[simp] theorem State.beginTransport_addr (s : State) (o : Op) : (s.beginTransport o).addr = s.addr := rfl
@[simp] theorem State.beginTransport_lines (s : State) (o : Op) : (s.beginTransport o).lines = s.lines := rfl
@[simp] theorem State.beginTransport_cols (s : State) (o : Op) : (s.beginTransport o).cols = s.cols := rfl
@[simp] theorem State.beginTransport_phase (s : State) (o : Op) : (s.beginTransport o).phase = s.phase := rfl
@[simp] theorem State.beginTransport_op (s : State) (o : Op) : (s.beginTransport o).op = o := rfl
@[simp] theorem State.beginTransport_step (s : State) (o : Op) : (s.beginTransport o).step = 0 := rfl
@[simp] theorem State.beginTransport_fault (s : State) (o : Op) : (s.beginTransport o).fault = s.fault := rfl
@[simp] theorem State.beginTransport_err (s : State) (o : Op) : (s.beginTransport o).err = s.err := rfl
@[simp] theorem State.beginTransport_blDefault (s : State) (o : Op) :
    (s.beginTransport o).blDefault = s.blDefault := rfl
@[simp] theorem State.beginTransport_baseOps (s : State) (o : Op) : (s.beginTransport o).baseOps = s.baseOps := rfl
@[simp] theorem State.beginTransport_regs (s : State) (o : Op) : (s.beginTransport o).regs = s.regs := rfl
@[simp] theorem State.beginTransport_epoch (s : State) (o : Op) : (s.beginTransport o).epoch = s.epoch := rfl
@[simp] theorem State.beginTransport_iface (s : State) (o : Op) : (s.beginTransport o).iface = s.iface := rfl
@[simp] theorem State.beginTransport_latched (s : State) (o : Op) : (s.beginTransport o).latched = s.latched := rfl
@[simp] theorem State.beginTransport_inputs (s : State) (o : Op) : (s.beginTransport o).inputs = s.inputs := rfl
@[simp] theorem State.beginTransport_answers (s : State) (o : Op) : (s.beginTransport o).answers = s.answers := rfl
@[simp] theorem State.beginTransport_sent (s : State) (o : Op) : (s.beginTransport o).sent = s.sent := rfl
@[simp] theorem State.beginTransport_draws (s : State) (o : Op) : (s.beginTransport o).draws = s.draws := rfl
@[simp] theorem State.beginTransport_trace (s : State) (o : Op) : (s.beginTransport o).trace = s.trace := rfl

/-! ### acceptInit -/

@[simp] theorem State.acceptInit_cfg (s : State) (p : InitParams) : (s.acceptInit p).cfg = s.cfg := rfl
@[simp] theorem State.acceptInit_bl (s : State) (p : InitParams) : (s.acceptInit p).bl = none := rfl
@[simp] theorem State.acceptInit_opr (s : State) (p : InitParams) : (s.acceptInit p).opr = s.opr := rfl
@[simp] theorem State.acceptInit_rsl (s : State) (p : InitParams) : (s.acceptInit p).rsl = s.rsl := rfl
@[simp] theorem State.acceptInit_addr (s : State) (p : InitParams) : (s.acceptInit p).addr = p.addr := rfl
@[simp] theorem State.acceptInit_lines (s : State) (p : InitParams) : (s.acceptInit p).lines = p.lines := rfl
@[simp] theorem State.acceptInit_cols (s : State) (p : InitParams) : (s.acceptInit p).cols = p.cols := rfl
@[simp] theorem State.acceptInit_phase (s : State) (p : InitParams) : (s.acceptInit p).phase = .init := rfl
@[simp] theorem State.acceptInit_op (s : State) (p : InitParams) : (s.acceptInit p).op = .init := rfl
@[simp] theorem State.acceptInit_step (s : State) (p : InitParams) : (s.acceptInit p).step = 0 := rfl
@[simp] theorem State.acceptInit_fault (s : State) (p : InitParams) : (s.acceptInit p).fault = false := rfl
@[simp] theorem State.acceptInit_err (s : State) (p : InitParams) : (s.acceptInit p).err = s.err := rfl
@[simp] theorem State.acceptInit_blDefault (s : State) (p : InitParams) :
    (s.acceptInit p).blDefault = p.blDefault := rfl
@[simp] theorem State.acceptInit_baseOps (s : State) (p : InitParams) : (s.acceptInit p).baseOps = p.baseOps := rfl
@[simp] theorem State.acceptInit_regs (s : State) (p : InitParams) : (s.acceptInit p).regs = [] := rfl
@[simp] theorem State.acceptInit_epoch (s : State) (p : InitParams) : (s.acceptInit p).epoch = s.draws + 1 := rfl
@[simp] theorem State.acceptInit_iface (s : State) (p : InitParams) : (s.acceptInit p).iface = .unknown := rfl
@[simp] theorem State.acceptInit_latched (s : State) (p : InitParams) : (s.acceptInit p).latched = s.latched := rfl
@[simp] theorem State.acceptInit_inputs (s : State) (p : InitParams) : (s.acceptInit p).inputs = s.inputs := rfl
@[simp] theorem State.acceptInit_answers (s : State) (p : InitParams) : (s.acceptInit p).answers = s.answers := rfl
@[simp] theorem State.acceptInit_sent (s : State) (p : InitParams) : (s.acceptInit p).sent = s.sent := rfl
@[simp] theorem State.acceptInit_draws (s : State) (p : InitParams) : (s.acceptInit p).draws = s.draws + 1 := rfl
@[simp] theorem State.acceptInit_trace (s : State) (p : InitParams) : (s.acceptInit p).trace = s.trace := rfl

/-! ### enterHandoff -/

@[simp] theorem State.enterHandoff_cfg (s : State) : (s.enterHandoff).cfg = s.cfg := rfl
@[simp] theorem State.enterHandoff_bl (s : State) : (s.enterHandoff).bl = some s.blDefault := rfl
@[simp] theorem State.enterHandoff_opr (s : State) : (s.enterHandoff).opr = s.opr := rfl
@[simp] theorem State.enterHandoff_rsl (s : State) : (s.enterHandoff).rsl = s.rsl := rfl
@[simp] theorem State.enterHandoff_addr (s : State) : (s.enterHandoff).addr = s.addr := rfl
@[simp] theorem State.enterHandoff_lines (s : State) : (s.enterHandoff).lines = s.lines := rfl
@[simp] theorem State.enterHandoff_cols (s : State) : (s.enterHandoff).cols = s.cols := rfl
@[simp] theorem State.enterHandoff_phase (s : State) : (s.enterHandoff).phase = .handoff := rfl
@[simp] theorem State.enterHandoff_op (s : State) : (s.enterHandoff).op = s.op := rfl
@[simp] theorem State.enterHandoff_step (s : State) : (s.enterHandoff).step = s.step := rfl
@[simp] theorem State.enterHandoff_fault (s : State) : (s.enterHandoff).fault = s.fault := rfl
@[simp] theorem State.enterHandoff_err (s : State) : (s.enterHandoff).err = s.err := rfl
@[simp] theorem State.enterHandoff_blDefault (s : State) : (s.enterHandoff).blDefault = s.blDefault := rfl
@[simp] theorem State.enterHandoff_baseOps (s : State) : (s.enterHandoff).baseOps = s.baseOps := rfl
@[simp] theorem State.enterHandoff_regs (s : State) : (s.enterHandoff).regs = s.regs := rfl
@[simp] theorem State.enterHandoff_epoch (s : State) : (s.enterHandoff).epoch = s.epoch := rfl
@[simp] theorem State.enterHandoff_iface (s : State) : (s.enterHandoff).iface = s.iface := rfl
@[simp] theorem State.enterHandoff_latched (s : State) : (s.enterHandoff).latched = s.latched := rfl
@[simp] theorem State.enterHandoff_inputs (s : State) : (s.enterHandoff).inputs = s.inputs := rfl
@[simp] theorem State.enterHandoff_answers (s : State) : (s.enterHandoff).answers = s.answers := rfl
@[simp] theorem State.enterHandoff_sent (s : State) : (s.enterHandoff).sent = s.sent := rfl
@[simp] theorem State.enterHandoff_draws (s : State) : (s.enterHandoff).draws = s.draws := rfl
@[simp] theorem State.enterHandoff_trace (s : State) : (s.enterHandoff).trace = s.trace ++ [.handoff] := rfl

/-! ### enterFinal -/

@[simp] theorem State.enterFinal_cfg (s : State) : (s.enterFinal).cfg = s.cfg := rfl
@[simp] theorem State.enterFinal_bl (s : State) : (s.enterFinal).bl = s.bl := rfl
@[simp] theorem State.enterFinal_opr (s : State) : (s.enterFinal).opr = finalCmd s.cfg s.lines := rfl
@[simp] theorem State.enterFinal_rsl (s : State) : (s.enterFinal).rsl = false := rfl
@[simp] theorem State.enterFinal_addr (s : State) : (s.enterFinal).addr = s.addr := rfl
@[simp] theorem State.enterFinal_lines (s : State) : (s.enterFinal).lines = s.lines := rfl
@[simp] theorem State.enterFinal_cols (s : State) : (s.enterFinal).cols = s.cols := rfl
@[simp] theorem State.enterFinal_phase (s : State) : (s.enterFinal).phase = .final := rfl
@[simp] theorem State.enterFinal_op (s : State) : (s.enterFinal).op = .init := rfl
@[simp] theorem State.enterFinal_step (s : State) : (s.enterFinal).step = 16 := rfl
@[simp] theorem State.enterFinal_fault (s : State) : (s.enterFinal).fault = s.fault := rfl
@[simp] theorem State.enterFinal_err (s : State) : (s.enterFinal).err = s.err := rfl
@[simp] theorem State.enterFinal_blDefault (s : State) : (s.enterFinal).blDefault = s.blDefault := rfl
@[simp] theorem State.enterFinal_baseOps (s : State) : (s.enterFinal).baseOps = s.baseOps := rfl
@[simp] theorem State.enterFinal_regs (s : State) : (s.enterFinal).regs = s.regs := rfl
@[simp] theorem State.enterFinal_epoch (s : State) : (s.enterFinal).epoch = s.epoch := rfl
@[simp] theorem State.enterFinal_iface (s : State) : (s.enterFinal).iface = s.iface := rfl
@[simp] theorem State.enterFinal_latched (s : State) : (s.enterFinal).latched = s.latched := rfl
@[simp] theorem State.enterFinal_inputs (s : State) : (s.enterFinal).inputs = s.inputs := rfl
@[simp] theorem State.enterFinal_answers (s : State) : (s.enterFinal).answers = s.answers := rfl
@[simp] theorem State.enterFinal_sent (s : State) : (s.enterFinal).sent = s.sent := rfl
@[simp] theorem State.enterFinal_draws (s : State) : (s.enterFinal).draws = s.draws := rfl
@[simp] theorem State.enterFinal_trace (s : State) : (s.enterFinal).trace = s.trace := rfl

/-! ### finishInit -/

@[simp] theorem State.finishInit_cfg (s : State) : (s.finishInit).cfg = s.cfg := rfl
@[simp] theorem State.finishInit_bl (s : State) : (s.finishInit).bl = s.bl := rfl
@[simp] theorem State.finishInit_opr (s : State) : (s.finishInit).opr = Config.deadOpr s.draws := rfl
@[simp] theorem State.finishInit_rsl (s : State) : (s.finishInit).rsl = Config.deadRsl s.draws := rfl
@[simp] theorem State.finishInit_addr (s : State) : (s.finishInit).addr = s.addr := rfl
@[simp] theorem State.finishInit_lines (s : State) : (s.finishInit).lines = s.lines := rfl
@[simp] theorem State.finishInit_cols (s : State) : (s.finishInit).cols = s.cols := rfl
@[simp] theorem State.finishInit_phase (s : State) : (s.finishInit).phase = .ready := rfl
@[simp] theorem State.finishInit_op (s : State) : (s.finishInit).op = .none := rfl
@[simp] theorem State.finishInit_step (s : State) : (s.finishInit).step = 0 := rfl
@[simp] theorem State.finishInit_fault (s : State) : (s.finishInit).fault = s.fault := rfl
@[simp] theorem State.finishInit_err (s : State) : (s.finishInit).err = .ok := rfl
@[simp] theorem State.finishInit_blDefault (s : State) : (s.finishInit).blDefault = s.blDefault := rfl
@[simp] theorem State.finishInit_baseOps (s : State) : (s.finishInit).baseOps = s.baseOps := rfl
@[simp] theorem State.finishInit_regs (s : State) : (s.finishInit).regs = s.regs := rfl
@[simp] theorem State.finishInit_epoch (s : State) : (s.finishInit).epoch = s.epoch := rfl
@[simp] theorem State.finishInit_iface (s : State) : (s.finishInit).iface = .expectHigh := rfl
@[simp] theorem State.finishInit_latched (s : State) : (s.finishInit).latched = s.latched := rfl
@[simp] theorem State.finishInit_inputs (s : State) : (s.finishInit).inputs = s.inputs := rfl
@[simp] theorem State.finishInit_answers (s : State) : (s.finishInit).answers = s.answers := rfl
@[simp] theorem State.finishInit_sent (s : State) : (s.finishInit).sent = s.sent := rfl
@[simp] theorem State.finishInit_draws (s : State) : (s.finishInit).draws = s.draws + 1 := rfl
@[simp] theorem State.finishInit_trace (s : State) : (s.finishInit).trace = s.trace := rfl

/-! ### hardwareReset -/

@[simp] theorem State.hardwareReset_cfg (s : State) : (s.hardwareReset).cfg = s.cfg := rfl
@[simp] theorem State.hardwareReset_bl (s : State) : (s.hardwareReset).bl = none := rfl
@[simp] theorem State.hardwareReset_opr (s : State) : (s.hardwareReset).opr = 0 := rfl
@[simp] theorem State.hardwareReset_rsl (s : State) : (s.hardwareReset).rsl = false := rfl
@[simp] theorem State.hardwareReset_addr (s : State) : (s.hardwareReset).addr = 0 := rfl
@[simp] theorem State.hardwareReset_lines (s : State) : (s.hardwareReset).lines = 0 := rfl
@[simp] theorem State.hardwareReset_cols (s : State) : (s.hardwareReset).cols = 0 := rfl
@[simp] theorem State.hardwareReset_phase (s : State) : (s.hardwareReset).phase = .unbuilt := rfl
@[simp] theorem State.hardwareReset_op (s : State) : (s.hardwareReset).op = .none := rfl
@[simp] theorem State.hardwareReset_step (s : State) : (s.hardwareReset).step = 0 := rfl
@[simp] theorem State.hardwareReset_fault (s : State) : (s.hardwareReset).fault = false := rfl
@[simp] theorem State.hardwareReset_err (s : State) : (s.hardwareReset).err = .ok := rfl
@[simp] theorem State.hardwareReset_blDefault (s : State) : (s.hardwareReset).blDefault = false := rfl
@[simp] theorem State.hardwareReset_baseOps (s : State) : (s.hardwareReset).baseOps = [] := rfl
@[simp] theorem State.hardwareReset_regs (s : State) : (s.hardwareReset).regs = s.regs := rfl
@[simp] theorem State.hardwareReset_epoch (s : State) : (s.hardwareReset).epoch = s.epoch := rfl
@[simp] theorem State.hardwareReset_iface (s : State) : (s.hardwareReset).iface = .unknown := rfl
@[simp] theorem State.hardwareReset_latched (s : State) : (s.hardwareReset).latched = s.latched := rfl
@[simp] theorem State.hardwareReset_inputs (s : State) : (s.hardwareReset).inputs = s.inputs := rfl
@[simp] theorem State.hardwareReset_answers (s : State) : (s.hardwareReset).answers = s.answers := rfl
@[simp] theorem State.hardwareReset_sent (s : State) : (s.hardwareReset).sent = s.sent := rfl
@[simp] theorem State.hardwareReset_draws (s : State) : (s.hardwareReset).draws = s.draws := rfl
@[simp] theorem State.hardwareReset_trace (s : State) : (s.hardwareReset).trace = s.trace := rfl

/-! ### retireLatches -/

@[simp] theorem State.retireLatches_cfg (s : State) : (s.retireLatches).cfg = s.cfg := by
  unfold State.retireLatches; split <;> rfl
@[simp] theorem State.retireLatches_bl (s : State) : (s.retireLatches).bl = s.bl := by
  unfold State.retireLatches; split <;> rfl
@[simp] theorem State.retireLatches_addr (s : State) : (s.retireLatches).addr = s.addr := by
  unfold State.retireLatches; split <;> rfl
@[simp] theorem State.retireLatches_lines (s : State) : (s.retireLatches).lines = s.lines := by
  unfold State.retireLatches; split <;> rfl
@[simp] theorem State.retireLatches_cols (s : State) : (s.retireLatches).cols = s.cols := by
  unfold State.retireLatches; split <;> rfl
@[simp] theorem State.retireLatches_phase (s : State) : (s.retireLatches).phase = s.phase := by
  unfold State.retireLatches; split <;> rfl
@[simp] theorem State.retireLatches_op (s : State) : (s.retireLatches).op = s.op := by
  unfold State.retireLatches; split <;> rfl
@[simp] theorem State.retireLatches_step (s : State) : (s.retireLatches).step = s.step := by
  unfold State.retireLatches; split <;> rfl
@[simp] theorem State.retireLatches_fault (s : State) : (s.retireLatches).fault = s.fault := by
  unfold State.retireLatches; split <;> rfl
@[simp] theorem State.retireLatches_err (s : State) : (s.retireLatches).err = s.err := by
  unfold State.retireLatches; split <;> rfl
@[simp] theorem State.retireLatches_blDefault (s : State) : (s.retireLatches).blDefault = s.blDefault := by
  unfold State.retireLatches; split <;> rfl
@[simp] theorem State.retireLatches_baseOps (s : State) : (s.retireLatches).baseOps = s.baseOps := by
  unfold State.retireLatches; split <;> rfl
@[simp] theorem State.retireLatches_regs (s : State) : (s.retireLatches).regs = s.regs := by
  unfold State.retireLatches; split <;> rfl
@[simp] theorem State.retireLatches_epoch (s : State) : (s.retireLatches).epoch = s.epoch := by
  unfold State.retireLatches; split <;> rfl
@[simp] theorem State.retireLatches_iface (s : State) : (s.retireLatches).iface = s.iface := by
  unfold State.retireLatches; split <;> rfl
@[simp] theorem State.retireLatches_latched (s : State) : (s.retireLatches).latched = s.latched := by
  unfold State.retireLatches; split <;> rfl
@[simp] theorem State.retireLatches_inputs (s : State) : (s.retireLatches).inputs = s.inputs := by
  unfold State.retireLatches; split <;> rfl
@[simp] theorem State.retireLatches_answers (s : State) : (s.retireLatches).answers = s.answers := by
  unfold State.retireLatches; split <;> rfl
@[simp] theorem State.retireLatches_sent (s : State) : (s.retireLatches).sent = s.sent := by
  unfold State.retireLatches; split <;> rfl
@[simp] theorem State.retireLatches_trace (s : State) : (s.retireLatches).trace = s.trace := by
  unfold State.retireLatches; split <;> rfl

/-! ### abandonLatches -/

@[simp] theorem State.abandonLatches_cfg (s : State) : (s.abandonLatches).cfg = s.cfg := by
  unfold State.abandonLatches; split <;> simp
@[simp] theorem State.abandonLatches_bl (s : State) : (s.abandonLatches).bl = s.bl := by
  unfold State.abandonLatches; split <;> simp
@[simp] theorem State.abandonLatches_addr (s : State) : (s.abandonLatches).addr = s.addr := by
  unfold State.abandonLatches; split <;> simp
@[simp] theorem State.abandonLatches_lines (s : State) : (s.abandonLatches).lines = s.lines := by
  unfold State.abandonLatches; split <;> simp
@[simp] theorem State.abandonLatches_cols (s : State) : (s.abandonLatches).cols = s.cols := by
  unfold State.abandonLatches; split <;> simp
@[simp] theorem State.abandonLatches_phase (s : State) : (s.abandonLatches).phase = s.phase := by
  unfold State.abandonLatches; split <;> simp
@[simp] theorem State.abandonLatches_op (s : State) : (s.abandonLatches).op = s.op := by
  unfold State.abandonLatches; split <;> simp
@[simp] theorem State.abandonLatches_step (s : State) : (s.abandonLatches).step = s.step := by
  unfold State.abandonLatches; split <;> simp
@[simp] theorem State.abandonLatches_fault (s : State) : (s.abandonLatches).fault = s.fault := by
  unfold State.abandonLatches; split <;> simp
@[simp] theorem State.abandonLatches_err (s : State) : (s.abandonLatches).err = s.err := by
  unfold State.abandonLatches; split <;> simp
@[simp] theorem State.abandonLatches_blDefault (s : State) : (s.abandonLatches).blDefault = s.blDefault := by
  unfold State.abandonLatches; split <;> simp
@[simp] theorem State.abandonLatches_baseOps (s : State) : (s.abandonLatches).baseOps = s.baseOps := by
  unfold State.abandonLatches; split <;> simp
@[simp] theorem State.abandonLatches_regs (s : State) : (s.abandonLatches).regs = s.regs := by
  unfold State.abandonLatches; split <;> simp
@[simp] theorem State.abandonLatches_epoch (s : State) : (s.abandonLatches).epoch = s.epoch := by
  unfold State.abandonLatches; split <;> simp
@[simp] theorem State.abandonLatches_iface (s : State) : (s.abandonLatches).iface = s.iface := by
  unfold State.abandonLatches; split <;> simp
@[simp] theorem State.abandonLatches_latched (s : State) : (s.abandonLatches).latched = s.latched := by
  unfold State.abandonLatches; split <;> simp
@[simp] theorem State.abandonLatches_inputs (s : State) : (s.abandonLatches).inputs = s.inputs := by
  unfold State.abandonLatches; split <;> simp
@[simp] theorem State.abandonLatches_answers (s : State) : (s.abandonLatches).answers = s.answers := by
  unfold State.abandonLatches; split <;> simp
@[simp] theorem State.abandonLatches_sent (s : State) : (s.abandonLatches).sent = s.sent := by
  unfold State.abandonLatches; split <;> simp
@[simp] theorem State.abandonLatches_trace (s : State) : (s.abandonLatches).trace = s.trace := by
  unfold State.abandonLatches; split <;> simp

/-! ### endTransport -/

@[simp] theorem State.endTransport_cfg (s : State) : (s.endTransport).cfg = s.cfg := by
  simp [State.endTransport]
@[simp] theorem State.endTransport_bl (s : State) : (s.endTransport).bl = s.bl := by
  simp [State.endTransport]
@[simp] theorem State.endTransport_opr (s : State) : (s.endTransport).opr = s.retireLatches.opr := by
  simp [State.endTransport]
@[simp] theorem State.endTransport_rsl (s : State) : (s.endTransport).rsl = s.retireLatches.rsl := by
  simp [State.endTransport]
@[simp] theorem State.endTransport_addr (s : State) : (s.endTransport).addr = s.addr := by
  simp [State.endTransport]
@[simp] theorem State.endTransport_lines (s : State) : (s.endTransport).lines = s.lines := by
  simp [State.endTransport]
@[simp] theorem State.endTransport_cols (s : State) : (s.endTransport).cols = s.cols := by
  simp [State.endTransport]
@[simp] theorem State.endTransport_phase (s : State) : (s.endTransport).phase = s.phase := by
  simp [State.endTransport]
@[simp] theorem State.endTransport_op (s : State) :
    (s.endTransport).op = if s.phase = .handoff then .init else .none := by
  simp [State.endTransport]
@[simp] theorem State.endTransport_step (s : State) :
    (s.endTransport).step = if s.phase = .handoff then 15 else 0 := by
  simp [State.endTransport]
@[simp] theorem State.endTransport_fault (s : State) : (s.endTransport).fault = s.fault := by
  simp [State.endTransport]
@[simp] theorem State.endTransport_err (s : State) : (s.endTransport).err = .ok := by
  simp [State.endTransport]
@[simp] theorem State.endTransport_blDefault (s : State) : (s.endTransport).blDefault = s.blDefault := by
  simp [State.endTransport]
@[simp] theorem State.endTransport_baseOps (s : State) : (s.endTransport).baseOps = s.baseOps := by
  simp [State.endTransport]
@[simp] theorem State.endTransport_regs (s : State) : (s.endTransport).regs = s.regs := by
  simp [State.endTransport]
@[simp] theorem State.endTransport_epoch (s : State) : (s.endTransport).epoch = s.epoch := by
  simp [State.endTransport]
@[simp] theorem State.endTransport_iface (s : State) : (s.endTransport).iface = s.iface := by
  simp [State.endTransport]
@[simp] theorem State.endTransport_latched (s : State) : (s.endTransport).latched = s.latched := by
  simp [State.endTransport]
@[simp] theorem State.endTransport_inputs (s : State) : (s.endTransport).inputs = s.inputs := by
  simp [State.endTransport]
@[simp] theorem State.endTransport_answers (s : State) : (s.endTransport).answers = s.answers := by
  simp [State.endTransport]
@[simp] theorem State.endTransport_sent (s : State) : (s.endTransport).sent = s.sent := by
  simp [State.endTransport]
@[simp] theorem State.endTransport_draws (s : State) : (s.endTransport).draws = s.retireLatches.draws := by
  simp [State.endTransport]
@[simp] theorem State.endTransport_trace (s : State) : (s.endTransport).trace = s.trace := by
  simp [State.endTransport]

/-! ### storeRaw -/

@[simp] theorem State.storeRaw_cfg (s : State) (bs : List Byte) : (s.storeRaw bs).cfg = s.cfg := by
  unfold State.storeRaw; split <;> first | rfl | (split <;> rfl)
@[simp] theorem State.storeRaw_bl (s : State) (bs : List Byte) : (s.storeRaw bs).bl = s.bl := by
  unfold State.storeRaw; split <;> first | rfl | (split <;> rfl)
@[simp] theorem State.storeRaw_opr (s : State) (bs : List Byte) : (s.storeRaw bs).opr = s.opr := by
  unfold State.storeRaw; split <;> first | rfl | (split <;> rfl)
@[simp] theorem State.storeRaw_rsl (s : State) (bs : List Byte) : (s.storeRaw bs).rsl = s.rsl := by
  unfold State.storeRaw; split <;> first | rfl | (split <;> rfl)
@[simp] theorem State.storeRaw_addr (s : State) (bs : List Byte) : (s.storeRaw bs).addr = s.addr := by
  unfold State.storeRaw; split <;> first | rfl | (split <;> rfl)
@[simp] theorem State.storeRaw_lines (s : State) (bs : List Byte) : (s.storeRaw bs).lines = s.lines := by
  unfold State.storeRaw; split <;> first | rfl | (split <;> rfl)
@[simp] theorem State.storeRaw_cols (s : State) (bs : List Byte) : (s.storeRaw bs).cols = s.cols := by
  unfold State.storeRaw; split <;> first | rfl | (split <;> rfl)
@[simp] theorem State.storeRaw_phase (s : State) (bs : List Byte) : (s.storeRaw bs).phase = s.phase := by
  unfold State.storeRaw; split <;> first | rfl | (split <;> rfl)
@[simp] theorem State.storeRaw_op (s : State) (bs : List Byte) : (s.storeRaw bs).op = s.op := by
  unfold State.storeRaw; split <;> first | rfl | (split <;> rfl)
@[simp] theorem State.storeRaw_step (s : State) (bs : List Byte) : (s.storeRaw bs).step = s.step := by
  unfold State.storeRaw; split <;> first | rfl | (split <;> rfl)
@[simp] theorem State.storeRaw_fault (s : State) (bs : List Byte) : (s.storeRaw bs).fault = s.fault := by
  unfold State.storeRaw; split <;> first | rfl | (split <;> rfl)
@[simp] theorem State.storeRaw_err (s : State) (bs : List Byte) : (s.storeRaw bs).err = s.err := by
  unfold State.storeRaw; split <;> first | rfl | (split <;> rfl)
@[simp] theorem State.storeRaw_blDefault (s : State) (bs : List Byte) : (s.storeRaw bs).blDefault = s.blDefault := by
  unfold State.storeRaw; split <;> first | rfl | (split <;> rfl)
@[simp] theorem State.storeRaw_baseOps (s : State) (bs : List Byte) : (s.storeRaw bs).baseOps = s.baseOps := by
  unfold State.storeRaw; split <;> first | rfl | (split <;> rfl)
@[simp] theorem State.storeRaw_iface (s : State) (bs : List Byte) : (s.storeRaw bs).iface = s.iface := by
  unfold State.storeRaw; split <;> first | rfl | (split <;> rfl)
@[simp] theorem State.storeRaw_latched (s : State) (bs : List Byte) : (s.storeRaw bs).latched = s.latched := by
  unfold State.storeRaw; split <;> first | rfl | (split <;> rfl)
@[simp] theorem State.storeRaw_inputs (s : State) (bs : List Byte) : (s.storeRaw bs).inputs = s.inputs := by
  unfold State.storeRaw; split <;> first | rfl | (split <;> rfl)
@[simp] theorem State.storeRaw_answers (s : State) (bs : List Byte) : (s.storeRaw bs).answers = s.answers := by
  unfold State.storeRaw; split <;> first | rfl | (split <;> rfl)
@[simp] theorem State.storeRaw_sent (s : State) (bs : List Byte) : (s.storeRaw bs).sent = s.sent := by
  unfold State.storeRaw; split <;> first | rfl | (split <;> rfl)
@[simp] theorem State.storeRaw_trace (s : State) (bs : List Byte) : (s.storeRaw bs).trace = s.trace := by
  unfold State.storeRaw; split <;> first | rfl | (split <;> rfl)

/-! ### deliver -/

@[simp] theorem State.deliver_cfg (s : State) (t : Transaction) : (s.deliver t).cfg = s.cfg := by
  cases t <;> simp [State.deliver]
@[simp] theorem State.deliver_bl (s : State) (t : Transaction) : (s.deliver t).bl = s.bl := by
  cases t <;> simp [State.deliver]
@[simp] theorem State.deliver_opr (s : State) (t : Transaction) : (s.deliver t).opr = s.opr := by
  cases t <;> simp [State.deliver]
@[simp] theorem State.deliver_rsl (s : State) (t : Transaction) : (s.deliver t).rsl = s.rsl := by
  cases t <;> simp [State.deliver]
@[simp] theorem State.deliver_addr (s : State) (t : Transaction) : (s.deliver t).addr = s.addr := by
  cases t <;> simp [State.deliver]
@[simp] theorem State.deliver_lines (s : State) (t : Transaction) : (s.deliver t).lines = s.lines := by
  cases t <;> simp [State.deliver]
@[simp] theorem State.deliver_cols (s : State) (t : Transaction) : (s.deliver t).cols = s.cols := by
  cases t <;> simp [State.deliver]
@[simp] theorem State.deliver_phase (s : State) (t : Transaction) : (s.deliver t).phase = s.phase := by
  cases t <;> simp [State.deliver]
@[simp] theorem State.deliver_op (s : State) (t : Transaction) : (s.deliver t).op = s.op := by
  cases t <;> simp [State.deliver]
@[simp] theorem State.deliver_step (s : State) (t : Transaction) : (s.deliver t).step = s.step := by
  cases t <;> simp [State.deliver]
@[simp] theorem State.deliver_fault (s : State) (t : Transaction) : (s.deliver t).fault = s.fault := by
  cases t <;> simp [State.deliver]
@[simp] theorem State.deliver_err (s : State) (t : Transaction) : (s.deliver t).err = s.err := by
  cases t <;> simp [State.deliver]
@[simp] theorem State.deliver_blDefault (s : State) (t : Transaction) : (s.deliver t).blDefault = s.blDefault := by
  cases t <;> simp [State.deliver]
@[simp] theorem State.deliver_baseOps (s : State) (t : Transaction) : (s.deliver t).baseOps = s.baseOps := by
  cases t <;> simp [State.deliver]
@[simp] theorem State.deliver_inputs (s : State) (t : Transaction) : (s.deliver t).inputs = s.inputs := by
  cases t <;> simp [State.deliver]
@[simp] theorem State.deliver_answers (s : State) (t : Transaction) : (s.deliver t).answers = s.answers := by
  cases t <;> simp [State.deliver]
@[simp] theorem State.deliver_sent (s : State) (t : Transaction) : (s.deliver t).sent = s.sent := by
  cases t <;> simp [State.deliver]
@[simp] theorem State.deliver_trace (s : State) (t : Transaction) : (s.deliver t).trace = s.trace := by
  cases t <;> simp [State.deliver]

/-! ### spoil -/

@[simp] theorem State.spoil_cfg (s : State) (t : Transaction) : (s.spoil t).cfg = s.cfg := by
  cases t <;> rfl
@[simp] theorem State.spoil_bl (s : State) (t : Transaction) : (s.spoil t).bl = s.bl := by
  cases t <;> rfl
@[simp] theorem State.spoil_opr (s : State) (t : Transaction) : (s.spoil t).opr = s.opr := by
  cases t <;> rfl
@[simp] theorem State.spoil_rsl (s : State) (t : Transaction) : (s.spoil t).rsl = s.rsl := by
  cases t <;> rfl
@[simp] theorem State.spoil_addr (s : State) (t : Transaction) : (s.spoil t).addr = s.addr := by
  cases t <;> rfl
@[simp] theorem State.spoil_lines (s : State) (t : Transaction) : (s.spoil t).lines = s.lines := by
  cases t <;> rfl
@[simp] theorem State.spoil_cols (s : State) (t : Transaction) : (s.spoil t).cols = s.cols := by
  cases t <;> rfl
@[simp] theorem State.spoil_phase (s : State) (t : Transaction) : (s.spoil t).phase = s.phase := by
  cases t <;> rfl
@[simp] theorem State.spoil_op (s : State) (t : Transaction) : (s.spoil t).op = s.op := by
  cases t <;> rfl
@[simp] theorem State.spoil_step (s : State) (t : Transaction) : (s.spoil t).step = s.step := by
  cases t <;> rfl
@[simp] theorem State.spoil_fault (s : State) (t : Transaction) : (s.spoil t).fault = s.fault := by
  cases t <;> rfl
@[simp] theorem State.spoil_err (s : State) (t : Transaction) : (s.spoil t).err = s.err := by
  cases t <;> rfl
@[simp] theorem State.spoil_blDefault (s : State) (t : Transaction) : (s.spoil t).blDefault = s.blDefault := by
  cases t <;> rfl
@[simp] theorem State.spoil_baseOps (s : State) (t : Transaction) : (s.spoil t).baseOps = s.baseOps := by
  cases t <;> rfl
@[simp] theorem State.spoil_iface (s : State) (t : Transaction) : (s.spoil t).iface = .unknown := by
  cases t <;> rfl
@[simp] theorem State.spoil_latched (s : State) (t : Transaction) :
    (s.spoil t).latched = s.latched ++ Config.strayNibbles (s.draws + 1) := by
  cases t <;> rfl
@[simp] theorem State.spoil_inputs (s : State) (t : Transaction) : (s.spoil t).inputs = s.inputs := by
  cases t <;> rfl
@[simp] theorem State.spoil_answers (s : State) (t : Transaction) : (s.spoil t).answers = s.answers := by
  cases t <;> rfl
@[simp] theorem State.spoil_sent (s : State) (t : Transaction) : (s.spoil t).sent = s.sent := by
  cases t <;> rfl
@[simp] theorem State.spoil_draws (s : State) (t : Transaction) : (s.spoil t).draws = s.draws + 1 := by
  cases t <;> rfl
@[simp] theorem State.spoil_trace (s : State) (t : Transaction) : (s.spoil t).trace = s.trace := by
  cases t <;> rfl

/-! ### takeBusFault -/

@[simp] theorem State.takeBusFault_cfg (s : State) (t : Transaction) : (s.takeBusFault t).cfg = s.cfg := by
  simp [State.takeBusFault]
@[simp] theorem State.takeBusFault_bl (s : State) (t : Transaction) : (s.takeBusFault t).bl = s.bl := by
  simp [State.takeBusFault]
@[simp] theorem State.takeBusFault_opr (s : State) (t : Transaction) :
    (s.takeBusFault t).opr = (s.spoil t).abandonLatches.opr := by
  simp [State.takeBusFault]
@[simp] theorem State.takeBusFault_rsl (s : State) (t : Transaction) :
    (s.takeBusFault t).rsl = (s.spoil t).abandonLatches.rsl := by
  simp [State.takeBusFault]
@[simp] theorem State.takeBusFault_addr (s : State) (t : Transaction) : (s.takeBusFault t).addr = s.addr := by
  simp [State.takeBusFault]
@[simp] theorem State.takeBusFault_lines (s : State) (t : Transaction) : (s.takeBusFault t).lines = s.lines := by
  simp [State.takeBusFault]
@[simp] theorem State.takeBusFault_cols (s : State) (t : Transaction) : (s.takeBusFault t).cols = s.cols := by
  simp [State.takeBusFault]
@[simp] theorem State.takeBusFault_phase (s : State) (t : Transaction) :
    (s.takeBusFault t).phase = if s.phase = .ready then .ready else .unbuilt := by
  simp [State.takeBusFault]
@[simp] theorem State.takeBusFault_op (s : State) (t : Transaction) : (s.takeBusFault t).op = .none := by
  simp [State.takeBusFault]
@[simp] theorem State.takeBusFault_step (s : State) (t : Transaction) : (s.takeBusFault t).step = 0 := by
  simp [State.takeBusFault]
@[simp] theorem State.takeBusFault_fault (s : State) (t : Transaction) : (s.takeBusFault t).fault = true := by
  simp [State.takeBusFault]
@[simp] theorem State.takeBusFault_err (s : State) (t : Transaction) : (s.takeBusFault t).err = .busFault := by
  simp [State.takeBusFault]
@[simp] theorem State.takeBusFault_blDefault (s : State) (t : Transaction) :
    (s.takeBusFault t).blDefault = s.blDefault := by
  simp [State.takeBusFault]
@[simp] theorem State.takeBusFault_baseOps (s : State) (t : Transaction) : (s.takeBusFault t).baseOps = [] := by
  simp [State.takeBusFault]
@[simp] theorem State.takeBusFault_regs (s : State) (t : Transaction) :
    (s.takeBusFault t).regs = (s.spoil t).regs := by
  simp [State.takeBusFault]
@[simp] theorem State.takeBusFault_epoch (s : State) (t : Transaction) :
    (s.takeBusFault t).epoch = (s.spoil t).epoch := by
  simp [State.takeBusFault]
@[simp] theorem State.takeBusFault_iface (s : State) (t : Transaction) : (s.takeBusFault t).iface = .unknown := by
  simp [State.takeBusFault]
@[simp] theorem State.takeBusFault_latched (s : State) (t : Transaction) :
    (s.takeBusFault t).latched = s.latched ++ Config.strayNibbles (s.draws + 1) := by
  simp [State.takeBusFault]
@[simp] theorem State.takeBusFault_inputs (s : State) (t : Transaction) : (s.takeBusFault t).inputs = s.inputs := by
  simp [State.takeBusFault]
@[simp] theorem State.takeBusFault_answers (s : State) (t : Transaction) :
    (s.takeBusFault t).answers = s.answers := by
  simp [State.takeBusFault]
@[simp] theorem State.takeBusFault_sent (s : State) (t : Transaction) : (s.takeBusFault t).sent = s.sent := by
  simp [State.takeBusFault]
@[simp] theorem State.takeBusFault_draws (s : State) (t : Transaction) :
    (s.takeBusFault t).draws = (s.spoil t).abandonLatches.draws := by
  simp [State.takeBusFault]
@[simp] theorem State.takeBusFault_trace (s : State) (t : Transaction) :
    (s.takeBusFault t).trace = s.trace ++ [.fail t s.op s.step] := by
  simp [State.takeBusFault]

end Sys2Proof.Machine
end

