-- ==== Sys2Proof/Laws/Memory.lean ====
section
/-! SUPPORT. The laws of the expander's register list: read after write, other registers untouched, and the canonical
form kept by every operation (spec/20_memory.md R40, R41). -/

namespace Sys2Proof.Machine

theorem Memory.read_write_same (m : Memory) (a : Nat) (v : Byte) : (m.write a v).read a = some v := by
  induction m with
  | nil => simp [Memory.write, Memory.read]
  | cons c m ih =>
    obtain ⟨k, w⟩ := c
    by_cases h1 : a < k
    · simp [Memory.write, Memory.read, h1]
    · by_cases h2 : a = k
      · simp [Memory.write, Memory.read, h2]
      · simp [Memory.write, Memory.read, h1, h2, Ne.symm h2, ih]

theorem Memory.read_write_other (m : Memory) {a b : Nat} (v : Byte) (h : b ≠ a) : (m.write a v).read b = m.read b := by
  induction m with
  | nil => simp [Memory.write, Memory.read, Ne.symm h]
  | cons c m ih =>
    obtain ⟨k, w⟩ := c
    by_cases h1 : a < k
    · simp [Memory.write, Memory.read, h1, Ne.symm h]
    · by_cases h2 : a = k
      · subst h2; simp [Memory.write, Memory.read, Ne.symm h]
      · simp [Memory.write, Memory.read, h1, h2, ih]

/-- A write lists no address that was not listed, but its own. -/
theorem Memory.mem_write {m : Memory} {a : Nat} {v : Byte} {c : Host.Cell} (h : c ∈ m.write a v) : c = (a, v) ∨ c ∈ m := by
  induction m with
  | nil => exact .inl (by simpa [Memory.write] using h)
  | cons d m ih =>
    obtain ⟨k, w⟩ := d
    by_cases h1 : a < k
    · simp only [Memory.write, h1, if_true, List.mem_cons] at h ⊢; tauto
    · by_cases h2 : a = k
      · simp only [Memory.write, h2, lt_irrefl, if_false, if_true, List.mem_cons] at h ⊢; tauto
      · simp only [Memory.write, h1, h2, if_false, List.mem_cons] at h ⊢
        rcases h with h | h
        · exact .inr (.inl h)
        · exact (ih h).imp_right .inr

theorem Memory.write_wf {m : Memory} (h : m.wf) {a : Nat} (ha : a < registerSpace) (v : Byte) : (m.write a v).wf := by
  refine ⟨?_, fun c hc => (Memory.mem_write hc).elim (fun e => e ▸ ha) (h.2 c)⟩
  have hp := h.1
  clear h
  induction m with
  | nil => simp [Memory.write]
  | cons d m ih =>
    obtain ⟨k, w⟩ := d
    rw [List.pairwise_cons] at hp
    by_cases h1 : a < k
    · simp only [Memory.write, h1, if_true, List.pairwise_cons]
      refine ⟨fun c hc => ?_, hp.1, hp.2⟩
      rcases List.mem_cons.1 hc with rfl | hc
      · exact h1
      · exact lt_trans h1 (hp.1 c hc)
    · by_cases h2 : a = k
      · subst h2; simpa [Memory.write, List.pairwise_cons] using hp
      · simp only [Memory.write, h1, h2, if_false, List.pairwise_cons]
        refine ⟨fun c hc => ?_, ih hp.2⟩
        rcases Memory.mem_write hc with rfl | hc
        · show k < a
          omega
        · exact hp.1 c hc

theorem Memory.writeFrom_wf {m : Memory} (h : m.wf) {a : Nat} {bs : List Byte} (hb : a + bs.length ≤ registerSpace) :
    (m.writeFrom a bs).wf := by
  induction bs generalizing m a with
  | nil => exact h
  | cons b bs ih =>
    simp only [List.length_cons] at hb
    exact ih (Memory.write_wf h (by omega) b) (by omega)

/-- Everything that filling successive registers does to a read (R41): inside the filled range the byte of that place, outside
what was there. -/
theorem Memory.read_writeFrom (bs : List Byte) (m : Memory) (a : Nat) :
    (∀ i v, bs[i]? = some v → (m.writeFrom a bs).read (a + i) = some v) ∧
      ∀ k, k < a ∨ a + bs.length ≤ k → (m.writeFrom a bs).read k = m.read k := by
  induction bs generalizing m a with
  | nil => exact ⟨by simp, fun _ _ => rfl⟩
  | cons b bs ih =>
    obtain ⟨h1, h2⟩ := ih (m.write a b) (a + 1)
    refine ⟨fun i v hi => ?_, fun k hk => ?_⟩
    · cases i with
      | zero =>
        obtain rfl : b = v := by simpa using hi
        exact (h2 a (by omega)).trans (m.read_write_same a b)
      | succ i => simpa [Memory.writeFrom, Nat.add_assoc, Nat.add_comm 1 i] using h1 i v (by simpa using hi)
    · rw [List.length_cons] at hk
      exact (h2 k (by omega)).trans (m.read_write_other b (by omega))

theorem Memory.nil_wf : Memory.wf [] := ⟨.nil, by simp⟩

theorem byte_lt_registerSpace (r : Byte) : r.toNat < registerSpace := r.isLt

theorem State.storeRegister_wf {s : State} (h : s.regs.wf) (r v : Byte) : (s.storeRegister r v).regs.wf := by
  simpa using Memory.write_wf h (byte_lt_registerSpace r) v

theorem State.storeRaw_wf {s : State} (h : s.regs.wf) (bs : List Byte) : (s.storeRaw bs).regs.wf := by
  cases bs with
  | nil => exact h
  | cons p data =>
    by_cases hd : p.toNat + data.length ≤ registerSpace
    · simpa [State.storeRaw, hd] using Memory.writeFrom_wf h hd
    · simpa [State.storeRaw, hd] using Memory.nil_wf

theorem State.deliver_wf {s : State} (h : s.regs.wf) (t : Transaction) : (s.deliver t).regs.wf := by
  cases t with
  | raw a bs => exact State.storeRaw_wf h bs
  | reg a r v => exact State.storeRegister_wf h r v

theorem State.spoil_wf {s : State} (h : s.regs.wf) (t : Transaction) : (s.spoil t).regs.wf := by
  cases t with
  | raw a bs => exact Memory.nil_wf
  | reg a r v => exact Memory.write_wf h (byte_lt_registerSpace r) _

/-- A register write leaves what every other register holds alone (R40). -/
theorem State.regByte_storeRegister_other (s : State) (r v : Byte) {a : Nat} (h : a ≠ r.toNat) :
    (s.storeRegister r v).regByte a = s.regByte a := by
  simp [State.regByte, Memory.read_write_other _ _ h]

/-- A register write is what the register holds afterwards (R40). -/
theorem State.regByte_storeRegister_same (s : State) (r v : Byte) : (s.storeRegister r v).regByte r.toNat = v := by
  simp [State.regByte, Memory.read_write_same]

end Sys2Proof.Machine
end

