-- ==== Sys2Proof/Laws/Ops.lean ====
section
/-! SUPPORT. What each shared operation can do, said once: a transaction, an entry of an event list, an event list, a
flow; and the packaged induction over everything a step does. -/

namespace Sys2Proof.Machine

/-! ### Answers -/

@[simp] theorem State.answerAt_popAnswer (s : State) (k : Nat) : s.popAnswer.answerAt k = s.answerAt (k + 1) := by
  unfold State.answerAt
  simp [Nat.add_comm k 1, Nat.add_assoc]

/-- The answers to come depend on two fields only. -/
theorem State.answerAt_congr {s t : State} (h1 : t.answers = s.answers) (h2 : t.sent = s.sent) (k : Nat) :
    t.answerAt k = s.answerAt k := by simp [State.answerAt, h1, h2]

theorem State.AnswersOk.zero (s : State) : s.AnswersOk 0 := fun _ h => absurd h (Nat.not_lt_zero _)

theorem State.answersOk_succ (s : State) (n : Nat) :
    s.AnswersOk (n + 1) ↔ s.answerAt 0 = .ok ∧ s.popAnswer.AnswersOk n := by
  refine ⟨fun h => ⟨h 0 (Nat.succ_pos n), fun k hk => ?_⟩, fun h k hk => ?_⟩
  · simpa using h (k + 1) (Nat.succ_lt_succ hk)
  · cases k with
    | zero => exact h.1
    | succ k => simpa using h.2 k (Nat.lt_of_succ_lt_succ hk)

theorem State.answersOk_congr {s t : State} (h1 : t.answers = s.answers) (h2 : t.sent = s.sent) (n : Nat) :
    t.AnswersOk n ↔ s.AnswersOk n := by simp [State.AnswersOk, State.answerAt_congr h1 h2]

/-! ### Flows -/

@[simp] theorem Flow.goes_state (s : State) : (Flow.goes s).state = s := rfl
@[simp] theorem Flow.stopped_state (s : State) : (Flow.stopped s).state = s := rfl
@[simp] theorem Flow.goes_andThen (s : State) (f : State → Flow) : (Flow.goes s).andThen f = f s := rfl
@[simp] theorem Flow.stopped_andThen (s : State) (f : State → Flow) : (Flow.stopped s).andThen f = .stopped s := rfl

theorem Flow.andThen_assoc (w : Flow) (f g : State → Flow) :
    (w.andThen f).andThen g = w.andThen fun s => (f s).andThen g := by cases w <;> rfl

/-- What both ends of a flow keep, its continuation keeps. -/
theorem Flow.andThen_keeps {P : State → Prop} {w : Flow} {f : State → Flow} (hw : P w.state)
    (hf : ∀ s, P s → P (f s).state) : P (w.andThen f).state := by
  cases w with
  | goes s => exact hf s hw
  | stopped s => exact hw

/-! ### Transactions -/

theorem transact_ok {s : State} (h : s.answerAt 0 = .ok) (t : Transaction) :
    transact t s = .goes ((s.popAnswer.deliver t).record (.bus t)) := by simp [transact, h]

theorem transact_fail {s : State} (h : s.answerAt 0 = .fail) (t : Transaction) :
    transact t s = .stopped (s.popAnswer.takeBusFault t) := by simp [transact, h]

/-- Everything a transaction can do. -/
theorem transact_cases (t : Transaction) (s : State) :
    (s.answerAt 0 = .ok ∧ transact t s = .goes ((s.popAnswer.deliver t).record (.bus t))) ∨
      (s.answerAt 0 = .fail ∧ transact t s = .stopped (s.popAnswer.takeBusFault t)) := by
  cases h : s.answerAt 0 with
  | ok => exact .inl ⟨rfl, transact_ok h t⟩
  | fail => exact .inr ⟨rfl, transact_fail h t⟩

/-- A transaction that some entry of an event list issues in s (R72, R73, R85, R90, R100, R101). -/
inductive Issued (s : State) : Transaction → Prop
  | seed : Issued s (.raw s.addr s.cfg.seedBytes)
  | direction : Issued s (.reg s.addr s.cfg.regIodir (dirValue s.cfg))
  | gpio (asserted bl rs : Bool) (nib : Nibble) :
      Issued s (.reg s.addr s.cfg.regGpio (withStrobe s.cfg asserted (compose s.cfg bl rs nib)))

/-- Everything an entry of an event list can do: one transaction (OPR may be loaded before it), one delay, or nothing. -/
theorem runMicro_cases (m : MicroOp) (s : State) :
    (∃ t, Issued s t ∧ (runMicro m s = transact t s ∨ ∃ v, runMicro m s = transact t (s.loadOpr v))) ∨
      (∃ ms, runMicro m s = .goes (s.record (.delay ms))) ∨ runMicro m s = .goes s := by
  cases m with
  | seed => exact .inl ⟨_, .seed, .inl rfl⟩
  | direction => exact .inl ⟨_, .direction, .inl rfl⟩
  | delay ms => exact .inr (.inl ⟨ms, rfl⟩)
  | nibble code asserted => exact .inl ⟨_, .gpio asserted false false (hiNibble code), .inr ⟨code, rfl⟩⟩
  | strobe high asserted => exact .inl ⟨_, .gpio asserted _ _ _, .inl rfl⟩
  | level => exact .inl ⟨_, .gpio false s.backlight false 0, .inl rfl⟩
  | clearDelay =>
    by_cases h : isClearHome s.opr = true
    · exact .inr (.inl ⟨tClear, by simp [runMicro, h, delay]⟩)
    · exact .inr (.inr (by simp [runMicro, h]))

/-! ### Event lists -/

@[simp] theorem runMicros_nil (s : State) : runMicros [] s = .goes s := rfl

theorem runMicros_cons (m : MicroOp) (ms : List MicroOp) (s : State) :
    runMicros (m :: ms) s = (runMicro m s).andThen (runMicros ms) := rfl

theorem runMicros_append (ms ns : List MicroOp) (s : State) :
    runMicros (ms ++ ns) s = (runMicros ms s).andThen (runMicros ns) := by
  induction ms generalizing s with
  | nil => rfl
  | cons m ms ih =>
    simp only [List.cons_append, runMicros_cons, Flow.andThen_assoc]
    congr 1
    exact funext ih

/-- P is kept by everything that an event list does. -/
structure KeptByEvents (P : State → Prop) : Prop where
  opr : ∀ s v, P s → P (s.loadOpr v)
  ok : ∀ s t, P s → Issued s t → P ((s.popAnswer.deliver t).record (.bus t))
  fail : ∀ s t, P s → Issued s t → P (s.popAnswer.takeBusFault t)
  wait : ∀ s ms, P s → P (s.record (.delay ms))

theorem KeptByEvents.transact {P : State → Prop} (h : KeptByEvents P) {s : State} {t : Transaction} (hs : P s)
    (ht : Issued s t) : P (transact t s).state := by
  rcases transact_cases t s with ⟨-, e⟩ | ⟨-, e⟩
  · rw [e]; exact h.ok s t hs ht
  · rw [e]; exact h.fail s t hs ht

theorem KeptByEvents.micro {P : State → Prop} (h : KeptByEvents P) (m : MicroOp) {s : State} (hs : P s) :
    P (runMicro m s).state := by
  rcases runMicro_cases m s with ⟨t, ht, e | ⟨v, e⟩⟩ | ⟨ms, e⟩ | e
  · rw [e]; exact h.transact hs ht
  · rw [e]
    refine h.transact (h.opr s v hs) ?_
    cases ht with
    | seed => exact .seed
    | direction => exact .direction
    | gpio asserted bl rs nib => exact .gpio asserted bl rs nib
  · rw [e]; exact h.wait s ms hs
  · rw [e]; exact hs

/-- The induction over an event list, once. -/
theorem KeptByEvents.micros {P : State → Prop} (h : KeptByEvents P) (ms : List MicroOp) {s : State} (hs : P s) :
    P (runMicros ms s).state := by
  induction ms generalizing s with
  | nil => exact hs
  | cons m ms ih => exact Flow.andThen_keeps (h.micro m hs) fun _ hs' => ih hs'

/-! ### Whole operations -/

/-- P is kept by everything that an operation in progress does: event lists and the updates between them. -/
structure KeptByRuns (P : State → Prop) : Prop extends KeptByEvents P where
  begin : ∀ s o v b, P s → P ((s.beginTransport o).loadLatches v b)
  beginLevel : ∀ s o b, P s → P ((s.beginTransport o).setBacklight b)
  endOp : ∀ s, P s → P s.endTransport
  handoff : ∀ s, P s → P s.enterHandoff
  base : ∀ s ts, P s → P (s.withBase ts)
  final : ∀ s, P s → P s.enterFinal
  finish : ∀ s, P s → P s.finishInit

/-- P is kept by everything that an instruction does. -/
structure KeptByExec (P : State → Prop) : Prop extends KeptByRuns P where
  report : ∀ s r, P s → P (s.report r)
  releaseOpr : ∀ s, P s → P s.releaseOpr
  accept : ∀ s p, P s → P (s.acceptInit p)

/-- P is kept by everything that a step does. -/
structure KeptBySteps (P : State → Prop) : Prop extends KeptByExec P where
  taken : ∀ s ins, P s → P (s.withInputs ins)
  hardwareReset : ∀ s, P s → P s.hardwareReset

section

variable {P : State → Prop} {s : State}

theorem KeptByRuns.finishTransport (h : KeptByRuns P) (hs : P s) (events : List MicroOp) :
    P (finishTransport events s).state :=
  Flow.andThen_keeps (h.toKeptByEvents.micros _ hs) fun s' hs' => h.endOp s' hs'

theorem KeptByRuns.baseRequest (h : KeptByRuns P) (hs : P s) (t : TransportOp) : P (baseRequest t s).state := by
  cases t with
  | writeCommand cmd => exact h.finishTransport (h.begin s _ _ _ hs) _
  | writeData byte => exact h.finishTransport (h.begin s _ _ _ hs) _
  | backlightOn operand => exact h.finishTransport (h.beginLevel s _ _ hs) _
  | backlightOff operand => exact h.finishTransport (h.beginLevel s _ _ hs) _

theorem KeptByRuns.runBase (h : KeptByRuns P) (hs : P s) (ts : List TransportOp) : P (runBase ts s).state := by
  induction ts generalizing s with
  | nil => exact hs
  | cons t ts ih => exact Flow.andThen_keeps (h.baseRequest (h.base s ts hs) t) fun _ hs' => ih hs'

theorem KeptByRuns.runFinal (h : KeptByRuns P) (hs : P s) : P (runFinal s).state :=
  Flow.andThen_keeps (h.toKeptByEvents.micros _ hs) fun s' hs' => h.finish s' hs'

theorem KeptByRuns.runHandoff (h : KeptByRuns P) (hs : P s) : P (runHandoff s).state :=
  Flow.andThen_keeps (h.runBase hs _) fun s' hs' => h.runFinal (h.final s' hs')

theorem KeptByRuns.runInit (h : KeptByRuns P) (hs : P s) : P (runInit s).state :=
  Flow.andThen_keeps (h.toKeptByEvents.micros _ hs) fun s' hs' => h.runHandoff (h.handoff s' hs')

theorem KeptByRuns.resume (h : KeptByRuns P) (hs : P s) : P s.resume := by
  unfold State.resume
  split
  · exact hs
  · exact h.runInit hs
  · split
    · exact h.runHandoff hs
    · exact Flow.andThen_keeps (h.finishTransport hs _) fun _ hs' => h.runHandoff hs'
  · exact h.runFinal hs
  · exact h.finishTransport hs _

/-- A transport request: run whole, Refused, or not taken. -/
theorem KeptByExec.transportRequest (h : KeptByExec P) (hs : P s) {run : State → Flow} (hrun : P (run s).state) {t : State}
    (ht : (match s.transportAcceptance with
      | .take => Host.Outcome.next (run s).state
      | .refuse => .next s.takeRefused
      | .wait => (.next s : Host.Outcome State Fault Refusal)) = .next t) : P t := by
  split at ht <;> cases ht
  · exact hrun
  · exact h.report s _ hs
  · exact hs

/-- The case split over the operations, once: what holds before exec holds in the next state. -/
theorem KeptByExec.exec (h : KeptByExec P) (hs : P s) {i : Instr} {t : State} (ht : Machine.exec i s = .next t) : P t := by
  cases i with
  | init operand p =>
    simp only [Machine.exec, execInit] at ht
    split at ht
    · split at ht <;> cases ht
      · exact h.report s _ hs
      · exact h.toKeptByRuns.runInit (h.accept s p hs)
    · cases ht; exact hs
  | writeCommand cmd => exact h.transportRequest hs (h.toKeptByRuns.baseRequest hs (.writeCommand cmd)) ht
  | writeData byte => exact h.transportRequest hs (h.toKeptByRuns.baseRequest hs (.writeData byte)) ht
  | backlightOn operand => exact h.transportRequest hs (h.toKeptByRuns.baseRequest hs (.backlightOn operand)) ht
  | backlightOff operand => exact h.transportRequest hs (h.toKeptByRuns.baseRequest hs (.backlightOff operand)) ht
  | nibbleInit code =>
    simp only [Machine.exec, execNibbleInit] at ht
    split at ht
    · cases ht
      exact Flow.andThen_keeps (h.toKeptByEvents.micros _ hs) fun s' hs' => h.releaseOpr s' hs'
    · split at ht <;> cases ht
      · exact h.report s _ hs
      · exact hs
  | reserved op operand =>
    simp only [Machine.exec, execReserved] at ht
    split at ht <;> cases ht
    · exact h.report s _ hs
    · exact hs

/-- The induction over a step, once: "every update keeps it, so every step keeps it". -/
theorem KeptBySteps.step (h : KeptBySteps P) (hs : P s) {t : State} (ht : Machine.step s = .next t) : P t := by
  unfold Machine.step at ht
  split at ht
  · split at ht
    · cases ht
    · cases ht; exact h.toKeptByRuns.resume hs
    · split at ht
      · cases ht; exact hs
      · cases ht; exact h.hardwareReset _ (h.taken s _ hs)
      · split at ht
        · exact h.toKeptByExec.exec (h.taken s _ hs) ht
        · cases ht
  · cases ht

end

end Sys2Proof.Machine
end

