-- ==== Sys2Proof/Laws/Events.lean ====
section
/-! SUPPORT. What an event list does, said once: the events it emits when every transaction is ok (`runMicros_ok`), and where
it is cut when one fails (`runMicros_fail`). The provers cite these instead of unfolding `runMicros`. -/

namespace Sys2Proof.Machine

/-! ### Traces -/

theorem transactions_append (es fs : List Event) : transactions (es ++ fs) = transactions es + transactions fs := by
  induction es with
  | nil => simp [transactions]
  | cons e es ih => cases e <;> simp [transactions, ih] <;> omega

theorem leastMillis_append (es fs : List Event) : leastMillis (es ++ fs) = leastMillis es + leastMillis fs := by
  induction es with
  | nil => simp [leastMillis]
  | cons e es ih => cases e <;> simp [leastMillis, ih]; omega

/-! ### The target replays the trace -/

/-- What the target side makes of a list of events (R40 to R44). -/
def State.replay : State → List Event → State
  | s, [] => s
  | s, .bus t :: es => (s.deliver t).replay es
  | s, .delay _ :: es => s.replay es
  | s, .handoff :: es => s.replay es
  | s, .fail _ _ _ :: es => s.replay es

/-- The target side of a state: everything that `deliver` reads or writes. -/
def State.target (s : State) : Config × Memory × Nat × Iface × List LatchedNibble × Nat :=
  (s.cfg, s.regs, s.epoch, s.iface, s.latched, s.draws)

theorem State.target_eq_iff {s t : State} : s.target = t.target ↔
    s.cfg = t.cfg ∧ s.regs = t.regs ∧ s.epoch = t.epoch ∧ s.iface = t.iface ∧ s.latched = t.latched ∧ s.draws = t.draws := by
  simp [State.target]

theorem State.deliver_target {s t : State} (h : s.target = t.target) (x : Transaction) :
    (s.deliver x).target = (t.deliver x).target := by
  obtain ⟨h1, h2, h3, h4, h5, h6⟩ := State.target_eq_iff.1 h
  cases x with
  | raw a bs =>
    cases bs with
    | nil => exact h
    | cons p data =>
      by_cases hd : p.toNat + data.length ≤ registerSpace <;>
        simp [State.deliver, State.storeRaw, hd, State.target, h1, h2, h3, h4, h5, h6]
  | reg a r v =>
    have hl : s.lat = t.lat := by simp [State.lat, State.regByte, h1, h2, h3]
    simp [State.deliver, State.target, h1, h2, h3, h4, h5, h6, hl]

theorem State.replay_target {s t : State} (h : s.target = t.target) (es : List Event) :
    (s.replay es).target = (t.replay es).target := by
  induction es generalizing s t with
  | nil => exact h
  | cons e es ih =>
    cases e with
    | bus x => exact ih (State.deliver_target h x)
    | delay _ => exact ih h
    | handoff => exact ih h
    | fail _ _ _ => exact ih h

theorem State.replay_append (s : State) (es fs : List Event) : s.replay (es ++ fs) = (s.replay es).replay fs := by
  induction es generalizing s with
  | nil => rfl
  | cons e es ih => cases e <;> exact ih _

/-! ### A run of events -/

/-- From s to t exactly the events es have happened, and nothing else but what the latches OPR was loaded with: the trace
and STEP have grown by them, their answers are used up, the target has replayed them. -/
structure Ran (s t : State) (es : List Event) : Prop where
  trace : t.trace = s.trace ++ es
  step : t.step = s.step + es.length
  answerAt : ∀ k, t.answerAt k = s.answerAt (k + transactions es)
  target : t.target = (s.replay es).target
  bl : t.bl = s.bl
  rsl : t.rsl = s.rsl
  addr : t.addr = s.addr
  lines : t.lines = s.lines
  cols : t.cols = s.cols
  phase : t.phase = s.phase
  op : t.op = s.op
  fault : t.fault = s.fault
  err : t.err = s.err
  blDefault : t.blDefault = s.blDefault
  baseOps : t.baseOps = s.baseOps
  inputs : t.inputs = s.inputs

theorem Ran.refl (s : State) : Ran s s [] := by constructor <;> simp [transactions, State.replay]

theorem Ran.trans {s t u : State} {es fs : List Event} (h : Ran s t es) (h' : Ran t u fs) : Ran s u (es ++ fs) where
  trace := by rw [h'.trace, h.trace, List.append_assoc]
  step := by rw [h'.step, h.step, List.length_append]; omega
  answerAt k := by rw [h'.answerAt, h.answerAt, transactions_append]; congr 1; omega
  target := by rw [h'.target, State.replay_append]; exact State.replay_target h.target fs
  bl := h'.bl.trans h.bl
  rsl := h'.rsl.trans h.rsl
  addr := h'.addr.trans h.addr
  lines := h'.lines.trans h.lines
  cols := h'.cols.trans h.cols
  phase := h'.phase.trans h.phase
  op := h'.op.trans h.op
  fault := h'.fault.trans h.fault
  err := h'.err.trans h.err
  blDefault := h'.blDefault.trans h.blDefault
  baseOps := h'.baseOps.trans h.baseOps
  inputs := h'.inputs.trans h.inputs

theorem State.replay_cfg (s : State) (es : List Event) : (s.replay es).cfg = s.cfg := by
  induction es generalizing s with
  | nil => rfl
  | cons e es ih => cases e <;> simp [State.replay, ih]

theorem Ran.cfg {s t : State} {es : List Event} (h : Ran s t es) : t.cfg = s.cfg :=
  (State.target_eq_iff.1 h.target).1.trans (State.replay_cfg s es)

/-- OPR may be loaded before a run. -/
theorem Ran.ofLoad {s t : State} {v : Byte} {es : List Event} (h : Ran (s.loadOpr v) t es) : Ran s t es := by
  refine { h with target := ?_, answerAt := h.answerAt }
  rw [h.target]
  exact State.replay_target (s := s.loadOpr v) (t := s) rfl es

theorem Ran.transact (s : State) (x : Transaction) : Ran s ((s.popAnswer.deliver x).record (.bus x)) [.bus x] := by
  constructor <;> simp [transactions, State.replay, State.answerAt]
  · intro k; rw [Nat.add_assoc, Nat.add_comm 1 k]
  · exact State.deliver_target (s := s.popAnswer) (t := s) rfl x

theorem Ran.wait (s : State) (ms : Nat) : Ran s (s.record (.delay ms)) [.delay ms] := by
  constructor <;> simp [transactions, State.replay, State.answerAt]
  rfl

/-! ### What an event list emits -/

/-- The event that an entry of an event list stands for in s; none for a delay that does not apply. -/
def planned (s : State) : MicroOp → List Event
  | .seed => [.bus (.raw s.addr s.cfg.seedBytes)]
  | .direction => [.bus (.reg s.addr s.cfg.regIodir (dirValue s.cfg))]
  | .delay ms => [.delay ms]
  | .nibble code asserted =>
    [gpioWrite s.cfg s.addr (withStrobe s.cfg asserted (compose s.cfg false false (hiNibble code)))]
  | .strobe high asserted =>
    [gpioWrite s.cfg s.addr (withStrobe s.cfg asserted
      (compose s.cfg s.backlight s.rsl (if high then hiNibble s.opr else loNibble s.opr)))]
  | .level => [gpioWrite s.cfg s.addr (compose s.cfg s.backlight false 0)]
  | .clearDelay => if isClearHome s.opr then [.delay tClear] else []

/-- Entries whose events do not depend on the latches and the flag: those of INIT's handshake. -/
def MicroOp.isFixed : MicroOp → Bool
  | .seed => true
  | .direction => true
  | .delay _ => true
  | .nibble _ _ => true
  | .strobe _ _ => false
  | .level => false
  | .clearDelay => false

/-- Entries that leave OPR and the flag's reading alone: those of the transport operations. -/
def MicroOp.isSteady : MicroOp → Bool
  | .seed => false
  | .direction => true
  | .delay _ => true
  | .nibble _ _ => false
  | .strobe _ _ => true
  | .level => true
  | .clearDelay => true

/-- The list is one whose events are settled at its start. -/
def Settles (ms : List MicroOp) : Prop := (∀ m ∈ ms, m.isFixed = true) ∨ (∀ m ∈ ms, m.isSteady = true)

theorem Settles.tail {m : MicroOp} {ms : List MicroOp} (h : Settles (m :: ms)) : Settles ms :=
  h.imp (fun h x hx => h x (List.mem_cons_of_mem m hx)) fun h x hx => h x (List.mem_cons_of_mem m hx)

/-- Everything one entry can do, with its event. -/
theorem runMicro_planned (m : MicroOp) (s : State) :
    (planned s m = [] ∧ runMicro m s = .goes s) ∨
      (∃ ms, planned s m = [.delay ms] ∧ runMicro m s = .goes (s.record (.delay ms))) ∨
      (∃ x, planned s m = [.bus x] ∧ (runMicro m s = transact x s ∨
        ∃ v, m.isSteady = false ∧ runMicro m s = transact x (s.loadOpr v))) := by
  cases m with
  | seed => exact .inr (.inr ⟨_, rfl, .inl rfl⟩)
  | direction => exact .inr (.inr ⟨_, rfl, .inl rfl⟩)
  | delay ms => exact .inr (.inl ⟨ms, rfl, rfl⟩)
  | nibble code asserted => exact .inr (.inr ⟨_, rfl, .inr ⟨code, rfl, rfl⟩⟩)
  | strobe high asserted => exact .inr (.inr ⟨_, rfl, .inl rfl⟩)
  | level => exact .inr (.inr ⟨_, rfl, .inl rfl⟩)
  | clearDelay =>
    by_cases h : isClearHome s.opr = true
    · exact .inr (.inl ⟨tClear, by simp [planned, h], by simp [runMicro, h, delay]⟩)
    · exact .inl ⟨by simp [planned, h], by simp [runMicro, h]⟩

/-- The fields that the planned events of a steady entry depend on. -/
theorem planned_congr {s t : State} (h1 : t.cfg = s.cfg) (h2 : t.addr = s.addr) (m : MicroOp)
    (h : m.isFixed = true ∨ (t.backlight = s.backlight ∧ t.rsl = s.rsl ∧ t.opr = s.opr)) : planned t m = planned s m := by
  rcases h with h | ⟨h3, h4, h5⟩
  · cases m <;> simp_all [planned, MicroOp.isFixed]
  · cases m <;> simp [planned, h1, h2, h3, h4, h5]

/-- A successful entry of a steady list leaves OPR and the flag's reading alone. -/
theorem runMicro_steady {m : MicroOp} (hm : m.isSteady = true) {s t : State} (h : runMicro m s = .goes t) :
    t.backlight = s.backlight ∧ t.rsl = s.rsl ∧ t.opr = s.opr := by
  rcases runMicro_planned m s with ⟨-, e⟩ | ⟨ms, -, e⟩ | ⟨x, hx, e | ⟨v, hv, -⟩⟩
  · rw [e] at h; cases h; exact ⟨rfl, rfl, rfl⟩
  · rw [e] at h; cases h; exact ⟨rfl, rfl, rfl⟩
  · rw [e] at h
    have hd : ∀ u : State, (u.deliver x).draws = u.draws := by
      cases m <;> simp only [planned, gpioWrite, List.cons.injEq, Event.bus.injEq, MicroOp.isSteady] at hx hm
      all_goals first
        | (cases hm; done)
        | (obtain ⟨rfl, -⟩ := hx; intro u; rfl)
        | (split at hx <;> simp at hx)
        | simp at hx
    rcases transact_cases x s with ⟨-, e'⟩ | ⟨-, e'⟩
    · rw [e'] at h; cases h; exact ⟨by simp [State.backlight, hd], by simp, by simp⟩
    · rw [e'] at h; cases h
  · exact absurd hm (by simp [hv])

/-- The planned events of the rest of a list, after its first entry has succeeded. -/
theorem planned_rest {m : MicroOp} {ms : List MicroOp} (hs : Settles (m :: ms)) {s t : State}
    (h : runMicro m s = .goes t) (h1 : t.cfg = s.cfg) (h2 : t.addr = s.addr) :
    ms.flatMap (planned t) = ms.flatMap (planned s) := by
  refine List.flatMap_congr fun x hx => planned_congr h1 h2 x ?_
  rcases hs with hs | hs
  · exact .inl (hs x (List.mem_cons_of_mem m hx))
  · exact .inr (runMicro_steady (hs m (List.mem_cons_self ..)) h)

/-- One entry whose transaction, if it has one, is ok. -/
theorem runMicro_ok {m : MicroOp} {s : State} (h : s.AnswersOk (transactions (planned s m))) :
    ∃ t, runMicro m s = .goes t ∧ Ran s t (planned s m) := by
  rcases runMicro_planned m s with ⟨hp, e⟩ | ⟨ms, hp, e⟩ | ⟨x, hp, e⟩
  · exact ⟨s, e, by rw [hp]; exact .refl s⟩
  · exact ⟨_, e, by rw [hp]; exact .wait s ms⟩
  · have h0 : s.answerAt 0 = .ok := h 0 (by simp [hp, transactions])
    rw [hp]
    rcases e with e | ⟨v, -, e⟩
    · exact ⟨_, e.trans (transact_ok h0 x), .transact s x⟩
    · exact ⟨_, e.trans (transact_ok (s := s.loadOpr v) h0 x), (Ran.transact (s.loadOpr v) x).ofLoad⟩

/-- WHAT AN EVENT LIST DOES when its transactions are ok: it goes on, and exactly its planned events have happened. -/
theorem runMicros_ok {ms : List MicroOp} (hs : Settles ms) {s : State}
    (h : s.AnswersOk (transactions (ms.flatMap (planned s)))) :
    ∃ t, runMicros ms s = .goes t ∧ Ran s t (ms.flatMap (planned s)) := by
  induction ms generalizing s with
  | nil => exact ⟨s, rfl, .refl s⟩
  | cons m ms ih =>
    rw [List.flatMap_cons, transactions_append] at h
    obtain ⟨t, e, hr⟩ := runMicro_ok (m := m) (s := s) fun k hk => h k (by omega)
    have hp := planned_rest hs e hr.cfg hr.addr
    have ht : t.AnswersOk (transactions (ms.flatMap (planned t))) := fun k hk => by
      rw [hr.answerAt]; rw [hp] at hk; exact h _ (by omega)
    obtain ⟨u, e', hr'⟩ := ih hs.tail ht
    rw [hp] at hr'
    exact ⟨u, by rw [runMicros_cons, e]; exact e', by rw [List.flatMap_cons]; exact hr.trans hr'⟩

/-- WHERE AN EVENT LIST IS CUT: at its n-th transaction, the first that fails. The events before it have happened (OPR may
have been loaded for the failing one), then the BusFault is taken. -/
theorem runMicros_fail {ms : List MicroOp} (hs : Settles ms) {n : Nat} {s : State}
    (hn : n < transactions (ms.flatMap (planned s))) (h : s.FailsAt n) :
    ∃ t pre x post, ms.flatMap (planned s) = pre ++ .bus x :: post ∧ transactions pre = n ∧ Ran s t pre ∧
      (runMicros ms s = .stopped (t.popAnswer.takeBusFault x) ∨
        ∃ v, (∃ m ∈ ms, m.isSteady = false) ∧ runMicros ms s = .stopped ((t.loadOpr v).popAnswer.takeBusFault x)) := by
  induction ms generalizing s n with
  | nil => exact absurd hn (Nat.not_lt_zero _)
  | cons m ms ih =>
    rw [List.flatMap_cons, transactions_append] at hn
    by_cases hm : n < transactions (planned s m)
    · rcases runMicro_planned m s with ⟨hp, -⟩ | ⟨ms', hp, -⟩ | ⟨x, hp, e⟩
      · simp [hp, transactions] at hm
      · simp [hp, transactions] at hm
      · have hn0 : n = 0 := by simp [hp, transactions] at hm; exact hm
        subst hn0
        refine ⟨s, [], x, ms.flatMap (planned s), by simp [hp], rfl, .refl s, ?_⟩
        rcases e with e | ⟨v, hv, e⟩
        · exact .inl (by rw [runMicros_cons, e, transact_fail h.2]; rfl)
        · exact .inr ⟨v, ⟨m, List.mem_cons_self .., hv⟩, by
            rw [runMicros_cons, e, transact_fail (s := s.loadOpr v) h.2]; rfl⟩
    · obtain ⟨t, e, hr⟩ := runMicro_ok (m := m) (s := s) fun k hk => h.1 k (by omega)
      have hp := planned_rest hs e hr.cfg hr.addr
      obtain ⟨u, pre, x, post, h1, h2, h3, h4⟩ := ih (n := n - transactions (planned s m)) hs.tail
        (by rw [hp]; omega)
        ⟨fun k hk => by rw [hr.answerAt]; exact h.1 _ (by omega),
          by rw [hr.answerAt, Nat.sub_add_cancel (by omega)]; exact h.2⟩
      refine ⟨u, planned s m ++ pre, x, post, by rw [List.flatMap_cons, ← hp, h1, List.append_assoc], ?_, hr.trans h3, ?_⟩
      · rw [transactions_append, h2]; omega
      · rw [runMicros_cons, e]
        exact h4.imp_right fun ⟨v, ⟨x, hx, hx'⟩, hv⟩ => ⟨v, ⟨x, List.mem_cons_of_mem m hx, hx'⟩, hv⟩

/-- A steady list is cut without OPR having been loaded. -/
theorem runMicros_fail_steady {ms : List MicroOp} (hs : ∀ m ∈ ms, m.isSteady = true) {n : Nat} {s : State}
    (hn : n < transactions (ms.flatMap (planned s))) (h : s.FailsAt n) :
    ∃ t pre x post, ms.flatMap (planned s) = pre ++ .bus x :: post ∧ transactions pre = n ∧ Ran s t pre ∧
      runMicros ms s = .stopped (t.popAnswer.takeBusFault x) := by
  obtain ⟨t, pre, x, post, h1, h2, h3, h4 | ⟨v, ⟨m, hm, hm'⟩, -⟩⟩ := runMicros_fail (.inr hs) hn h
  · exact ⟨t, pre, x, post, h1, h2, h3, h4⟩
  · exact absurd (hs m hm) (by simp [hm'])

end Sys2Proof.Machine
end

