-- ==== Sys2Proof/Laws/Operations.lean ====
section
/-! SUPPORT. What the whole operations do, said once each: a transport operation, the base's list, INIT from a given point
(spec/40 to spec/43). -/

namespace Sys2Proof.Machine

/-! ### The transport operations -/

/-- The state in which a transport operation's event list starts (R91, R92, R100, R101). -/
def State.begun (s : State) : TransportOp → State
  | .writeCommand cmd => (s.beginTransport .writeCommand).loadLatches cmd false
  | .writeData byte => (s.beginTransport .writeData).loadLatches byte true
  | .backlightOn _ => (s.beginTransport .backlightOn).setBacklight true
  | .backlightOff _ => (s.beginTransport .backlightOff).setBacklight false

@[simp] theorem State.begun_cfg (s : State) (q : TransportOp) : (s.begun q).cfg = s.cfg := by cases q <;> rfl
@[simp] theorem State.begun_addr (s : State) (q : TransportOp) : (s.begun q).addr = s.addr := by cases q <;> rfl
@[simp] theorem State.begun_lines (s : State) (q : TransportOp) : (s.begun q).lines = s.lines := by cases q <;> rfl
@[simp] theorem State.begun_cols (s : State) (q : TransportOp) : (s.begun q).cols = s.cols := by cases q <;> rfl
@[simp] theorem State.begun_phase (s : State) (q : TransportOp) : (s.begun q).phase = s.phase := by cases q <;> rfl
@[simp] theorem State.begun_fault (s : State) (q : TransportOp) : (s.begun q).fault = s.fault := by cases q <;> rfl
@[simp] theorem State.begun_err (s : State) (q : TransportOp) : (s.begun q).err = s.err := by cases q <;> rfl
@[simp] theorem State.begun_blDefault (s : State) (q : TransportOp) : (s.begun q).blDefault = s.blDefault := by cases q <;> rfl
@[simp] theorem State.begun_baseOps (s : State) (q : TransportOp) : (s.begun q).baseOps = s.baseOps := by cases q <;> rfl
@[simp] theorem State.begun_regs (s : State) (q : TransportOp) : (s.begun q).regs = s.regs := by cases q <;> rfl
@[simp] theorem State.begun_epoch (s : State) (q : TransportOp) : (s.begun q).epoch = s.epoch := by cases q <;> rfl
@[simp] theorem State.begun_iface (s : State) (q : TransportOp) : (s.begun q).iface = s.iface := by cases q <;> rfl
@[simp] theorem State.begun_latched (s : State) (q : TransportOp) : (s.begun q).latched = s.latched := by cases q <;> rfl
@[simp] theorem State.begun_inputs (s : State) (q : TransportOp) : (s.begun q).inputs = s.inputs := by cases q <;> rfl
@[simp] theorem State.begun_answers (s : State) (q : TransportOp) : (s.begun q).answers = s.answers := by cases q <;> rfl
@[simp] theorem State.begun_sent (s : State) (q : TransportOp) : (s.begun q).sent = s.sent := by cases q <;> rfl
@[simp] theorem State.begun_draws (s : State) (q : TransportOp) : (s.begun q).draws = s.draws := by cases q <;> rfl
@[simp] theorem State.begun_trace (s : State) (q : TransportOp) : (s.begun q).trace = s.trace := by cases q <;> rfl
@[simp] theorem State.begun_step (s : State) (q : TransportOp) : (s.begun q).step = 0 := by cases q <;> rfl
@[simp] theorem State.begun_op (s : State) (q : TransportOp) : (s.begun q).op = transportOp q := by cases q <;> rfl
@[simp] theorem State.begun_bl (s : State) (q : TransportOp) : (s.begun q).bl = transportFlag s q := by cases q <;> rfl
@[simp] theorem State.begun_answerAt (s : State) (q : TransportOp) (k : Nat) :
    (s.begun q).answerAt k = s.answerAt k := by cases q <;> rfl
@[simp] theorem State.begun_regByte (s : State) (q : TransportOp) (k : Nat) :
    (s.begun q).regByte k = s.regByte k := by cases q <;> rfl
@[simp] theorem transportTrace_withBase (s : State) (ts : List TransportOp) (q : TransportOp) :
    transportTrace (s.withBase ts) q = transportTrace s q := by cases q <;> rfl

/-- The event list of a transport request. -/
def requestEvents : TransportOp → List MicroOp
  | .writeCommand _ => commandEvents
  | .writeData _ => dataEvents
  | .backlightOn _ => levelEvents
  | .backlightOff _ => levelEvents

theorem baseRequest_eq (q : TransportOp) (s : State) :
    baseRequest q s = (runMicros (requestEvents q) (s.begun q)).andThen fun s' => .goes s'.endTransport := by
  cases q <;> rfl

theorem isClearHome_iff (cmd : Byte) : isClearHome cmd = true ↔ cmd.toNat ≤ 3 := by
  simp [isClearHome, clearHomeMax, BitVec.le_def]

theorem requestEvents_steady (q : TransportOp) : ∀ m ∈ requestEvents q, m.isSteady = true := by
  cases q <;> simp [requestEvents, commandEvents, dataEvents, byteEvents, levelEvents, MicroOp.isSteady]

/-- A WRITE_COMMAND's list from its index k on (R91, R79). -/
theorem settles_commandEvents_drop (k : Nat) : Settles (commandEvents.drop k) :=
  .inr fun m hm => (show ∀ m ∈ commandEvents, m.isSteady = true by decide) m (List.mem_of_mem_drop hm)

theorem planned_commandEvents (s : State) (h : s.rsl = false) :
    commandEvents.flatMap (planned s) = commandTrace s.cfg s.addr s.backlight s.opr := by
  by_cases hc : s.opr.toNat ≤ 3
  · simp [commandEvents, byteEvents, planned, commandTrace, bytePairs, strobePair, withStrobe, h, hc,
      (isClearHome_iff s.opr).2 hc, tClear]
  · have hc' : isClearHome s.opr = false := by rw [← Bool.not_eq_true, isClearHome_iff]; exact hc
    simp [commandEvents, byteEvents, planned, commandTrace, bytePairs, strobePair, withStrobe, h, hc, hc']

/-- The planned events of a transport request are the trace its rule gives. -/
theorem planned_requestEvents (q : TransportOp) (s : State) :
    (requestEvents q).flatMap (planned (s.begun q)) = transportTrace s q := by
  cases q with
  | writeCommand cmd => exact planned_commandEvents _ rfl
  | writeData byte =>
    simp [requestEvents, dataEvents, byteEvents, planned, transportTrace, dataTrace, bytePairs, strobePair, withStrobe,
      State.begun, State.backlight]
  | backlightOn operand =>
    simp [requestEvents, levelEvents, planned, transportTrace, levelTrace, State.begun, State.backlight]
  | backlightOff operand =>
    simp [requestEvents, levelEvents, planned, transportTrace, levelTrace, State.begun, State.backlight]

/-- WHAT A TRANSPORT OPERATION DOES when its transactions are ok. -/
theorem baseRequest_ok (q : TransportOp) {s : State} (h : s.AnswersOk (transactions (transportTrace s q))) :
    ∃ t, baseRequest q s = .goes t.endTransport ∧ Ran (s.begun q) t (transportTrace s q) := by
  have hb : (s.begun q).AnswersOk (transactions ((requestEvents q).flatMap (planned (s.begun q)))) := by
    rw [planned_requestEvents]
    exact fun k hk => by simpa using h k hk
  obtain ⟨t, e, hr⟩ := runMicros_ok (.inr (requestEvents_steady q)) hb
  rw [planned_requestEvents] at hr
  exact ⟨t, by rw [baseRequest_eq, e]; rfl, hr⟩

/-- WHERE A TRANSPORT OPERATION IS CUT. -/
theorem baseRequest_fail (q : TransportOp) {n : Nat} {s : State} (hn : n < transactions (transportTrace s q))
    (h : s.FailsAt n) :
    ∃ t pre x post, transportTrace s q = pre ++ .bus x :: post ∧ transactions pre = n ∧ Ran (s.begun q) t pre ∧
      baseRequest q s = .stopped (t.popAnswer.takeBusFault x) := by
  have hb : (s.begun q).FailsAt n := by simpa [State.FailsAt, State.AnswersOk] using h
  rw [← planned_requestEvents q s] at hn
  obtain ⟨t, pre, x, post, h1, h2, h3, h4⟩ := runMicros_fail_steady (requestEvents_steady q) hn hb
  rw [planned_requestEvents] at h1
  exact ⟨t, pre, x, post, h1, h2, h3, by rw [baseRequest_eq, h4]; rfl⟩

/-- A transport request that the port takes runs whole. -/
theorem exec_transportInstr (q : TransportOp) {s : State} (h : s.takesTransport) :
    exec (transportInstr q) s = .next (baseRequest q s).state := by
  have ha : s.transportAcceptance = .take := if_pos h
  cases q <;>
    simp [exec, transportInstr, execWriteCommand, execWriteData, execBacklightOn, execBacklightOff, ha, baseRequest]

/-- An INIT request that the port takes with valid parameters runs from its acceptance (R71). -/
theorem exec_init_taken (operand : Byte) {p : InitParams} {s : State} (h : s.takesInit) (h1 : p.lines ≠ 0)
    (h2 : p.cols ≠ 0) : exec (.init operand p) s = .next (runInit (s.acceptInit p)).state := by
  have h' : (s.phase = .unbuilt ∨ s.phase = .ready) ∧ s.op = .none := h
  have hp : ¬ (p.lines = 0 ∨ p.cols = 0) := fun e => e.elim h1 h2
  rw [exec, execInit, if_pos h', if_neg hp]

/-! ### The base's list -/

/-- From s, suspended at the hand-off, to t the base's requests ts have run whole, the flag being b at their start (R78). -/
structure BaseRan (s t : State) (b : Bool) (ts : List TransportOp) : Prop where
  trace : t.trace = s.trace ++ baseTrace s.cfg s.addr b ts
  bl : t.bl = some (baseBacklight b ts)
  phase : t.phase = .handoff
  op : t.op = .init
  step : t.step = 15
  cfg : t.cfg = s.cfg
  addr : t.addr = s.addr
  lines : t.lines = s.lines
  cols : t.cols = s.cols
  fault : t.fault = s.fault
  inputs : t.inputs = s.inputs
  answerAt : ∀ k, t.answerAt k = s.answerAt (k + transactions (baseTrace s.cfg s.addr b ts))

/-- The base's list, split at its first request. -/
theorem baseTrace_cons {s : State} {b : Bool} (hb : s.bl = some b) (q : TransportOp) (ts : List TransportOp) :
    ∃ b', transportFlag s q = some b' ∧ baseBacklight b (q :: ts) = baseBacklight b' ts ∧
      baseTrace s.cfg s.addr b (q :: ts) = transportTrace s q ++ baseTrace s.cfg s.addr b' ts := by
  have hbl : s.backlight = b := by simp [State.backlight, hb]
  cases q <;> simp [transportFlag, baseBacklight, baseTrace, transportTrace, hb, hbl]

/-- WHAT THE BASE'S LIST DOES when its transactions are ok (R78). -/
theorem runBase_ok (ts : List TransportOp) {s : State} {b : Bool} (hb : s.bl = some b) (hp : s.phase = .handoff)
    (ho : s.op = .init) (hs : s.step = 15) (h : s.AnswersOk (transactions (baseTrace s.cfg s.addr b ts))) :
    ∃ t, runBase ts s = .goes t ∧ BaseRan s t b ts := by
  induction ts generalizing s b with
  | nil => exact ⟨s, rfl, by constructor <;> simp [*, baseTrace, baseBacklight, transactions]⟩
  | cons q ts ih =>
    obtain ⟨b', hq, hflag, htrace⟩ := baseTrace_cons hb q ts
    rw [htrace, transactions_append] at h
    obtain ⟨t, e, hr⟩ := baseRequest_ok q (s := s.withBase ts) fun k hk => h k (by simp at hk; omega)
    rw [transportTrace_withBase] at hr
    have hc : t.cfg = s.cfg := by simp [hr.cfg]
    have ha : t.addr = s.addr := by simp [hr.addr]
    have hph : t.phase = .handoff := by simp [hr.phase, hp]
    have han : ∀ k, t.endTransport.answerAt k = s.answerAt (k + transactions (transportTrace s q)) := fun k => by
      rw [State.answerAt_congr (s := t) (by simp) (by simp), hr.answerAt, State.begun_answerAt]
      exact State.answerAt_congr (by simp) (by simp) _
    have hbl : t.endTransport.bl = some b' := by
      rw [State.endTransport_bl, hr.bl, State.begun_bl, ← hq]; cases q <;> rfl
    obtain ⟨u, e', hu⟩ := ih hbl (by simp [hph]) (by simp [hph]) (by simp [hph]) fun k hk => by
      rw [han]; exact h _ (by simp [hc, ha] at hk; omega)
    refine ⟨u, by rw [runBase, e]; exact e', ?_⟩
    constructor
    · rw [hu.trace, htrace]; simp [hr.trace, hc, ha]
    · rw [hu.bl, hflag]
    · exact hu.phase
    · exact hu.op
    · exact hu.step
    · simp [hu.cfg, hc]
    · simp [hu.addr, ha]
    · simp [hu.lines, hr.lines]
    · simp [hu.cols, hr.cols]
    · simp [hu.fault, hr.fault]
    · simp [hu.inputs, hr.inputs]
    · intro k
      rw [hu.answerAt, han, htrace, transactions_append]
      simp only [State.endTransport_cfg, State.endTransport_addr, hc, ha]
      congr 1; omega

/-- WHERE THE BASE'S LIST IS CUT: at its n-th transaction, the first that fails (R120). -/
theorem runBase_fail (ts : List TransportOp) {n : Nat} {s : State} {b : Bool} (hb : s.bl = some b)
    (hp : s.phase = .handoff) (ho : s.op = .init) (hs : s.step = 15) (hn : n < transactions (baseTrace s.cfg s.addr b ts))
    (h : s.FailsAt n) :
    ∃ (t : State) (pre : List Event) (x : Transaction) (post : List Event),
      baseTrace s.cfg s.addr b ts = pre ++ .bus x :: post ∧ transactions pre = n ∧
      runBase ts s = .stopped (t.popAnswer.takeBusFault x) ∧ t.trace = s.trace ++ pre ∧ t.phase = .handoff ∧
      t.cfg = s.cfg ∧ t.addr = s.addr ∧ t.lines = s.lines ∧ t.cols = s.cols ∧ t.inputs = s.inputs := by
  induction ts generalizing s b n with
  | nil => simp [baseTrace, transactions] at hn
  | cons q ts ih =>
    obtain ⟨b', hq, hflag, htrace⟩ := baseTrace_cons hb q ts
    rw [htrace, transactions_append] at hn
    by_cases hlt : n < transactions (transportTrace s q)
    · obtain ⟨t, pre, x, post, h1, h2, h3, h4⟩ := baseRequest_fail q (n := n) (s := s.withBase ts) (by simpa using hlt) h
      refine ⟨t, pre, x, post ++ baseTrace s.cfg s.addr b' ts, ?_, h2, by rw [runBase, h4]; rfl, ?_⟩
      · rw [htrace]; rw [transportTrace_withBase] at h1; rw [h1]; simp
      · simp [h3.trace, h3.phase, h3.cfg, h3.addr, h3.lines, h3.cols, h3.inputs, hp]
    · obtain ⟨t, e, hr⟩ := baseRequest_ok q (s := s.withBase ts) fun k hk => h.1 k (by simp at hk; omega)
      rw [transportTrace_withBase] at hr
      have hc : t.cfg = s.cfg := by simp [hr.cfg]
      have ha : t.addr = s.addr := by simp [hr.addr]
      have hph : t.phase = .handoff := by simp [hr.phase, hp]
      have han : ∀ k, t.endTransport.answerAt k = s.answerAt (k + transactions (transportTrace s q)) := fun k => by
        rw [State.answerAt_congr (s := t) (by simp) (by simp), hr.answerAt, State.begun_answerAt]
        exact State.answerAt_congr (by simp) (by simp) _
      have hbl : t.endTransport.bl = some b' := by
        rw [State.endTransport_bl, hr.bl, State.begun_bl, ← hq]; cases q <;> rfl
      obtain ⟨u, pre, x, post, e1, e2, e3, e4, e5, e6, e7, e8, e9, e10⟩ :=
        ih (n := n - transactions (transportTrace s q)) hbl (by simp [hph]) (by simp [hph]) (by simp [hph])
          (by simp [hc, ha]; omega)
          ⟨fun k hk => by rw [han]; exact h.1 _ (by omega), by rw [han, Nat.sub_add_cancel (by omega)]; exact h.2⟩
      refine ⟨u, transportTrace s q ++ pre, x, post, ?_, by rw [transactions_append, e2]; omega,
        by rw [runBase, e]; exact e3, ?_, e5, ?_, ?_, ?_, ?_, ?_⟩
      · rw [htrace]; simp [hc, ha] at e1; rw [e1]; simp
      · rw [e4]; simp [hr.trace]
      all_goals simp [*, hr.lines, hr.cols, hr.inputs]

/-! ### The handshake -/

theorem settles_initEvents_drop (c : Config) (k : Nat) : Settles ((initEvents c).drop k) :=
  .inl fun m hm => by
    have h : ∀ m ∈ initEvents c, m.isFixed = true := by simp [initEvents, nibbleEvents, MicroOp.isFixed]
    exact h m (List.mem_of_mem_drop hm)

/-- The planned events of INIT's events 0 to 14 are the handshake (R80). -/
theorem planned_initEvents (s : State) : (initEvents s.cfg).flatMap (planned s) = handshakeTrace s.cfg s.addr := by
  simp [initEvents, nibbleEvents, planned, handshakeTrace, nibbleTrace, strobePair, withStrobe, tPowerUp, tReset1,
    tReset2, tReset3, tMode]

end Sys2Proof.Machine
end

