-- ==== Sys2Proof/Laws/PerInstr.lean ====
section
/-! SUPPORT. Families of lemmas with one lemma per constructor of Instr. Family OpField: the encoding carries the opcode of
spec/30_encoding.md R52 in bits 10:8, and so no two operations share a word. -/

namespace Sys2Proof.Laws.OpField

/-- The opcode that R52 gives the operation. -/
def opcode : Instr → BitVec 3
  | .init _ _ => 0b000
  | .writeCommand _ => 0b001
  | .writeData _ => 0b010
  | .backlightOn _ => 0b011
  | .backlightOff _ => 0b100
  | .nibbleInit _ => 0b101
  | .reserved op _ => op

theorem opField_reqWord (op : BitVec 3) (operand : Byte) : opField (reqWord op operand) = op := by
  unfold opField reqWord
  exact BitVec.extractLsb'_append_eq_left

theorem operandField_reqWord (op : BitVec 3) (operand : Byte) : operandField (reqWord op operand) = operand := by
  unfold operandField reqWord
  exact BitVec.extractLsb'_append_eq_right

/-- Field op of the instruction's word is its opcode. -/
def Statement (i : Instr) : Prop := opField (encode i).word = opcode i

theorem init (operand : Byte) (p : InitParams) : Statement (.init operand p) := opField_reqWord _ _
theorem writeCommand (cmd : Byte) : Statement (.writeCommand cmd) := opField_reqWord _ _
theorem writeData (byte : Byte) : Statement (.writeData byte) := opField_reqWord _ _
theorem backlightOn (operand : Byte) : Statement (.backlightOn operand) := opField_reqWord _ _
theorem backlightOff (operand : Byte) : Statement (.backlightOff operand) := opField_reqWord _ _
theorem nibbleInit (code : Byte) : Statement (.nibbleInit code) := opField_reqWord _ _
theorem reserved (op : BitVec 3) (operand : Byte) : Statement (.reserved op operand) := opField_reqWord _ _

end Sys2Proof.Laws.OpField
end

