-- ==== Sys2Proof/Tests/Slice0.lean ====
section
/-! SUPPORT. The model's own tests. Expected results are taken from spec/95_test_vectors.md (vectors V-*, programs P*) and
from the worked examples of the rules, under the default parameters; the source of each stands beside it. -/

namespace Sys2Proof.Tests

open Sys2Proof.Machine

/-! ### Helpers -/

/-- The observation of an outcome: its trace. -/
def traceOf : Host.Outcome State Fault Refusal → List Event
  | .next t => t.trace
  | .fault _ => [.handoff]
  | .refused _ => [.handoff]

/-- A field of the next state. -/
def fieldOf {α : Type} (f : State → α) : Host.Outcome State Fault Refusal → Option α
  | .next t => some (f t)
  | .fault _ => none
  | .refused _ => none

/-- n transactions answered ok. -/
def oks (n : Nat) : List Answer := List.replicate n .ok

/-- A block in READY at address 0x20 after a fault-free INIT, with the given flag and bus answers. -/
def readyState (bl : Bool) (answers : List Answer) : State :=
  { State.reset with
    bl := some bl, addr := 0x20, lines := 2, cols := 16, phase := .ready
    regs := [(0, 0x01), (9, 0x00)], iface := .expectHigh, answers := answers }

/-- A block after hardware reset, with the given bus answers. -/
def freshState (answers : List Answer) : State := { State.reset with answers := answers }

/-- A block inside INIT, at the given index of its event list. -/
def initState (k : Nat) (answers : List Answer) : State :=
  { State.reset with addr := 0x20, lines := 2, cols := 16, phase := .init, op := .init, step := k
                     regs := [(0, 0x01), (9, 0x00)], answers := answers }

/-- `REG(09, v)` at the default address. -/
def w (v : Byte) : Event := .bus (.reg 0x20 0x09 v)

/-- The default seed (R7). -/
def seed : List Byte := [0x00, 0xFF, 0, 0, 0, 0, 0, 0, 0, 0, 0, 0]

/-- The parameters of scenario S1 (P1). -/
def p1 : InitParams := { addr := 0x20, lines := 2, cols := 16, blDefault := true, baseOps := [] }

/-! ### Well-formedness: each check refuses a term that violates it -/

theorem test_default_config_wellFormed : Config.default.WellFormed = true := by decide
/-- R5: two registers at one address. -/
theorem test_config_registers_equal :
    ({ Config.default with regGpio := 0x00 } : Config).WellFormed = false := by decide
/-- R6: MASK_RS with two bits. -/
theorem test_config_maskRs_two_bits :
    ({ Config.default with maskRs := 0x03 } : Config).WellFormed = false := by decide
/-- R6: MASK_E with no bit. -/
theorem test_config_maskE_zero :
    ({ Config.default with maskE := 0x00 } : Config).WellFormed = false := by decide
/-- R6: SHIFT_DATA above 4 (the backlight moved out of the way). -/
theorem test_config_shiftData_five :
    ({ Config.default with shiftData := 5, shiftBl := 0 } : Config).WellFormed = false := by decide
/-- R6: SHIFT_BL above 7. -/
theorem test_config_shiftBl_eight :
    ({ Config.default with shiftBl := 8 } : Config).WellFormed = false := by decide
/-- R6: the backlight bit inside the data field. -/
theorem test_config_fields_overlap :
    ({ Config.default with shiftBl := 6 } : Config).WellFormed = false := by decide
/-- R7: an empty seed. -/
theorem test_config_seed_empty :
    ({ Config.default with seedBytes := [] } : Config).WellFormed = false := by decide
/-- R58: a reserved request whose op is not reserved. -/
theorem test_instr_reserved_op_five : (Instr.reserved 0b101 0x00).WellFormed = false := by decide
/-- R53: INIT with NIBBLE_INIT in its base list. -/
theorem test_request_base_list_nibble :
    ({ word := 0x000, initp := { InitBlock.blank with baseOps := [0x108, 0x530] } } : Request).WellFormed = false := by
  decide

/-! ### Decoding: words written out from R51 and R52 -/

/-- A word presented alone. -/
def bare (x : ReqWord) : Request := { word := x, initp := .blank }

/-- P1's request: word 0x000 with INITP(0x20, 2, 16, 1, []). -/
theorem test_decode_init :
    decode { word := 0b000_00000000, initp := { addr := some 0x20, lines := 2, cols := 16, blDefault := true, baseOps := [] } } =
      .ok (.init 0x00 p1) := by decide
/-- R53: the address defaults to 0x20; P6's list of base words. -/
theorem test_decode_init_base_words :
    decode { word := 0b000_00000000, initp :=
      { addr := none, lines := 2, cols := 16, blDefault := true, baseOps := [0x108, 0x300, 0x101, 0x106, 0x20C] } } =
      .ok (.init 0x00 { p1 with baseOps :=
        [.writeCommand 0x08, .backlightOn 0x00, .writeCommand 0x01, .writeCommand 0x06, .writeData 0x0C] }) := by decide
/-- P3, word 0x101. -/
theorem test_decode_writeCommand : decode (bare 0b001_00000001) = .ok (.writeCommand 0x01) := by decide
/-- P2, word 0x241. -/
theorem test_decode_writeData : decode (bare 0b010_01000001) = .ok (.writeData 0x41) := by decide
/-- V-R5, word 0x3A5. -/
theorem test_decode_backlightOn : decode (bare 0b011_10100101) = .ok (.backlightOn 0xA5) := by decide
/-- P2, word 0x400. -/
theorem test_decode_backlightOff : decode (bare 0b100_00000000) = .ok (.backlightOff 0x00) := by decide
/-- V-R2, word 0x530. -/
theorem test_decode_nibbleInit : decode (bare 0b101_00110000) = .ok (.nibbleInit 0x30) := by decide
/-- V-R1, words 0x600 and 0x7FF. -/
theorem test_decode_reserved_110 : decode (bare 0b110_00000000) = .ok (.reserved 0b110 0x00) := by decide
theorem test_decode_reserved_111 : decode (bare 0b111_11111111) = .ok (.reserved 0b111 0xFF) := by decide
/-- R53: a reserved word in the base's list is rejected by name. -/
theorem test_decode_bad_base_word :
    decode { word := 0x000, initp := { InitBlock.blank with baseOps := [0x600] } } = .error (.notABaseRequest 0x600) := by
  decide
/-- The table's words, and a number that is no 11-bit word (R50). -/
theorem test_decodeTableWord : decodeTableWord 16 0x241 = some (.writeData 0x41) := by decide
theorem test_decodeTableWord_too_wide : decodeTableWord 16 0x841 = none := by decide

/-! ### Operand forms -/

/-- R20, D3: the default direction value. -/
theorem test_dirValue : dirValue Config.default = 0x01 := by decide
/-- R79: 0x20 for one line, 0x28 for more. -/
theorem test_finalCmd : finalCmd Config.default 1 = 0x20 ∧ finalCmd Config.default 2 = 0x28 := by decide
/-- V-D4: every field full, and the spare bit 0. -/
theorem test_compose_full : withStrobe Config.default true (compose Config.default true true 0xF) = 0xFE := by decide

/-! ### INIT -/

/-- P1: its trace (R84), its end state, its latched stream and two expander registers; P6's base requests. -/
theorem test_init_completes :
    traceOf (exec (.init 0 p1) (freshState (oks 14))) =
      [.bus (.raw 0x20 seed), .bus (.reg 0x20 0x00 0x01), .delay 20, w 0x1C, w 0x18, .delay 5, w 0x1C, w 0x18, .delay 1,
        w 0x1C, w 0x18, .delay 1, w 0x14, w 0x10, .delay 1, .handoff, w 0x94, w 0x90, w 0xC4, w 0xC0] ∧
    fieldOf (fun t => (t.bl, t.phase, t.fault, t.err)) (exec (.init 0 p1) (freshState (oks 14))) =
      some (some true, .ready, false, .ok) ∧
    fieldOf (fun t => t.latched) (exec (.init 0 p1) (freshState (oks 14))) =
      some [(false, 3), (false, 3), (false, 3), (false, 2), (false, 2), (false, 8)] ∧
    fieldOf (fun t => (t.regs.read 0, t.regs.read 9)) (exec (.init 0 p1) (freshState (oks 14))) =
      some (some 0x01, some 0xC0) ∧
    (traceOf (exec (.init 0 { p1 with baseOps := [.writeCommand 0x08, .backlightOn 0, .writeCommand 0x01] })
      (freshState (oks 23)))).drop 15 =
      [.handoff, w 0x84, w 0x80, w 0xC4, w 0xC0, w 0x80, w 0x84, w 0x80, w 0x8C, w 0x88, .delay 5,
        w 0x94, w 0x90, w 0xC4, w 0xC0] := by decide

/-- V-I1 and V-I2 (zero lines, zero columns), V-I6 (the seed fails), V-I7 (event 4 fails), V-I8 (event 18 fails);
R12, R85, R120: a base's backlight request fails, and OPR, which INIT's nibbles have used, holds a free value. -/
theorem test_init_faults :
    fieldOf (fun t => (t.err, t.phase, t.trace)) (exec (.init 0 { p1 with lines := 0 }) (freshState (oks 14))) =
      some (.paramFault, .unbuilt, []) ∧
    fieldOf (fun t => (t.err, t.phase, t.bl, t.addr)) (exec (.init 0 { p1 with addr := 0x21, cols := 0 }) (readyState true [])) =
      some (.paramFault, .ready, some true, 0x20) ∧
    fieldOf (fun t => (t.err, t.fault, t.phase, t.trace)) (exec (.init 0 p1) (freshState [.fail])) =
      some (.busFault, true, .unbuilt, [.fail (.raw 0x20 seed) .init 0]) ∧
    traceOf (exec (.init 0 p1) (freshState [.ok, .ok, .ok, .fail])) =
      [.bus (.raw 0x20 seed), .bus (.reg 0x20 0x00 0x01), .delay 20, w 0x1C, .fail (.reg 0x20 0x09 0x18) .init 4] ∧
    fieldOf (fun t => (t.phase, t.bl, t.trace.drop 16)) (exec (.init 0 p1) (freshState (oks 12 ++ [.fail]))) =
      some (.unbuilt, some true, [w 0x94, w 0x90, .fail (.reg 0x20 0x09 0xC4) .init 18]) ∧
    fieldOf (fun t => (t.phase, t.bl, t.opr)) (exec (.init 0 { p1 with baseOps := [.backlightOff 0x00] })
      (freshState (oks 10 ++ [.fail]))) = some (.unbuilt, some false, Config.deadOpr 2) :=
  ⟨by decide, by decide, by decide, by decide, by decide, rfl⟩

/-! ### NIBBLE_INIT -/

/-- V-N3: the low nibble is ignored. -/
theorem test_nibbleInit : traceOf (exec (.nibbleInit 0x3F) (initState 3 (oks 2))) = [w 0x1C, w 0x18] := by decide
/-- V-R2: from the host port it is Refused. -/
theorem test_nibbleInit_host :
    fieldOf (fun t => (t.err, t.trace)) (exec (.nibbleInit 0x30) (readyState true (oks 2))) = some (.refused, []) := by decide

/-! ### WRITE_COMMAND -/

/-- V-C4: the largest value with a delay. -/
theorem test_writeCommand_3 :
    traceOf (exec (.writeCommand 0x03) (readyState true (oks 4))) = [w 0x84, w 0x80, w 0x9C, w 0x98, .delay 5] := by decide
/-- V-C5: the first value without. -/
theorem test_writeCommand_4 :
    traceOf (exec (.writeCommand 0x04) (readyState false (oks 4))) = [w 0x04, w 0x00, w 0x24, w 0x20] := by decide

/-! ### WRITE_DATA -/

/-- V-D6. -/
theorem test_writeData_5A :
    fieldOf (fun t => (t.trace, t.latched)) (exec (.writeData 0x5A) (readyState true (oks 4))) =
      some ([w 0xAE, w 0xAA, w 0xD6, w 0xD2], [(true, 5), (true, 10)]) := by decide
/-- P5, request 1: the third transaction fails. -/
theorem test_writeData_fails :
    fieldOf (fun t => (t.trace, t.err, t.fault, t.phase, t.bl)) (exec (.writeData 0x41) (readyState true [.ok, .ok, .fail])) =
      some ([w 0xA6, w 0xA2, .fail (.reg 0x20 0x09 0x8E) .writeData 2], .busFault, true, .ready, some true) := by decide

/-! ### BACKLIGHT_ON, BACKLIGHT_OFF -/

/-- V-B1 and V-R5: the operand is ignored. -/
theorem test_backlightOn :
    fieldOf (fun t => (t.trace, t.bl, t.latched)) (exec (.backlightOn 0xA5) (readyState false (oks 1))) =
      some ([w 0x80], some true, []) := by decide
/-- V-B5: the write fails and the flag keeps the new value. -/
theorem test_backlightOn_fails :
    fieldOf (fun t => (t.trace, t.bl, t.err, t.fault, t.phase)) (exec (.backlightOn 0) (readyState false [.fail])) =
      some ([.fail (.reg 0x20 0x09 0x80) .backlightOn 0], some true, .busFault, true, .ready) := by decide
/-- V-B3. -/
theorem test_backlightOff :
    fieldOf (fun t => (t.trace, t.bl)) (exec (.backlightOff 0) (readyState true (oks 1))) = some ([w 0x00], some false) := by
  decide
/-- V-R4's twin: Refused before any INIT. -/
theorem test_backlightOff_unbuilt :
    fieldOf (fun t => (t.trace, t.bl, t.err)) (exec (.backlightOff 0) (freshState (oks 1))) = some ([], none, .refused) := by
  decide

/-! ### Reserved requests, and the step -/

/-- V-R1. -/
theorem test_reserved :
    fieldOf (fun t => (t.err, t.trace, t.phase)) (exec (.reserved 0b110 0x00) (readyState true [])) =
      some (.refused, [], .ready) := by decide
/-- R47: a waiting request is taken, decoded and executed (P2, request 2), and the next one keeps waiting. -/
theorem test_step_request :
    fieldOf (fun t => (t.trace, t.inputs)) (step { readyState false (oks 4) with
      inputs := [.request (bare 0x241), .request (bare 0x400)] }) =
      some ([w 0x26, w 0x22, w 0x0E, w 0x0A], [.request (bare 0x400)]) := by decide
/-- R134, R130: hardware reset in an idle state; the expander keeps its registers. -/
theorem test_step_reset :
    fieldOf (fun t => (t.phase, t.bl, t.regs.read 9, t.trace)) (step { readyState true [] with inputs := [.reset] }) =
      some (.unbuilt, none, some 0x00, []) := by decide
/-- R14, R15: a WRITE_DATA at index 2 goes on with its low nibble, and the waiting request is not taken. -/
theorem test_step_resume :
    fieldOf (fun t => (t.trace, t.op, t.inputs)) (step { readyState false (oks 2) with
      opr := 0x41, rsl := true, op := .writeData, step := 2, inputs := [.reset] }) =
      some ([w 0x0E, w 0x0A], .none, [.reset]) := by decide
/-- The first instruction after reset: WRITE_DATA in UNBUILT is Refused (V-R3). -/
theorem test_withFetchWord :
    fieldOf (fun t => (t.err, t.trace)) (step (State.reset.withFetchWord 16 0x241)) = some (.refused, []) := by decide

/-! ### Witnesses: for every statement with hypotheses, a state and operands that meet all of them -/

/-- A block suspended at the hand-off of INIT, its flag set. -/
def handoffState (answers : List Answer) : State :=
  { readyState true answers with phase := .handoff, op := .init, step := 15 }

theorem readyState_takesTransport (bl : Bool) (as : List Answer) : (readyState bl as).takesTransport := .inl ⟨rfl, rfl⟩
theorem handoffState_takesTransport (as : List Answer) : (handoffState as).takesTransport := .inr ⟨rfl, rfl⟩
theorem readyState_takesInit (bl : Bool) (as : List Answer) : (readyState bl as).takesInit := ⟨.inr rfl, rfl⟩
theorem freshState_takesInit (as : List Answer) : (freshState as).takesInit := ⟨.inl rfl, rfl⟩
theorem initState_runsInit (k : Nat) (as : List Answer) : (initState k as).runsInit := ⟨rfl, rfl⟩

/-- DecodeOfEncodeIsTheInstruction, at both ends of the reserved range. -/
theorem witness_wellFormed_instr : (Instr.reserved 0b110 0xFF).WellFormed = true ∧ (Instr.reserved 0b111 0x00).WellFormed = true := by
  decide
/-- DecodingDropsNoBitOfTheWord, RequestDecodesExactlyWhenWellFormed. -/
theorem witness_decodes : decode (bare 0x3A5) = .ok (.backlightOn 0xA5) ∧ (bare 0x3A5).WellFormed = true := by decide
/-- ComposedFieldsReadBack, DirectionValueIsTheOneSpareBit: the default layout and one with every field elsewhere. -/
theorem witness_configs : Config.default.WellFormed = true ∧
    ({ Config.default with maskRs := 0x80, maskE := 0x20, shiftData := 0, shiftBl := 4 } : Config).WellFormed = true := by
  decide
/-- HardwareResetLeavesAnUnbuiltBlock. -/
theorem witness_hardwareReset : (readyState true []).cfg.WellFormed = true ∧
    ({ readyState true [] with inputs := [.reset] } : State).seqStatus = .idle := by decide
/-- StepRunsTheDecodedRequest, IdlePortWithNothingPresentedChangesNothing, StepStopsOnlyOutsideTheSpec. -/
theorem witness_idle : (freshState []).cfg.WellFormed = true ∧ (freshState []).seqStatus = .idle ∧
    (freshState []).inputs = [] ∧ (readyState true []).seqStatus = .idle ∧
    decode (bare 0x101) = .ok (.writeCommand 0x01) := by decide
/-- OperationInProgressEndsBeforeThePortTakesAnything: the ends of each range of indices. -/
theorem witness_running :
    (initState 0 []).seqStatus = .running ∧ (initState 15 []).seqStatus = .running ∧
    (handoffState []).seqStatus = .running ∧
    ({ handoffState [] with op := .writeData, step := 3 } : State).seqStatus = .running ∧
    ({ readyState true [] with op := .writeCommand, step := 4 } : State).seqStatus = .running ∧
    ({ handoffState [] with phase := .final, step := 16 } : State).seqStatus = .running ∧
    ({ handoffState [] with phase := .final, step := 20 } : State).seqStatus = .running := by decide
/-- StepStopsByName: one state for each clause. -/
theorem witness_stops :
    ({ Config.default with maskE := 0x02 } : Config).WellFormed = false ∧
    ({ readyState true [] with op := .nibbleInit } : State).seqStatus = .illegal ∧
    ({ readyState true [] with op := .writeData, step := 4 } : State).seqStatus = .illegal ∧
    ({ word := 0x000, initp := { InitBlock.blank with baseOps := [0x0FF] } } : Request).WellFormed = false := by decide
/-- The statements on taken transport requests: READY and the hand-off, four answers ok. -/
theorem witness_transport_ready : (readyState true (oks 4)).takesTransport ∧ (readyState true (oks 4)).AnswersOk 4 :=
  ⟨.inl ⟨rfl, rfl⟩, by unfold State.AnswersOk; decide⟩
theorem witness_transport_handoff : (handoffState (oks 4)).takesTransport ∧ (handoffState (oks 4)).AnswersOk 4 :=
  ⟨.inr ⟨rfl, rfl⟩, by unfold State.AnswersOk; decide⟩
/-- FailedBacklightWriteKeepsTheNewFlag. -/
theorem witness_backlight_fails : (readyState false [.fail]).takesTransport ∧ (readyState false [.fail]).answerAt 0 = .fail :=
  ⟨.inl ⟨rfl, rfl⟩, by decide⟩
/-- TransportIsCutAtTheFirstFailedTransaction: the first and the last transaction of a command. -/
theorem witness_transport_fails :
    (readyState true [.fail]).FailsAt 0 ∧ (readyState true (oks 3 ++ [.fail])).FailsAt 3 ∧
    transactions (transportTrace (readyState true []) (.writeCommand 0x01)) = 4 := by
  unfold State.FailsAt State.AnswersOk; decide
/-- NibbleInitStrobesTheHighNibble, FailedNibbleInitAbortsConstruction: both writes. -/
theorem witness_nibble : (initState 3 (oks 2)).AnswersOk 2 ∧ (initState 3 [.fail]).FailsAt 0 ∧
    (initState 3 [.ok, .fail]).FailsAt 1 := by unfold State.FailsAt State.AnswersOk; decide
/-- The statements on a fault-free INIT, whose configuration is the default (test_default_config_wellFormed): no base request,
and a list of them; first construction and reconstruction. -/
theorem witness_init : p1.lines ≠ 0 ∧ p1.cols ≠ 0 ∧ (freshState (oks 14)).takesInit ∧
    (freshState (oks 14)).AnswersOk (transactions (initTrace Config.default p1)) :=
  ⟨by decide, by decide, ⟨.inl rfl, rfl⟩, by unfold State.AnswersOk; decide⟩
theorem witness_init_again : (readyState false (oks 23)).takesInit ∧ (readyState false (oks 23)).AnswersOk
    (transactions (initTrace Config.default
      { p1 with baseOps := [.writeCommand 0x08, .backlightOn 0x00, .writeCommand 0x01] })) :=
  ⟨⟨.inr rfl, rfl⟩, by unfold State.AnswersOk; decide⟩
/-- InitIsCutAtTheFirstFailedTransaction: the seed, and the last write of the final command. -/
theorem witness_init_fails : (freshState [.fail]).FailsAt 0 ∧ (freshState (oks 13 ++ [.fail])).FailsAt 13 ∧
    transactions (initTrace Config.default p1) = 14 := by unfold State.FailsAt State.AnswersOk; decide
/-- InitWaitsAtLeast28Milliseconds, its second part. -/
theorem witness_init_28 : p1.baseOps = [] ∧ isClearHome (finalCmd Config.default p1.lines) = false := by decide
/-- DisplayGeometryReachesTheBusOnlyThroughTheFinalCommand: 2 and 255 lines; 1 line beside 1. -/
theorem witness_geometry : ((1 < (2 : Byte).toNat) ↔ (1 < (255 : Byte).toNat)) ∧ (255 : Byte) ≠ 0 ∧ (40 : Byte) ≠ 0 := by decide
/-- ParamFaultIsRaisedExactlyByZeroLinesOrColumns: its three clauses with hypotheses. -/
theorem witness_paramFault :
    (freshState []).err ≠ .paramFault ∧
    fieldOf (fun t => t.err) (exec (.init 0 { p1 with cols := 0 }) (freshState [])) = some .paramFault ∧
    fieldOf (fun t => t.err) (exec (.init 0 p1) (freshState (oks 14))) = some .ok := by decide
/-- ExactlyTheRequestsOutOfPlaceAreRefused: the three causes, each from a state with another report. -/
theorem witness_refused :
    fieldOf (fun t => t.err) (exec (.reserved 0b111 0xFF) (freshState [])) = some .refused ∧
    fieldOf (fun t => t.err) (exec (.nibbleInit 0x30) (freshState [])) = some .refused ∧
    fieldOf (fun t => t.err) (exec (.writeCommand 0x01) (freshState [])) = some .refused ∧
    (freshState []).err ≠ .refused ∧ (freshState []).phase = .unbuilt ∧ (freshState []).op = .none := by decide
/-- InitChangesParametersOnlyToItsOwn: taken and cut at its seed; rejected; not taken. -/
theorem witness_init_frame :
    fieldOf (fun t => (t.addr, t.cols)) (exec (.init 0 p1) (freshState [.fail])) = some (0x20, 16) ∧
    exec (.init 0 { p1 with cols := 0 }) (readyState true []) = .next { readyState true [] with err := .paramFault } ∧
    exec (.init 0 p1) (handoffState []) = .next (handoffState []) :=
  ⟨by decide, rfl, rfl⟩
/-- NotReadyPortTakesNothing: a state for each clause. -/
theorem witness_notReady : ¬ (handoffState []).takesInit ∧ ¬ (initState 0 []).takesTransport ∧
    ¬ ((initState 0 []).phase = .unbuilt ∧ (initState 0 []).op = .none) ∧ ¬ (handoffState []).runsInit ∧
    (handoffState []).op ≠ .none := by
  unfold State.takesInit State.takesTransport State.runsInit; decide
/-- AFailedTransactionEndsTheOperation, EveryStepEndsWithAnIdleSequencer, and the other statements about any step: a step
that answers a next state, with a FAIL event. -/
theorem witness_step_fails :
    fieldOf (fun t => (t.trace, t.fault)) (step { readyState true [.fail] with inputs := [.request (bare 0x101)] }) =
      some ([.fail (.reg 0x20 0x09 0x84) .writeCommand 0], true) := by decide
/-- FaultFlagIsSetByBusFaultsAndClearedByInit: set by a failed write, cleared by INIT and by hardware reset. -/
theorem witness_fault_set : (readyState true [.fail]).fault = false ∧
    fieldOf (fun t => t.fault) (exec (.writeData 0x41) (readyState true [.fail])) = some true := by decide
theorem witness_fault_cleared :
    fieldOf (fun t => t.fault) (exec (.init 0 p1) { readyState true (oks 14) with fault := true }) = some false ∧
    fieldOf (fun t => t.fault) (step { readyState true [] with fault := true, inputs := [.reset] }) = some false ∧
    fieldOf (fun t => t.err) (step { readyState true [.fail] with op := .writeData, step := 2 }) = some .busFault ∧
    fieldOf (fun t => t.fault) (step { readyState true (oks 14) with fault := true, inputs :=
      [.request { word := 0x000, initp := encodeInitBlock p1 }] }) = some false := by decide
/-- TransportLatchesItsNibblesAndLeavesTheStrobeLow: with FAULT = 0, and E low beside FAULT = 1. -/
theorem witness_strobeLow : (readyState true (oks 4)).strobeLow ∧ (readyState true (oks 4)).fault = false ∧
    (readyState true (oks 4)).iface = .expectHigh ∧ ({ readyState true (oks 4) with fault := true } : State).strobeLow :=
  ⟨⟨0x00, by decide, by decide⟩, rfl, rfl, ⟨0x00, by decide, by decide⟩⟩
/-- RawWriteFillsSuccessiveRegistersFromItsFirstByte: the default seed; the last register alone; no byte behind the address. -/
theorem witness_raw : (0x00 : Byte).toNat + seed.tail.length ≤ 256 ∧ (0xFF : Byte).toNat + [(0xA5 : Byte)].length ≤ 256 ∧
    (0xFF : Byte).toNat + ([] : List Byte).length ≤ 256 := by decide
/-- PostCommandDelayIsPerformedExactlyUpToThree: INIT with a final command of at most 3 (codes 0x00 and 0x03, two lines), in
a configuration of the spec; its clauses over a command have witness_transport_ready and witness_transport_fails. -/
theorem witness_final_delay :
    ({ Config.default with codeFunction := 0x00, codeFunction2Lines := 0x03 } : Config).WellFormed = true ∧
    finalCmd { Config.default with codeFunction := 0x00, codeFunction2Lines := 0x03 } 2 = 0x03 ∧
    transactions (initTrace { Config.default with codeFunction := 0x00, codeFunction2Lines := 0x03 } p1) = 14 := by decide
/-- EveryStepKeepsTheSettledState, TransportIsNeverTakenWithAnUnwrittenFlag. -/
theorem witness_settled : (readyState true (oks 4)).Settled :=
  ⟨by decide, by decide, by decide, by decide, fun _ _ => ⟨⟨0x00, by decide, by decide⟩, rfl⟩⟩
/-- EveryStepKeepsTheRegisterListCanonical. -/
theorem witness_canonical : (readyState true []).regs.wf := by decide

end Sys2Proof.Tests
end

section
/-! PROOF. The layout of the GPIO byte (spec/00_scope.md R6): the four fields of a well-formed configuration take seven
of the eight bits, counted with the set of the bits that a byte sets. -/

namespace Sys2Proof.Machine

/-! ### Bytes as sets of bits -/

/-- The positions of the bits that are set in m. -/
def setBits (m : Byte) : Finset (Fin 8) := {i | m[i] = true}

@[simp] theorem mem_setBits {m : Byte} {i : Fin 8} : i ∈ setBits m ↔ m[i] = true := by
  simp [setBits]

theorem setBits_injective : Function.Injective setBits := by
  intro a b hab
  apply BitVec.eq_of_getElem_eq
  intro i hi
  have hmem : (⟨i, hi⟩ : Fin 8) ∈ setBits a ↔ (⟨i, hi⟩ : Fin 8) ∈ setBits b := by rw [hab]
  simpa using hmem

theorem setBits_zero : setBits 0 = ∅ := by
  ext i
  simp

theorem setBits_and (a b : Byte) : setBits (a &&& b) = setBits a ∩ setBits b := by
  ext i
  simp

theorem setBits_or (a b : Byte) : setBits (a ||| b) = setBits a ∪ setBits b := by
  ext i
  simp

theorem setBits_not (a : Byte) : setBits (~~~ a) = (setBits a)ᶜ := by
  ext i
  simp

theorem setBits_one_shiftLeft (i : Fin 8) : setBits (1#8 <<< i.val) = {i} := by
  decide +revert

/-- Bytes that share no bit set disjoint positions. -/
theorem disjoint_setBits_iff {a b : Byte} : Disjoint (setBits a) (setBits b) ↔ a &&& b = 0 := by
  rw [Finset.disjoint_iff_inter_eq_empty, ← setBits_and, ← setBits_zero, setBits_injective.eq_iff]

/-- Bytes that share no bit add up their numbers of set bits. -/
theorem card_setBits_or {a b : Byte} (h : a &&& b = 0) :
    (setBits (a ||| b)).card = (setBits a).card + (setBits b).card := by
  rw [setBits_or, Finset.card_union_of_disjoint (disjoint_setBits_iff.2 h)]

theorem oneBit_iff_exists {m : Byte} : oneBit m = true ↔ ∃ i : Fin 8, m = 1#8 <<< i.val := by
  simp [oneBit, Fin.exists_iff]

/-- A byte has exactly one bit (R6) when its set of bits has one element. -/
theorem oneBit_iff_card_setBits {m : Byte} : oneBit m = true ↔ (setBits m).card = 1 := by
  simp only [oneBit_iff_exists, Finset.card_eq_one, ← setBits_one_shiftLeft, setBits_injective.eq_iff]

/-! ### The fields of a well-formed configuration -/

/-- R6 of a well-formed configuration, read in its derived masks: the widths of the fields and that no two overlap. -/
structure FieldLayout (c : Config) : Prop where
  rs_oneBit : oneBit c.maskRs = true
  e_oneBit : oneBit c.maskE = true
  shiftData_le : c.shiftData ≤ 4
  shiftBl_le : c.shiftBl ≤ 7
  rs_e : c.maskRs &&& c.maskE = 0
  rs_data : c.maskRs &&& maskData c = 0
  rs_bl : c.maskRs &&& maskBl c = 0
  e_data : c.maskE &&& maskData c = 0
  e_bl : c.maskE &&& maskBl c = 0
  data_bl : maskData c &&& maskBl c = 0

theorem fieldLayout_of_wellFormed {c : Config} (h : c.WellFormed = true) : FieldLayout c := by
  simp only [Config.WellFormed, Config.fieldsInByte, Config.fieldsDisjoint, Bool.and_eq_true, beq_iff_eq,
    decide_eq_true_eq] at h
  obtain ⟨⟨⟨-, ⟨⟨hrs, he⟩, hd⟩, hl⟩, ⟨⟨⟨⟨hre, hrd⟩, hrl⟩, hed⟩, hel⟩, hdl⟩, -⟩ := h
  exact ⟨hrs, he, hd, hl, hre, hrd, hrl, hed, hel, hdl⟩

namespace FieldLayout
variable {c : Config} (h : FieldLayout c)
include h

theorem card_maskData : (setBits (maskData c)).card = 4 := by
  have hcount : ∀ d ≤ 4, (setBits (0x0F#8 <<< d)).card = 4 := by decide
  exact hcount _ h.shiftData_le

theorem card_maskBl : (setBits (maskBl c)).card = 1 :=
  oneBit_iff_card_setBits.1 (oneBit_iff_exists.2 ⟨⟨c.shiftBl, Nat.lt_succ_iff.2 h.shiftBl_le⟩, rfl⟩)

/-- The four fields take 1 + 1 + 4 + 1 bits (R6). -/
theorem card_maskSignals : (setBits (maskSignals c)).card = 7 := by
  have hRsE_data : (c.maskRs ||| c.maskE) &&& maskData c = 0 := by
    rw [BitVec.and_or_distrib_right, h.rs_data, h.e_data, BitVec.or_self]
  have hRsEData_bl : (c.maskRs ||| c.maskE ||| maskData c) &&& maskBl c = 0 := by
    simp only [BitVec.and_or_distrib_right, h.rs_bl, h.e_bl, h.data_bl, BitVec.or_self]
  rw [maskSignals, card_setBits_or hRsEData_bl, card_setBits_or hRsE_data, card_setBits_or h.rs_e,
    oneBit_iff_card_setBits.1 h.rs_oneBit, oneBit_iff_card_setBits.1 h.e_oneBit, h.card_maskData, h.card_maskBl]

/-- The one bit that the seven leave (R6, R20). -/
theorem oneBit_dirValue : oneBit (dirValue c) = true := by
  rw [oneBit_iff_card_setBits, dirValue, setBits_not, Finset.card_compl, h.card_maskSignals, Fintype.card_fin]

end FieldLayout

@[simp] theorem dirValue_and_maskSignals (c : Config) : dirValue c &&& maskSignals c = 0 := by
  simp [dirValue]

@[simp] theorem dirValue_or_maskSignals (c : Config) : dirValue c ||| maskSignals c = 0xFF := by
  simp [dirValue]

/-- Settles O6, by counting: the fields are disjoint and take seven of the eight bits, so their complement is one bit. -/
theorem directionValueIsTheOneSpareBit : Obligations.DirectionValueIsTheOneSpareBit := fun c hc =>
  ⟨(fieldLayout_of_wellFormed hc).oneBit_dirValue, dirValue_and_maskSignals c, dirValue_or_maskSignals c⟩

end Sys2Proof.Machine
end

section
/-! PROOF. What a step can do, said once: how the port answers each instruction (spec/10_state.md R15), the outcomes of
exec (`Executed`) and of step (`Stepped`). Later proofs split on these and do not unfold exec or step. -/

namespace Sys2Proof.Machine

/-! ### SEQ between two steps -/

/-- SEQ is idle and the block is between two operations (R14). -/
def State.Idle (s : State) : Prop := (s.phase = .unbuilt ∨ s.phase = .ready) ∧ s.op = .none ∧ s.step = 0

theorem State.seqStatus_eq_idle_iff {s : State} : s.seqStatus = .idle ↔ s.Idle := by
  cases hp : s.phase <;> simp [State.seqStatus, seqStatusOf, State.Idle, hp] <;> split <;> simp_all

theorem State.Idle.not_runsInit {s : State} (h : s.Idle) : ¬ s.runsInit := by
  rintro ⟨-, ho⟩
  simp [h.2.1] at ho

/-- Outside the hand-off a transport request is taken in READY alone (R98). -/
theorem State.Idle.phase_of_takesTransport {s : State} (h : s.Idle) (ht : s.takesTransport) : s.phase = .ready := by
  rcases ht with ⟨hp, -⟩ | ⟨-, ho⟩
  · exact hp
  · simp [h.2.1] at ho

/-! ### Transport requests -/

/-- In UNBUILT a transport request is Refused (R113). -/
theorem exec_transportInstr_refused (q : TransportOp) {s : State} (hp : s.phase = .unbuilt) (ho : s.op = .none) :
    exec (transportInstr q) s = .next s.takeRefused := by
  have ha : s.transportAcceptance = .refuse := by simp [State.transportAcceptance, hp, ho]
  cases q <;> simp [exec, transportInstr, execWriteCommand, execWriteData, execBacklightOn, execBacklightOff, ha]

/-- Where the port neither takes nor refuses a transport request, it waits (R15). -/
theorem exec_transportInstr_waits (q : TransportOp) {s : State} (ht : ¬ s.takesTransport)
    (hu : ¬ (s.phase = .unbuilt ∧ s.op = .none)) : exec (transportInstr q) s = .next s := by
  have ha : s.transportAcceptance = .wait := (if_neg ht).trans (if_neg hu)
  cases q <;> simp [exec, transportInstr, execWriteCommand, execWriteData, execBacklightOn, execBacklightOff, ha]

/-! ### The other instructions -/

theorem exec_init_waits (operand : Byte) (p : InitParams) {s : State} (h : ¬ s.takesInit) :
    exec (.init operand p) s = .next s := if_neg h

theorem exec_init_rejected (operand : Byte) {p : InitParams} {s : State} (h : s.takesInit) (hp : p.lines = 0 ∨ p.cols = 0) :
    exec (.init operand p) s = .next s.takeParamFault := (if_pos h).trans (if_pos hp)

theorem exec_nibbleInit_runs (code : Byte) {s : State} (h : s.runsInit) :
    exec (.nibbleInit code) s = .next (nibbleInitOp code s).state := if_pos h

theorem exec_nibbleInit_refused (code : Byte) {s : State} (h : s.op = .none) :
    exec (.nibbleInit code) s = .next s.takeRefused := by simp [exec, execNibbleInit, h]

theorem exec_nibbleInit_waits (code : Byte) {s : State} (h : ¬ s.runsInit) (ho : s.op ≠ .none) :
    exec (.nibbleInit code) s = .next s := (if_neg h).trans (if_neg ho)

theorem exec_reserved_refused (op : BitVec 3) (operand : Byte) {s : State} (h : s.op = .none) :
    exec (.reserved op operand) s = .next s.takeRefused := if_pos h

theorem exec_reserved_waits (op : BitVec 3) (operand : Byte) {s : State} (h : s.op ≠ .none) :
    exec (.reserved op operand) s = .next s := if_neg h

/-! ### Everything exec can do -/

/-- The next states that an instruction has in s: not taken, reported as a ParamFault or Refused, or run. -/
inductive Executed (s : State) : Instr → State → Prop
  | waits (i : Instr) : Executed s i s
  | rejected (i : Instr) : Executed s i s.takeParamFault
  | refused (i : Instr) : Executed s i s.takeRefused
  | init (operand : Byte) (p : InitParams) (taken : s.takesInit) (lines : p.lines ≠ 0) (cols : p.cols ≠ 0) :
      Executed s (.init operand p) (runInit (s.acceptInit p)).state
  | transport (q : TransportOp) (taken : s.takesTransport) : Executed s (transportInstr q) (baseRequest q s).state
  | nibbleInit (code : Byte) (runs : s.runsInit) : Executed s (.nibbleInit code) (nibbleInitOp code s).state

theorem exec_transportInstr_executed (q : TransportOp) (s : State) :
    ∃ t, exec (transportInstr q) s = .next t ∧ Executed s (transportInstr q) t := by
  by_cases ht : s.takesTransport
  · exact ⟨_, exec_transportInstr q ht, .transport q ht⟩
  · by_cases hu : s.phase = .unbuilt ∧ s.op = .none
    · exact ⟨_, exec_transportInstr_refused q hu.1 hu.2, .refused _⟩
    · exact ⟨_, exec_transportInstr_waits q ht hu, .waits _⟩

/-- Every instruction answers a next state, one of those above. -/
theorem exec_executed (i : Instr) (s : State) : ∃ t, exec i s = .next t ∧ Executed s i t := by
  cases i with
  | init operand p =>
    by_cases ht : s.takesInit
    · by_cases hp : p.lines = 0 ∨ p.cols = 0
      · exact ⟨_, exec_init_rejected operand ht hp, .rejected _⟩
      · obtain ⟨hl, hc⟩ := not_or.1 hp
        exact ⟨_, exec_init_taken operand ht hl hc, .init operand p ht hl hc⟩
    · exact ⟨_, exec_init_waits operand p ht, .waits _⟩
  | writeCommand cmd => exact exec_transportInstr_executed (.writeCommand cmd) s
  | writeData byte => exact exec_transportInstr_executed (.writeData byte) s
  | backlightOn operand => exact exec_transportInstr_executed (.backlightOn operand) s
  | backlightOff operand => exact exec_transportInstr_executed (.backlightOff operand) s
  | nibbleInit code =>
    by_cases hr : s.runsInit
    · exact ⟨_, exec_nibbleInit_runs code hr, .nibbleInit code hr⟩
    · by_cases ho : s.op = .none
      · exact ⟨_, exec_nibbleInit_refused code ho, .refused _⟩
      · exact ⟨_, exec_nibbleInit_waits code hr ho, .waits _⟩
  | reserved op operand =>
    by_cases ho : s.op = .none
    · exact ⟨_, exec_reserved_refused op operand ho, .refused _⟩
    · exact ⟨_, exec_reserved_waits op operand ho, .waits _⟩

theorem executed_of_exec {i : Instr} {s t : State} (h : exec i s = .next t) : Executed s i t := by
  obtain ⟨u, hu, hx⟩ := exec_executed i s
  rw [hu] at h
  cases h
  exact hx

/-! ### Everything step can do -/

theorem step_of_running {s : State} (hc : s.cfg.WellFormed = true) (h : s.seqStatus = .running) : step s = .next s.resume := by
  simp [step, hc, h]

theorem step_of_nothing_presented {s : State} (hc : s.cfg.WellFormed = true) (h : s.seqStatus = .idle) (hi : s.inputs = []) :
    step s = .next s := by
  simp [step, hc, h, hi, State.waitForRequest]

theorem step_of_reset {s : State} {rest : List HostInput} (hc : s.cfg.WellFormed = true) (h : s.seqStatus = .idle)
    (hi : s.inputs = .reset :: rest) : step s = .next (s.withInputs rest).hardwareReset := by
  simp [step, hc, h, hi]

theorem step_of_request {s : State} {r : Request} {rest : List HostInput} {i : Instr} (hc : s.cfg.WellFormed = true)
    (h : s.seqStatus = .idle) (hi : s.inputs = .request r :: rest) (hr : decode r = .ok i) :
    step s = exec i (s.withInputs rest) := by
  simp [step, hc, h, hi, hr]

/-- The next states that a step has in s: the operation in progress has ended, nothing was presented, or the oldest thing
presented has been taken. -/
inductive Stepped (s : State) : State → Prop
  | resumed (running : s.seqStatus = .running) : Stepped s s.resume
  | waited (idle : s.Idle) : Stepped s s
  | reset (idle : s.Idle) (rest : List HostInput) (inputs : s.inputs = .reset :: rest) :
      Stepped s (s.withInputs rest).hardwareReset
  | request (idle : s.Idle) (r : Request) (rest : List HostInput) (i : Instr) (t : State)
      (inputs : s.inputs = .request r :: rest) (decoded : decode r = .ok i)
      (executed : Executed (s.withInputs rest) i t) : Stepped s t

theorem stepped_of_step {s t : State} (h : step s = .next t) : Stepped s t := by
  unfold step at h
  split at h
  · split at h
    · cases h
    · next hr => cases h; exact .resumed hr
    · next hidle =>
      have hs : s.Idle := State.seqStatus_eq_idle_iff.1 hidle
      split at h
      · cases h; exact .waited hs
      · next rest hi => cases h; exact .reset hs rest hi
      · next r rest hi =>
        split at h
        · next i hd => exact .request hs r rest i t hi hd (executed_of_exec h)
        · cases h
  · cases h

/-- Settles O8: the three branches of a step before its last one are excluded by the hypotheses. -/
theorem stepRunsTheDecodedRequest : Obligations.StepRunsTheDecodedRequest :=
  fun _ _ _ _ hc hidle hi hd => step_of_request hc hidle hi hd

/-- Settles O30: one equation of exec for each of the four ways in which the port waits. -/
theorem notReadyPortTakesNothing : Obligations.NotReadyPortTakesNothing :=
  ⟨fun operand p _ h => exec_init_waits operand p h, fun q _ ht hu => exec_transportInstr_waits q ht hu,
    fun code _ hr ho => exec_nibbleInit_waits code hr ho, fun op operand _ ho => exec_reserved_waits op operand ho⟩

/-! ### Where a step answers -/

theorem opField_toNat (w : ReqWord) : (opField w).toNat = w.toNat / 256 := by
  have hw := w.isLt
  simp [opField, Nat.shiftRight_eq_div_pow]
  omega

theorem decodeBaseWord_ok {w : ReqWord} (h : isBaseWord w = true) : ∃ t, decodeBaseWord w = .ok t := by
  simp only [isBaseWord, Bool.and_eq_true, decide_eq_true_eq, ← opField_toNat] at h
  obtain ⟨h1, h4⟩ := h
  have hcases : (opField w).toNat = 1 ∨ (opField w).toNat = 2 ∨ (opField w).toNat = 3 ∨ (opField w).toNat = 4 := by omega
  rcases hcases with e | e | e | e <;> simp [decodeBaseWord, e]

theorem decodeBaseWords_ok {ws : List ReqWord} (h : ws.all isBaseWord = true) : ∃ ts, decodeBaseWords ws = .ok ts := by
  induction ws with
  | nil => exact ⟨[], rfl⟩
  | cons w ws ih =>
    rw [List.all_cons, Bool.and_eq_true] at h
    obtain ⟨t, ht⟩ := decodeBaseWord_ok h.1
    obtain ⟨ts, hts⟩ := ih h.2
    exact ⟨t :: ts, by simp [decodeBaseWords, ht, hts]⟩

/-- Only an INIT request whose base list holds another word than a transport request is no instruction (R53). -/
theorem decode_ok_of_wellFormed {r : Request} (h : r.WellFormed = true) : ∃ i, decode r = .ok i := by
  by_cases h0 : r.word.toNat / 256 = 0
  · have hb : r.initp.baseOps.all isBaseWord = true := by simpa [Request.WellFormed, h0] using h
    obtain ⟨ts, hts⟩ := decodeBaseWords_ok hb
    simp [decode, opField_toNat, h0, decodeInitBlock, hts]
  · rw [decode, opField_toNat]
    split
    · contradiction
    all_goals exact ⟨_, rfl⟩

/-- Settles O12: a legal SEQ is idle or running, an idle port's first request decodes, and exec always answers. -/
theorem stepStopsOnlyOutsideTheSpec : Obligations.StepStopsOnlyOutsideTheSpec := by
  intro s hc hlegal hwf
  cases hs : s.seqStatus with
  | illegal => exact absurd hs hlegal
  | running => exact ⟨_, step_of_running hc hs⟩
  | idle =>
    cases hi : s.inputs with
    | nil => exact ⟨_, step_of_nothing_presented hc hs hi⟩
    | cons x rest =>
      cases x with
      | reset => exact ⟨_, step_of_reset hc hs hi⟩
      | request r =>
        obtain ⟨i, hd⟩ := decode_ok_of_wellFormed (hwf r rest hi)
        obtain ⟨t, ht, -⟩ := exec_executed i (s.withInputs rest)
        exact ⟨t, (step_of_request hc hs hi hd).trans ht⟩

end Sys2Proof.Machine
end

section
/-! PROOF. How a flow can end, with one condition for a run that has gone on and another for one that a BusFault has cut:
the rule for event lists (`EndsEvents`) and the rule for whole operations (`EndsRuns`). KeptByEvents and KeptByRuns are the
case of one condition for both ends. -/

namespace Sys2Proof.Machine

/-! ### Flows -/

/-- G holds where the flow goes on, S where a BusFault has stopped it. -/
def Flow.Ends (G S : State → Prop) : Flow → Prop
  | .goes s => G s
  | .stopped s => S s

section

variable {G G' S : State → Prop} {w : Flow}

@[simp] theorem Flow.ends_goes (s : State) : (Flow.goes s).Ends G S ↔ G s := Iff.rfl
@[simp] theorem Flow.ends_stopped (s : State) : (Flow.stopped s).Ends G S ↔ S s := Iff.rfl

theorem Flow.Ends.andThen {f : State → Flow} (hw : w.Ends G S) (hf : ∀ s, G s → (f s).Ends G' S) :
    (w.andThen f).Ends G' S := by
  cases w with
  | goes s => exact hf s hw
  | stopped s => exact hw

theorem Flow.Ends.state (hw : w.Ends G S) : G w.state ∨ S w.state := by
  cases w with
  | goes s => exact .inl hw
  | stopped s => exact .inr hw

theorem Flow.Ends.state_same (hw : w.Ends S S) : S w.state := hw.state.elim id id

theorem Flow.Ends.mono {S' : State → Prop} (hw : w.Ends G S) (hG : ∀ s, G s → G' s) (hS : ∀ s, S s → S' s) :
    w.Ends G' S' := by
  cases w with
  | goes s => exact hG s hw
  | stopped s => exact hS s hw

end

/-! ### Event lists and operations -/

/-- Whatever an event list does, it keeps G while it goes on, and a BusFault taken where G holds leads to S. -/
structure EndsEvents (G S : State → Prop) : Prop where
  opr : ∀ s v, G s → G (s.loadOpr v)
  ok : ∀ s t, G s → Issued s t → G ((s.popAnswer.deliver t).record (.bus t))
  fail : ∀ s t, G s → Issued s t → S (s.popAnswer.takeBusFault t)
  wait : ∀ s ms, G s → G (s.record (.delay ms))

/-- Whatever an operation in progress does, it keeps G while it goes on, and a BusFault leads to S. -/
structure EndsRuns (G S : State → Prop) : Prop extends EndsEvents G S where
  begun : ∀ s q, G s → G (s.begun q)
  endOp : ∀ s, G s → G s.endTransport
  handoff : ∀ s, G s → G s.enterHandoff
  base : ∀ s ts, G s → G (s.withBase ts)
  final : ∀ s, G s → G s.enterFinal
  finish : ∀ s, G s → G s.finishInit

section

variable {G S : State → Prop} {s : State}

theorem EndsEvents.transact (h : EndsEvents G S) {t : Transaction} (hs : G s) (ht : Issued s t) :
    (transact t s).Ends G S := by
  rcases transact_cases t s with ⟨-, e⟩ | ⟨-, e⟩
  · rw [e]; exact h.ok s t hs ht
  · rw [e]; exact h.fail s t hs ht

theorem Issued.loadOpr {t : Transaction} (h : Issued s t) (v : Byte) : Issued (s.loadOpr v) t := by
  cases h with
  | seed => exact .seed
  | direction => exact .direction
  | gpio asserted bl rs nib => exact .gpio asserted bl rs nib

theorem EndsEvents.micro (h : EndsEvents G S) (m : MicroOp) (hs : G s) : (runMicro m s).Ends G S := by
  rcases runMicro_cases m s with ⟨t, ht, e | ⟨v, e⟩⟩ | ⟨ms, e⟩ | e
  · rw [e]; exact h.transact hs ht
  · rw [e]; exact h.transact (h.opr s v hs) (ht.loadOpr v)
  · rw [e]; exact h.wait s ms hs
  · rw [e]; exact hs

theorem EndsEvents.micros (h : EndsEvents G S) (ms : List MicroOp) (hs : G s) : (runMicros ms s).Ends G S := by
  induction ms generalizing s with
  | nil => exact hs
  | cons m ms ih => exact (h.micro m hs).andThen fun _ hs' => ih hs'

theorem EndsRuns.finishTransport (h : EndsRuns G S) (events : List MicroOp) (hs : G s) :
    (finishTransport events s).Ends G S :=
  (h.micros _ hs).andThen fun s' hs' => h.endOp s' hs'

theorem EndsRuns.baseRequest (h : EndsRuns G S) (q : TransportOp) (hs : G s) : (baseRequest q s).Ends G S := by
  rw [baseRequest_eq]
  exact (h.micros _ (h.begun s q hs)).andThen fun s' hs' => h.endOp s' hs'

theorem EndsRuns.runBase (h : EndsRuns G S) (ts : List TransportOp) (hs : G s) : (runBase ts s).Ends G S := by
  induction ts generalizing s with
  | nil => exact hs
  | cons q ts ih => exact (h.baseRequest q (h.base s ts hs)).andThen fun _ hs' => ih hs'

theorem EndsRuns.runFinal (h : EndsRuns G S) (hs : G s) : (runFinal s).Ends G S :=
  (h.micros _ hs).andThen fun s' hs' => h.finish s' hs'

theorem EndsRuns.runHandoff (h : EndsRuns G S) (hs : G s) : (runHandoff s).Ends G S :=
  (h.runBase _ hs).andThen fun s' hs' => h.runFinal (h.final s' hs')

theorem EndsRuns.runInit (h : EndsRuns G S) (hs : G s) : (runInit s).Ends G S :=
  (h.micros _ hs).andThen fun s' hs' => h.runHandoff (h.handoff s' hs')

theorem EndsRuns.resume (h : EndsRuns G S) (hs : G s) : G s.resume ∨ S s.resume := by
  unfold State.resume
  split
  · exact .inl hs
  · exact (h.runInit hs).state
  · split
    · exact (h.runHandoff hs).state
    · exact ((h.finishTransport _ hs).andThen fun s' hs' => h.runHandoff hs').state
  · exact (h.runFinal hs).state
  · exact (h.finishTransport _ hs).state

end

/-! ### Every operation ends with an idle SEQ -/

theorem State.takeBusFault_idle (s : State) (x : Transaction) : (s.takeBusFault x).Idle := by
  by_cases h : s.phase = .ready <;> simp [State.Idle, h]

theorem State.finishInit_idle (s : State) : s.finishInit.Idle := ⟨.inr rfl, rfl, rfl⟩

/-- R114: wherever an operation is cut, SEQ is idle. -/
theorem endsRuns_cut_idle : EndsRuns (fun _ => True) State.Idle where
  opr _ _ _ := trivial
  ok _ _ _ _ := trivial
  fail s x _ _ := s.popAnswer.takeBusFault_idle x
  wait _ _ _ := trivial
  begun _ _ _ := trivial
  endOp _ _ := trivial
  handoff _ _ := trivial
  base _ _ _ := trivial
  final _ _ := trivial
  finish _ _ := trivial

/-- An event list does not leave READY: a BusFault there leaves PHASE = READY too (R114). -/
theorem endsEvents_ready : EndsEvents (fun s => s.phase = .ready) State.Idle where
  opr _ _ h := h
  ok _ _ h _ := by simpa using h
  fail s x _ _ := s.popAnswer.takeBusFault_idle x
  wait _ _ h := h

theorem finishTransport_ready_idle (events : List MicroOp) {s : State} (h : s.phase = .ready) :
    (finishTransport events s).Ends State.Idle State.Idle :=
  (endsEvents_ready.micros _ h).andThen fun s' hs' => by simp [State.Idle, hs']

theorem baseRequest_ready_idle (q : TransportOp) {s : State} (h : s.phase = .ready) :
    (baseRequest q s).Ends State.Idle State.Idle := by
  rw [baseRequest_eq]
  exact (endsEvents_ready.micros _ (by simpa using h)).andThen fun s' hs' => by simp [State.Idle, hs']

theorem runFinal_idle (s : State) : (runFinal s).Ends State.Idle State.Idle :=
  (endsRuns_cut_idle.micros _ trivial).andThen fun s' _ => s'.finishInit_idle

theorem runHandoff_idle (s : State) : (runHandoff s).Ends State.Idle State.Idle :=
  (endsRuns_cut_idle.runBase _ trivial).andThen fun s' _ => runFinal_idle s'.enterFinal

theorem runInit_idle (s : State) : (runInit s).Ends State.Idle State.Idle :=
  (endsRuns_cut_idle.micros _ trivial).andThen fun s' _ => runHandoff_idle s'.enterHandoff

theorem State.resume_idle {s : State} (h : s.seqStatus = .running) : s.resume.Idle := by
  unfold State.resume
  split
  · next hp => simp [State.seqStatus, seqStatusOf, hp] at h; split at h <;> cases h
  · exact (runInit_idle s).state_same
  · split
    · exact (runHandoff_idle s).state_same
    · exact ((endsRuns_cut_idle.finishTransport _ trivial).andThen fun s' _ => runHandoff_idle s').state_same
  · exact (runFinal_idle s).state_same
  · next hp => exact (finishTransport_ready_idle _ hp).state_same

theorem Executed.idle {s t : State} {i : Instr} (h : Executed s i t) (hs : s.Idle) : t.Idle := by
  cases h with
  | waits => exact hs
  | rejected => exact hs
  | refused => exact hs
  | init operand p => exact (runInit_idle _).state_same
  | transport q taken => exact (baseRequest_ready_idle q (hs.phase_of_takesTransport taken)).state_same
  | nibbleInit code runs => exact absurd runs hs.not_runsInit

theorem Stepped.idle {s t : State} (h : Stepped s t) : t.Idle := by
  cases h with
  | resumed running => exact State.resume_idle running
  | waited idle => exact idle
  | reset idle rest => exact ⟨.inl rfl, rfl, rfl⟩
  | request idle r rest i t inputs decoded executed => exact executed.idle idle

/-- Settles O11, by cases on what a step can do. -/
theorem everyStepEndsWithAnIdleSequencer : Obligations.EveryStepEndsWithAnIdleSequencer :=
  fun _ _ h => (stepped_of_step h).idle

/-- No operation takes anything that is presented (R47). -/
theorem keptByRuns_inputs (ins : List HostInput) : KeptByRuns (fun s => s.inputs = ins) where
  opr _ _ h := h
  ok _ _ h _ := by simpa using h
  fail _ _ h _ := by simpa using h
  wait _ _ h := h
  begin _ _ _ _ h := h
  beginLevel _ _ _ h := h
  endOp _ h := by simpa using h
  handoff _ h := h
  base _ _ h := h
  final _ h := h
  finish _ h := h

/-- Settles O10: the step is the rest of the operation, which ends idle and takes nothing. -/
theorem operationInProgressEndsBeforeThePortTakesAnything :
    Obligations.OperationInProgressEndsBeforeThePortTakesAnything := fun s hc hr =>
  ⟨s.resume, step_of_running hc hr, (keptByRuns_inputs s.inputs).resume rfl,
    State.seqStatus_eq_idle_iff.2 (State.resume_idle hr)⟩

/-! ### FAULT -/

/-- While an operation goes on FAULT is as it was; where one is cut FAULT is set and ERR is BUS_FAULT (R16, R114). -/
theorem endsRuns_fault (v : Bool) :
    EndsRuns (fun s => s.fault = v) (fun s => s.fault = true ∧ s.err = .busFault) where
  opr _ _ h := h
  ok _ _ h _ := by simpa using h
  fail _ _ _ _ := by simp
  wait _ _ h := h
  begun _ _ h := by simpa using h
  endOp _ h := by simpa using h
  handoff _ h := h
  base _ _ h := h
  final _ h := h
  finish _ h := h

/-- What an instruction does to FAULT (R16): it stays, or a BusFault has set it, or a taken INIT has cleared it. -/
theorem Executed.fault {s t : State} {i : Instr} (h : Executed s i t) :
    t.fault = s.fault ∨ (t.fault = true ∧ t.err = .busFault) ∨
      (t.fault = false ∧ s.takesInit ∧ ∃ operand p, i = .init operand p ∧ p.lines ≠ 0 ∧ p.cols ≠ 0) := by
  cases h with
  | waits => exact .inl rfl
  | rejected => exact .inl rfl
  | refused => exact .inl rfl
  | init operand p taken lines cols =>
    rcases ((endsRuns_fault false).runInit (s.acceptInit_fault p)).state with hgoes | hcut
    · exact .inr (.inr ⟨hgoes, taken, operand, p, rfl, lines, cols⟩)
    · exact .inr (.inl hcut)
  | transport q taken => exact ((endsRuns_fault s.fault).baseRequest q rfl).state.imp_right .inl
  | nibbleInit code runs =>
    have hends : (nibbleInitOp code s).Ends (fun u => u.fault = s.fault) (fun u => u.fault = true ∧ u.err = .busFault) :=
      ((endsRuns_fault s.fault).micros _ rfl).andThen fun _ hs' => hs'
    exact hends.state.imp_right .inl

/-- What a step does to FAULT (R16): as an instruction, and a hardware reset clears it (R130). -/
theorem Stepped.fault {s t : State} (h : Stepped s t) :
    t.fault = s.fault ∨ (t.fault = true ∧ t.err = .busFault) ∨ (t.fault = false ∧ s.Idle ∧
      ((∃ rest, s.inputs = .reset :: rest) ∨
        ∃ r rest operand p,
          s.inputs = .request r :: rest ∧ decode r = .ok (.init operand p) ∧ p.lines ≠ 0 ∧ p.cols ≠ 0)) := by
  cases h with
  | resumed running => exact ((endsRuns_fault s.fault).resume rfl).imp_right .inl
  | waited => exact .inl rfl
  | reset idle rest inputs => exact .inr (.inr ⟨rfl, idle, .inl ⟨rest, inputs⟩⟩)
  | request idle r rest i t inputs decoded executed =>
    rcases executed.fault with hkept | hcut | ⟨hcleared, -, operand, p, rfl, hl, hc⟩
    · exact .inl hkept
    · exact .inr (.inl hcut)
    · exact .inr (.inr ⟨hcleared, idle, .inr ⟨r, rest, operand, p, inputs, decoded, hl, hc⟩⟩)

/-- Settles O34: of the things that an instruction or a step can do to FAULT one sets it and one clears it. -/
theorem faultFlagIsSetByBusFaultsAndClearedByInit : Obligations.FaultFlagIsSetByBusFaultsAndClearedByInit := by
  refine ⟨fun i s t h h0 h1 => ?_, fun i s t h h0 h1 => ?_, fun s t h h0 h1 => ?_, fun s t h h0 h1 => ?_⟩
  · rcases (executed_of_exec h).fault with hkept | hcut | hcleared
    · simp [hkept, h0] at h1
    · exact hcut.2
    · simp [hcleared.1] at h1
  · rcases (executed_of_exec h).fault with hkept | hcut | hcleared
    · simp [hkept, h0] at h1
    · simp [hcut.1] at h1
    · exact hcleared.2
  · rcases (stepped_of_step h).fault with hkept | hcut | hcleared
    · simp [hkept, h0] at h1
    · exact hcut.2
    · simp [hcleared.1] at h1
  · rcases (stepped_of_step h).fault with hkept | hcut | ⟨-, hidle, hcause⟩
    · simp [hkept, h0] at h1
    · simp [hcut.1] at h1
    · exact ⟨State.seqStatus_eq_idle_iff.2 hidle, hcause⟩

end Sys2Proof.Machine
end

section
/-! PROOF. The strobe and the controller (spec/10_state.md R25, R28; spec/20_memory.md R42 to R44): what a composed byte
presents on E, and what the target side has made of the traces of whole operations. -/

namespace Sys2Proof.Machine

/-! ### A composed byte leaves E low -/

namespace FieldLayout

variable {c : Config} (h : FieldLayout c)
include h

theorem compose_and_maskE (bl rs : Bool) (nib : Nibble) : compose c bl rs nib &&& c.maskE = 0 := by
  have hbl : (bitByte bl <<< c.shiftBl) &&& c.maskE = 0 := by
    cases bl
    · simp [bitByte]
    · exact (BitVec.and_comm _ _).trans h.e_bl
  have hdata : (nib.setWidth 8 <<< c.shiftData) &&& c.maskE = 0 := by
    have hnib : nib.setWidth 8 = nib.setWidth 8 &&& 0x0F#8 := by decide +revert
    have hmask : nib.setWidth 8 <<< c.shiftData = (nib.setWidth 8 <<< c.shiftData) &&& maskData c := by
      rw [maskData, ← BitVec.shiftLeft_and_distrib, ← hnib]
    rw [hmask, BitVec.and_assoc, BitVec.and_comm (maskData c), h.e_data]
    simp
  have hrs : (if rs then c.maskRs else 0) &&& c.maskE = 0 := by
    cases rs
    · simp
    · exact h.rs_e
  simp only [compose, BitVec.and_or_distrib_right, hbl, hdata, hrs, BitVec.or_self]

theorem eLevel_compose (bl rs : Bool) (nib : Nibble) : eLevel c (compose c bl rs nib) = false := by
  simp [eLevel, h.compose_and_maskE]

theorem maskE_ne_zero : c.maskE ≠ 0 := by
  intro h0
  have hone := oneBit_iff_card_setBits.1 h.e_oneBit
  rw [h0, setBits_zero] at hone
  simp at hone

theorem eLevel_or_maskE (b : Byte) : eLevel c (b ||| c.maskE) = true := by
  have hand : (b ||| c.maskE) &&& c.maskE = c.maskE :=
    setBits_injective (by rw [setBits_and, setBits_or, Finset.union_inter_cancel_right])
  simpa [eLevel, hand] using h.maskE_ne_zero

end FieldLayout

/-! ### Register writes to the output latch -/

theorem State.strobeLow_congr {s t : State} (h : s.target = t.target) : s.strobeLow ↔ t.strobeLow := by
  obtain ⟨hc, hr, -⟩ := State.target_eq_iff.1 h
  simp [State.strobeLow, hc, hr]

theorem State.iface_congr {s t : State} (h : s.target = t.target) : s.iface = t.iface :=
  (State.target_eq_iff.1 h).2.2.2.1

theorem State.eLevel_lat_of_strobeLow {s : State} (h : s.strobeLow) : eLevel s.cfg s.lat = false := by
  obtain ⟨v, hread, hlow⟩ := h
  simpa [State.lat, State.regByte, hread] using hlow

theorem State.lat_storeRegister_gpio (s : State) (v : Byte) : (s.storeRegister s.cfg.regGpio v).lat = v := by
  simp [State.lat, State.regByte_storeRegister_same]

theorem State.strobeLow_storeRegister_gpio (s : State) {v : Byte} (h : eLevel s.cfg v = false) :
    (s.storeRegister s.cfg.regGpio v).strobeLow :=
  ⟨v, by simp [Memory.read_write_same], by simpa using h⟩

/-- A byte with E asserted makes no falling edge. -/
theorem latches_asserted {c : Config} {new : Byte} (old : Byte) (h : eLevel c new = true) : latches c old new = [] := by
  simp [latches, fallingEdge, h]

/-- From a byte with E low nothing makes a falling edge. -/
theorem latches_of_low {c : Config} {old : Byte} (new : Byte) (h : eLevel c old = false) : latches c old new = [] := by
  simp [latches, fallingEdge, h]

/-- A falling edge latches the one pair that the new byte presents (R44). -/
theorem latches_falling {c : Config} {old new : Byte} (ho : eLevel c old = true) (hn : eLevel c new = false) :
    latches c old new = [(rsLevel c new, dataField c new)] := by
  simp [latches, fallingEdge, ho, hn]

@[simp] theorem Iface.afterNibbles_nil (i : Iface) : i.afterNibbles [] = i := by cases i <;> rfl

/-! ### The traces of whole operations -/

section

variable {s : State} {c : Config} (hc : s.cfg = c) (h : FieldLayout c)
include hc h

/-- A strobe pair leaves E low, and the controller has latched its one nibble (R25, R43). -/
theorem State.replay_strobePair (a : DevAddr) {b : Byte} (hb : eLevel c b = false) :
    (s.replay (strobePair c a b)).strobeLow ∧
      (s.replay (strobePair c a b)).iface = s.iface.afterNibbles [(rsLevel c b, dataField c b)] := by
  subst hc
  have hE : eLevel s.cfg (b ||| s.cfg.maskE) = true := h.eLevel_or_maskE b
  refine ⟨State.strobeLow_storeRegister_gpio (s.storeRegister s.cfg.regGpio (b ||| s.cfg.maskE)) hb, ?_⟩
  simp [strobePair, gpioWrite, State.replay, State.deliver, State.lat_storeRegister_gpio, latches_asserted _ hE,
    latches_falling hE hb]

/-- The two pairs of a byte leave E low and the controller where it was, expecting a high nibble (R25, R35). -/
theorem State.replay_bytePairs (a : DevAddr) (bl rs : Bool) (v : Byte) :
    (s.replay (bytePairs c a bl rs v)).strobeLow ∧
      (s.iface = .expectHigh → (s.replay (bytePairs c a bl rs v)).iface = .expectHigh) := by
  rw [bytePairs, State.replay_append]
  obtain ⟨-, hhigh⟩ := State.replay_strobePair hc h a (h.eLevel_compose bl rs (hiNibble v))
  obtain ⟨hlow, hlowNibble⟩ := State.replay_strobePair ((State.replay_cfg s _).trans hc) h a
    (h.eLevel_compose bl rs (loNibble v))
  refine ⟨hlow, fun hi => ?_⟩
  rw [hlowNibble, hhigh, hi]
  rfl

theorem State.replay_commandTrace (a : DevAddr) (bl : Bool) (cmd : Byte) :
    (s.replay (commandTrace c a bl cmd)).strobeLow ∧
      (s.iface = .expectHigh → (s.replay (commandTrace c a bl cmd)).iface = .expectHigh) := by
  have hdelay : ∀ u : State, u.replay (if cmd.toNat ≤ 3 then [.delay 5] else []) = u := fun u => by split <;> rfl
  rw [commandTrace, State.replay_append, hdelay]
  exact State.replay_bytePairs hc h a bl false cmd

/-- The one write of a backlight operation makes no edge where E is low (R102). -/
theorem State.replay_levelTrace (a : DevAddr) (bl : Bool) (hlow : s.strobeLow) :
    (s.replay (levelTrace c a bl)).strobeLow ∧ (s.replay (levelTrace c a bl)).iface = s.iface := by
  subst hc
  refine ⟨State.strobeLow_storeRegister_gpio s (h.eLevel_compose bl false 0), ?_⟩
  simp [levelTrace, gpioWrite, State.replay, State.deliver, latches_of_low _ (State.eLevel_lat_of_strobeLow hlow)]

/-- A transport operation leaves E low and the controller expecting a high nibble, where it finds them so (R25, R28). -/
theorem State.replay_transportTrace (u : State) (hu : u.cfg = c) (q : TransportOp) (hlow : s.strobeLow)
    (hi : s.iface = .expectHigh) :
    (s.replay (transportTrace u q)).strobeLow ∧ (s.replay (transportTrace u q)).iface = .expectHigh := by
  subst hu
  cases q with
  | writeCommand cmd =>
    obtain ⟨hlow', hi'⟩ := State.replay_commandTrace hc h u.addr u.backlight cmd
    exact ⟨hlow', hi' hi⟩
  | writeData byte =>
    obtain ⟨hlow', hi'⟩ := State.replay_bytePairs hc h u.addr u.backlight true byte
    exact ⟨hlow', hi' hi⟩
  | backlightOn operand =>
    obtain ⟨hlow', hi'⟩ := State.replay_levelTrace hc h u.addr true hlow
    exact ⟨hlow', hi'.trans hi⟩
  | backlightOff operand =>
    obtain ⟨hlow', hi'⟩ := State.replay_levelTrace hc h u.addr false hlow
    exact ⟨hlow', hi'.trans hi⟩

end

end Sys2Proof.Machine
end

section
/-! PROOF. The settled state (spec/10_state.md R14, R25, R28, R98): how event lists and operations end whatever the bus
answers, and that every step keeps the invariant `State.Settled`. -/

namespace Sys2Proof.Machine

/-! ### Either every transaction is ok, or a first one fails -/

theorem State.answersOk_or_failsAt (s : State) (n : Nat) : s.AnswersOk n ∨ ∃ k < n, s.FailsAt k := by
  induction n with
  | zero => exact .inl (.zero s)
  | succ n ih =>
    rcases ih with hok | ⟨k, hk, hfail⟩
    · cases hn : s.answerAt n with
      | ok =>
        refine .inl fun k hk => ?_
        rcases Nat.lt_succ_iff_lt_or_eq.1 hk with hlt | rfl
        · exact hok k hlt
        · exact hn
      | fail => exact .inr ⟨n, n.lt_succ_self, hok, hn⟩
    · exact .inr ⟨k, hk.trans n.lt_succ_self, hfail⟩

/-- A BusFault leaves SEQ, FAULT and ERR as R114 says, and the backlight flag as it was (R103). -/
theorem State.faultedFrom_takeBusFault {s t : State} (hp : t.phase = s.phase) (hbl : t.bl = s.bl) (x : Transaction) :
    s.faultedFrom (t.popAnswer.takeBusFault x) ∧ (t.popAnswer.takeBusFault x).bl = s.bl := by
  simp [State.faultedFrom, hp, hbl]

/-- HOW AN EVENT LIST ENDS, whatever the bus answers: all its events have happened, or a BusFault has cut it. -/
theorem runMicros_ends {ms : List MicroOp} (hs : Settles ms) (s : State) :
    (runMicros ms s).Ends (fun t => Ran s t (ms.flatMap (planned s))) (fun t => s.faultedFrom t ∧ t.bl = s.bl) := by
  rcases s.answersOk_or_failsAt (transactions (ms.flatMap (planned s))) with hok | ⟨n, hn, hfail⟩
  · obtain ⟨t, e, hr⟩ := runMicros_ok hs hok
    rw [e]; exact hr
  · obtain ⟨t, pre, x, post, -, -, hr, e | ⟨v, -, e⟩⟩ := runMicros_fail hs hn hfail
    · rw [e]; exact State.faultedFrom_takeBusFault hr.phase hr.bl x
    · rw [e]; exact State.faultedFrom_takeBusFault (t := t.loadOpr v) hr.phase hr.bl x

/-- HOW A TRANSPORT OPERATION ENDS, whatever the bus answers: its trace has happened, or a BusFault has cut it. -/
theorem baseRequest_ends (q : TransportOp) (s : State) :
    (baseRequest q s).Ends (fun t => ∃ u, t = u.endTransport ∧ Ran (s.begun q) u (transportTrace s q))
      (fun t => s.faultedFrom t ∧ t.bl = transportFlag s q) := by
  rw [baseRequest_eq, ← planned_requestEvents]
  refine ((runMicros_ends (.inr (requestEvents_steady q)) (s.begun q)).mono (fun _ h => h) fun t h => ?_).andThen
    fun u hr => ⟨u, rfl, hr⟩
  simpa [State.faultedFrom] using h

/-! ### The part of the invariant that speaks of READY -/

/-- The part of the invariant that speaks of a block in READY: its backlight flag is written (R98), and with FAULT = 0 its
strobe is low (R28) and the controller expects a high nibble (R25). -/
def State.ReadySound (s : State) : Prop :=
  (s.phase = .ready → s.bl ≠ none) ∧ (s.phase = .ready → s.fault = false → s.strobeLow ∧ s.iface = .expectHigh)

theorem State.settled_iff {s : State} :
    s.Settled ↔ s.cfg.WellFormed = true ∧ s.regs.wf ∧ s.Idle ∧ s.ReadySound := by
  rw [State.Settled, State.ReadySound, State.seqStatus_eq_idle_iff]

theorem State.readySound_of_unbuilt {s : State} (h : s.phase = .unbuilt) : s.ReadySound :=
  ⟨fun hr => (by rw [h] at hr; cases hr), fun hr => (by rw [h] at hr; cases hr)⟩

/-- An operation that a BusFault has cut leaves a sound block where the backlight flag has been written. -/
theorem State.faultedFrom.readySound {s t : State} (h : s.faultedFrom t) (hbl : t.bl ≠ none) : t.ReadySound :=
  ⟨fun _ => hbl, fun _ hf => (by rw [h.1] at hf; cases hf)⟩

/-- A BusFault inside INIT leaves the block in UNBUILT (R81, R114). -/
theorem State.faultedFrom.unbuilt {s t : State} (h : s.faultedFrom t) (hp : s.phase ≠ .ready) : t.phase = .unbuilt := by
  obtain ⟨-, -, -, -, hphase, -⟩ := h
  simpa [hp] using hphase

theorem transportFlag_ne_none {s : State} (h : s.bl ≠ none) (q : TransportOp) : transportFlag s q ≠ none := by
  cases q with
  | writeCommand cmd => exact h
  | writeData byte => exact h
  | backlightOn operand => simp [transportFlag]
  | backlightOff operand => simp [transportFlag]

/-- In READY a transport operation leaves a sound block sound, however it ends. -/
theorem baseRequest_readySound (q : TransportOp) {s : State} (hc : s.cfg.WellFormed = true) (hp : s.phase = .ready)
    (hs : s.ReadySound) : (baseRequest q s).state.ReadySound := by
  obtain ⟨hbl, hrest⟩ := hs
  have hflag : transportFlag s q ≠ none := transportFlag_ne_none (hbl hp) q
  rcases (baseRequest_ends q s).state with ⟨u, hu, hr⟩ | ⟨hcut, hcutBl⟩
  · rw [hu]
    refine ⟨fun _ => ?_, fun _ hf => ?_⟩
    · simpa [hr.bl] using hflag
    · obtain ⟨hlow, hi⟩ := hrest hp (by simpa [hr.fault] using hf)
      have hbegun : (s.begun q).strobeLow := by simpa [State.strobeLow] using hlow
      obtain ⟨hlow', hi'⟩ := State.replay_transportTrace (s.begun_cfg q) (fieldLayout_of_wellFormed hc) s rfl q hbegun
        ((s.begun_iface q).trans hi)
      refine ⟨?_, ?_⟩
      · simpa [State.strobeLow] using (State.strobeLow_congr hr.target).2 hlow'
      · simpa using (State.iface_congr hr.target).trans hi'
  · exact hcut.readySound (hcutBl ▸ hflag)

/-! ### INIT, stage by stage -/

/-- Inside the hand-off of an INIT with configuration c: the base has set the backlight flag (R78). -/
def State.InHandoff (c : Config) (s : State) : Prop := s.phase = .handoff ∧ s.bl ≠ none ∧ s.cfg = c

theorem baseRequest_inHandoff {c : Config} (q : TransportOp) {s : State} (hs : s.InHandoff c) :
    (baseRequest q s).Ends (State.InHandoff c) (fun t => t.phase = .unbuilt) := by
  obtain ⟨hp, hbl, hc⟩ := hs
  refine (baseRequest_ends q s).mono ?_ fun t ht => ht.1.unbuilt (by simp [hp])
  rintro _ ⟨u, rfl, hr⟩
  refine ⟨?_, ?_, ?_⟩
  · simpa [hr.phase] using hp
  · simpa [hr.bl] using transportFlag_ne_none hbl q
  · simpa [hr.cfg] using hc

theorem runBase_inHandoff {c : Config} (qs : List TransportOp) {s : State} (hs : s.InHandoff c) :
    (runBase qs s).Ends (State.InHandoff c) (fun t => t.phase = .unbuilt) := by
  induction qs generalizing s with
  | nil => exact hs
  | cons q qs ih => exact (baseRequest_inHandoff q (s := s.withBase qs) hs).andThen fun _ hs' => ih hs'

/-- The final command completes INIT with a sound block (R79, R133), or is cut and leaves it in UNBUILT. -/
theorem runFinal_readySound {s : State} (hc : s.cfg.WellFormed = true) (hbl : s.bl ≠ none) :
    (runFinal s.enterFinal).Ends State.ReadySound (fun t => t.phase = .unbuilt) := by
  refine ((runMicros_ends (settles_commandEvents_drop _) s.enterFinal).mono (fun _ h => h) fun t ht =>
    ht.1.unbuilt (by simp)).andThen fun u hr => ?_
  have htrace : commandEvents.flatMap (planned s.enterFinal) =
      commandTrace s.cfg s.addr s.enterFinal.backlight (finalCmd s.cfg s.lines) := planned_commandEvents _ rfl
  rw [State.enterFinal_step, Nat.sub_self, List.drop_zero, htrace] at hr
  obtain ⟨hlow, -⟩ := State.replay_commandTrace (s.enterFinal_cfg) (fieldLayout_of_wellFormed hc) s.addr
    s.enterFinal.backlight (finalCmd s.cfg s.lines)
  refine ⟨fun _ => ?_, fun _ _ => ⟨?_, rfl⟩⟩
  · simpa [hr.bl] using hbl
  · simpa [State.strobeLow] using (State.strobeLow_congr hr.target).2 hlow

theorem runHandoff_readySound {s : State} (hc : s.cfg.WellFormed = true) (hs : s.InHandoff s.cfg) :
    (runHandoff s).Ends State.ReadySound (fun t => t.phase = .unbuilt) :=
  (runBase_inHandoff _ hs).andThen fun _ ⟨_, hbl, hcfg⟩ => runFinal_readySound (hcfg ▸ hc) hbl

/-- INIT completes with a sound block, or is cut and leaves it in UNBUILT (R81, R133). -/
theorem runInit_readySound {s : State} (hc : s.cfg.WellFormed = true) (hp : s.phase = .init) :
    (runInit s).Ends State.ReadySound (fun t => t.phase = .unbuilt) :=
  ((runMicros_ends (settles_initEvents_drop s.cfg s.step) s).mono (fun _ h => h) fun t ht =>
    ht.1.unbuilt (by simp [hp])).andThen fun u hr =>
      runHandoff_readySound (by simpa [hr.cfg] using hc) ⟨rfl, by simp, rfl⟩

/-! ### Every step keeps the settled state -/

/-- R48: nothing that a step does writes the configuration. -/
theorem keptBySteps_cfg (c : Config) : KeptBySteps (fun s => s.cfg = c) where
  opr _ _ h := h
  ok _ _ h _ := by simpa using h
  fail _ _ h _ := by simpa using h
  wait _ _ h := h
  begin _ _ _ _ h := h
  beginLevel _ _ _ h := h
  endOp _ h := by simpa using h
  handoff _ h := h
  base _ _ h := h
  final _ h := h
  finish _ h := h
  report _ _ h := h
  releaseOpr _ h := h
  accept _ _ h := h
  taken _ _ h := h
  hardwareReset _ h := h

/-- Everything that a step does keeps the register list in canonical form. -/
theorem keptBySteps_regsWf : KeptBySteps (fun s => s.regs.wf) where
  opr _ _ h := h
  ok s t h _ := State.deliver_wf (s := s.popAnswer) h t
  fail s t h _ := by rw [State.takeBusFault_regs]; exact State.spoil_wf (s := s.popAnswer) h t
  wait _ _ h := h
  begin _ _ _ _ h := h
  beginLevel _ _ _ h := h
  endOp _ h := by simpa using h
  handoff _ h := h
  base _ _ h := h
  final _ h := h
  finish _ h := h
  report _ _ h := h
  releaseOpr _ h := h
  accept _ _ _ := Memory.nil_wf
  taken _ _ h := h
  hardwareReset _ h := h

theorem Executed.readySound {s t : State} {i : Instr} (h : Executed s i t) (hc : s.cfg.WellFormed = true) (hidle : s.Idle)
    (hs : s.ReadySound) : t.ReadySound := by
  cases h with
  | waits => exact hs
  | rejected => exact hs
  | refused => exact hs
  | init operand p => exact (runInit_readySound (s := s.acceptInit p) hc rfl).state.elim id State.readySound_of_unbuilt
  | transport q taken => exact baseRequest_readySound q hc (hidle.phase_of_takesTransport taken) hs
  | nibbleInit code runs => exact absurd runs hidle.not_runsInit

/-- From a sound state with an idle SEQ every step gives a sound one. -/
theorem Stepped.readySound {s t : State} (h : Stepped s t) (hc : s.cfg.WellFormed = true) (hidle : s.Idle)
    (hs : s.ReadySound) : t.ReadySound := by
  cases h with
  | resumed running => rw [State.seqStatus_eq_idle_iff.2 hidle] at running; cases running
  | waited => exact hs
  | reset => exact State.readySound_of_unbuilt rfl
  | request _ r rest i t inputs decoded executed => exact executed.readySound hc hidle hs

/-- Settles O44: the configuration and the canonical register list are kept by every update, SEQ is idle after every step,
and the block is kept sound by each thing that a step of an idle port can do. -/
theorem everyStepKeepsTheSettledState : Obligations.EveryStepKeepsTheSettledState := by
  intro s t hs ht
  obtain ⟨hc, hwf, hidle, hsound⟩ := State.settled_iff.1 hs
  have hcfg : t.cfg = s.cfg := (keptBySteps_cfg s.cfg).step rfl ht
  have hstepped := stepped_of_step ht
  exact State.settled_iff.2 ⟨hcfg ▸ hc, keptBySteps_regsWf.step hwf ht, hstepped.idle,
    hstepped.readySound hc hidle hsound⟩

/-- Settles O45: reset leaves the block in UNBUILT, with no register listed. -/
theorem resetIsSettled : Obligations.ResetIsSettled :=
  State.settled_iff.2 ⟨by decide, Memory.nil_wf, ⟨.inl rfl, rfl, rfl⟩, State.readySound_of_unbuilt rfl⟩

/-- Settles O51: outside the hand-off a transport request is taken in READY alone, where the flag is written. -/
theorem transportIsNeverTakenWithAnUnwrittenFlag : Obligations.TransportIsNeverTakenWithAnUnwrittenFlag := by
  intro s hs ht
  obtain ⟨-, -, hidle, hbl, -⟩ := State.settled_iff.1 hs
  obtain ⟨b, hb⟩ := Option.ne_none_iff_exists'.1 (hbl (hidle.phase_of_takesTransport ht))
  exact ⟨b, hb, by simp [State.backlight, hb]⟩

end Sys2Proof.Machine
end

section
/-! PROOF. The events that a step adds to the trace (spec/20_memory.md R8; spec/10_state.md R21): what holds of waits, of
the hand-off mark and of every transaction that an event list issues holds of every event that any step adds. -/

namespace Sys2Proof.Machine

/-- With configuration c, the trace has grown from tr by events of which E holds. -/
def State.GrownBy (c : Config) (tr : List Event) (E : Event → Prop) (s : State) : Prop :=
  s.cfg = c ∧ ∃ es, s.trace = tr ++ es ∧ ∀ e ∈ es, E e

theorem State.GrownBy.append {c : Config} {tr : List Event} {E : Event → Prop} {s t : State} {e : Event}
    (h : s.GrownBy c tr E) (hc : t.cfg = s.cfg) (ht : t.trace = s.trace ++ [e]) (he : E e) : t.GrownBy c tr E := by
  obtain ⟨hcfg, es, hes, hE⟩ := h
  refine ⟨hc.trans hcfg, es ++ [e], by rw [ht, hes, List.append_assoc], fun x hx => ?_⟩
  rcases List.mem_append.1 hx with hx | hx
  · exact hE x hx
  · rw [List.mem_singleton.1 hx]; exact he

theorem State.GrownBy.congr {c : Config} {tr : List Event} {E : Event → Prop} {s t : State}
    (h : s.GrownBy c tr E) (hc : t.cfg = s.cfg) (ht : t.trace = s.trace) : t.GrownBy c tr E := by
  rwa [State.GrownBy, hc, ht]

/-- The induction over the events of a step, once. -/
theorem keptBySteps_grownBy {c : Config} {E : Event → Prop} (tr : List Event) (hdelay : ∀ ms, E (.delay ms))
    (hhandoff : E .handoff)
    (hissued : ∀ s x, s.cfg = c → Issued s x → E (.bus x) ∧ ∀ op step, E (.fail x op step)) :
    KeptBySteps (State.GrownBy c tr E) where
  opr _ _ h := h
  ok s x h hx := h.append (by simp) (by simp [State.record]) (hissued s x h.1 hx).1
  fail s x h hx := h.append (by simp) (by simp) ((hissued s x h.1 hx).2 s.op s.step)
  wait _ ms h := h.append rfl rfl (hdelay ms)
  begin _ _ _ _ h := h
  beginLevel _ _ _ h := h
  endOp _ h := h.congr (by simp) (by simp)
  handoff _ h := h.append rfl rfl hhandoff
  base _ _ h := h
  final _ h := h
  finish _ h := h
  report _ _ h := h
  releaseOpr _ h := h
  accept _ _ h := h
  taken _ _ h := h
  hardwareReset _ h := h

/-- The event is a register write to the pull-up register, successful or failed (R21). -/
def Event.writesPullUp (c : Config) : Event → Prop
  | .bus (.reg _ r _) => r = c.regGppu
  | .fail (.reg _ r _) _ _ => r = c.regGppu
  | .bus (.raw _ _) => False
  | .fail (.raw _ _) _ _ => False
  | .delay _ => False
  | .handoff => False

/-- The pull-up register is neither of the two registers that the block writes (R5). -/
theorem Config.regGppu_ne {c : Config} (h : c.WellFormed = true) : c.regIodir ≠ c.regGppu ∧ c.regGpio ≠ c.regGppu := by
  simp only [Config.WellFormed, Config.registersDistinct, Bool.and_eq_true, bne_iff_ne, ne_eq] at h
  obtain ⟨⟨⟨⟨⟨hiodir, -⟩, hgpio⟩, -⟩, -⟩, -⟩ := h
  exact ⟨hiodir, Ne.symm hgpio⟩

theorem Issued.not_writesPullUp {s : State} {x : Transaction} (h : Issued s x) (hc : s.cfg.WellFormed = true) :
    ¬ (Event.bus x).writesPullUp s.cfg ∧ ∀ op step, ¬ (Event.fail x op step).writesPullUp s.cfg := by
  obtain ⟨hiodir, hgpio⟩ := Config.regGppu_ne hc
  cases h with
  | seed => exact ⟨id, fun _ _ => id⟩
  | direction => exact ⟨hiodir, fun _ _ => hiodir⟩
  | gpio asserted bl rs nib => exact ⟨hgpio, fun _ _ => hgpio⟩

/-- Settles O49: no transaction that an event list issues is a write to the pull-up register. -/
theorem noStepWritesThePullUpRegister : Obligations.NoStepWritesThePullUpRegister := by
  intro s t hc ht
  have hkept := keptBySteps_grownBy (c := s.cfg) (E := fun e => ¬ e.writesPullUp s.cfg) s.trace (fun _ => id) id
    fun u x hu hx => by simpa [hu] using hx.not_writesPullUp (by rwa [hu])
  obtain ⟨-, es, hes, hE⟩ := hkept.step ⟨rfl, [], by simp, by simp⟩ ht
  exact ⟨es, hes, fun a v => ⟨fun hmem => hE _ hmem rfl, fun o k hmem => hE _ hmem rfl⟩⟩

end Sys2Proof.Machine
end

section
/-! PROOF. Noninterference (spec/10_state.md R13, R16): LINES, COLS and FAULT are read by nothing that an event list or a
transport operation does, and LINES by INIT in its final command alone. Two runs are compared flow by flow with a relation
of states that every update respects. -/

namespace Sys2Proof.Machine

/-! ### Relations that runs respect -/

/-- Two flows end alike, in states that R relates. -/
def Flow.Related (R : State → State → Prop) : Flow → Flow → Prop
  | .goes s, .goes u => R s u
  | .stopped s, .stopped u => R s u
  | .goes _, .stopped _ => False
  | .stopped _, .goes _ => False

/-- The two states agree in everything that a run reads. -/
structure SameReads (s u : State) : Prop where
  cfg : u.cfg = s.cfg
  addr : u.addr = s.addr
  backlight : u.backlight = s.backlight
  rsl : u.rsl = s.rsl
  opr : u.opr = s.opr
  step : u.step = s.step
  baseOps : u.baseOps = s.baseOps
  answerAt : ∀ k, u.answerAt k = s.answerAt k

/-- Related states agree in what a run reads, and R is respected by everything that an event list does. -/
structure RespectedByEvents (R : State → State → Prop) : Prop where
  reads : ∀ s u, R s u → SameReads s u
  opr : ∀ s u v, R s u → R (s.loadOpr v) (u.loadOpr v)
  ok : ∀ s u x, R s u → R ((s.popAnswer.deliver x).record (.bus x)) ((u.popAnswer.deliver x).record (.bus x))
  fail : ∀ s u x, R s u → R (s.popAnswer.takeBusFault x) (u.popAnswer.takeBusFault x)
  wait : ∀ s u ms, R s u → R (s.record (.delay ms)) (u.record (.delay ms))

/-- R is respected by everything that a transport operation does. -/
structure RespectedByTransport (R : State → State → Prop) : Prop extends RespectedByEvents R where
  begun : ∀ s u q, R s u → R (s.begun q) (u.begun q)
  endOp : ∀ s u, R s u → R s.endTransport u.endTransport

/-- R is respected by everything that INIT does after its acceptance. -/
structure RespectedByInit (R : State → State → Prop) : Prop extends RespectedByTransport R where
  handoff : ∀ s u, R s u → R s.enterHandoff u.enterHandoff
  base : ∀ s u ts, R s u → R (s.withBase ts) (u.withBase ts)
  final : ∀ s u, R s u → R s.enterFinal u.enterFinal
  finish : ∀ s u, R s u → R s.finishInit u.finishInit

section

variable {R : State → State → Prop} {s u : State}

theorem Flow.Related.state {w w' : Flow} (h : w.Related R w') : R w.state w'.state := by
  cases w <;> cases w'
  · exact h
  · exact h.elim
  · exact h.elim
  · exact h

theorem Flow.Related.andThen {w w' : Flow} {f g : State → Flow} (h : w.Related R w')
    (hf : ∀ s u, R s u → (f s).Related R (g u)) : (w.andThen f).Related R (w'.andThen g) := by
  cases w <;> cases w'
  · exact hf _ _ h
  · exact h.elim
  · exact h.elim
  · exact h

theorem RespectedByEvents.transact (h : RespectedByEvents R) (x : Transaction) (hs : R s u) :
    (transact x s).Related R (transact x u) := by
  have hanswer := (h.reads s u hs).answerAt 0
  rcases transact_cases x s with ⟨h0, e⟩ | ⟨h0, e⟩
  · rw [e, transact_ok (hanswer.trans h0)]; exact h.ok s u x hs
  · rw [e, transact_fail (hanswer.trans h0)]; exact h.fail s u x hs

theorem RespectedByEvents.micro (h : RespectedByEvents R) (m : MicroOp) (hs : R s u) :
    (runMicro m s).Related R (runMicro m u) := by
  have hr := h.reads s u hs
  cases m with
  | seed => simp only [runMicro, busWriteRaw, hr.cfg, hr.addr]; exact h.transact _ hs
  | direction => simp only [runMicro, busWriteReg, hr.cfg, hr.addr]; exact h.transact _ hs
  | delay ms => exact h.wait s u ms hs
  | nibble code asserted =>
    simp only [runMicro, busWriteReg, State.loadOpr_addr, hr.cfg, hr.addr]
    exact h.transact _ (h.opr s u code hs)
  | strobe high asserted =>
    simp only [runMicro, busWriteReg, hr.cfg, hr.addr, hr.backlight, hr.rsl, hr.opr]; exact h.transact _ hs
  | level => simp only [runMicro, busWriteReg, hr.cfg, hr.addr, hr.backlight]; exact h.transact _ hs
  | clearDelay =>
    simp only [runMicro, hr.opr]
    split
    · exact h.wait s u tClear hs
    · exact hs

theorem RespectedByEvents.micros (h : RespectedByEvents R) (ms : List MicroOp) (hs : R s u) :
    (runMicros ms s).Related R (runMicros ms u) := by
  induction ms generalizing s u with
  | nil => exact hs
  | cons m ms ih => exact (h.micro m hs).andThen fun _ _ hs' => ih hs'

theorem RespectedByTransport.baseRequest (h : RespectedByTransport R) (q : TransportOp) (hs : R s u) :
    (baseRequest q s).Related R (baseRequest q u) := by
  rw [baseRequest_eq, baseRequest_eq]
  exact (h.micros _ (h.begun s u q hs)).andThen fun s' u' hs' => h.endOp s' u' hs'

theorem RespectedByInit.runBase (h : RespectedByInit R) (qs : List TransportOp) (hs : R s u) :
    (runBase qs s).Related R (runBase qs u) := by
  induction qs generalizing s u with
  | nil => exact hs
  | cons q qs ih => exact (h.baseRequest q (h.base s u qs hs)).andThen fun _ _ hs' => ih hs'

theorem RespectedByInit.runFinal (h : RespectedByInit R) (hs : R s u) : (runFinal s).Related R (runFinal u) := by
  rw [Machine.runFinal, Machine.runFinal, (h.reads s u hs).step]
  exact (h.micros _ hs).andThen fun s' u' hs' => h.finish s' u' hs'

theorem RespectedByInit.runHandoff (h : RespectedByInit R) (hs : R s u) : (runHandoff s).Related R (runHandoff u) := by
  rw [Machine.runHandoff, Machine.runHandoff, (h.reads s u hs).baseOps]
  exact (h.runBase _ hs).andThen fun s' u' hs' => h.runFinal (h.final s' u' hs')

theorem RespectedByInit.runInit (h : RespectedByInit R) (hs : R s u) : (runInit s).Related R (runInit u) := by
  rw [Machine.runInit, Machine.runInit, runFromStep, runFromStep, (h.reads s u hs).cfg, (h.reads s u hs).step]
  exact (h.micros _ hs).andThen fun s' u' hs' => h.runHandoff (h.handoff s' u' hs')

end

/-! ### LINES, COLS and FAULT -/

/-- s with other LINES, COLS and FAULT. -/
def State.withHidden (s : State) (l c : Byte) (v : Bool) : State := { s with lines := l, cols := c, fault := v }

section

variable (s : State) (l c : Byte) (v : Bool)

theorem State.withHidden_reads : SameReads s (s.withHidden l c v) := by constructor <;> intros <;> rfl

theorem State.deliver_withHidden (x : Transaction) :
    (s.withHidden l c v).deliver x = (s.deliver x).withHidden l c v := by
  cases x with
  | raw a bytes =>
    cases bytes with
    | nil => rfl
    | cons p data => by_cases hd : p.toNat + data.length ≤ registerSpace <;> simp [State.deliver, State.storeRaw, hd] <;> rfl
  | reg a r b => rfl

theorem State.spoil_withHidden (x : Transaction) : (s.withHidden l c v).spoil x = (s.spoil x).withHidden l c v := by
  cases x <;> rfl

theorem State.retireLatches_withHidden : (s.withHidden l c v).retireLatches = s.retireLatches.withHidden l c v := by
  unfold State.retireLatches
  rw [show (s.withHidden l c v).op = s.op from rfl]
  cases s.op <;> rfl

theorem State.abandonLatches_withHidden : (s.withHidden l c v).abandonLatches = s.abandonLatches.withHidden l c v := by
  unfold State.abandonLatches
  rw [show (s.withHidden l c v).phase = s.phase from rfl]
  split
  · exact s.retireLatches_withHidden l c v
  · rfl

/-- A successful transaction leaves them alone. -/
theorem State.succeed_withHidden (x : Transaction) :
    ((s.withHidden l c v).popAnswer.deliver x).record (.bus x) =
      ((s.popAnswer.deliver x).record (.bus x)).withHidden l c v :=
  congrArg (State.record · (.bus x)) (s.popAnswer.deliver_withHidden l c v x)

/-- A BusFault sets FAULT whatever it was. -/
theorem State.takeBusFault_withHidden (x : Transaction) :
    (s.withHidden l c v).takeBusFault x = (s.takeBusFault x).withHidden l c true := by
  unfold State.takeBusFault
  rw [State.spoil_withHidden, State.abandonLatches_withHidden]
  rfl

theorem State.fail_withHidden (x : Transaction) :
    (s.withHidden l c v).popAnswer.takeBusFault x = (s.popAnswer.takeBusFault x).withHidden l c true :=
  s.popAnswer.takeBusFault_withHidden l c v x

theorem State.begun_withHidden (q : TransportOp) : (s.withHidden l c v).begun q = (s.begun q).withHidden l c v := by
  cases q <;> rfl

theorem State.endTransport_withHidden : (s.withHidden l c v).endTransport = s.endTransport.withHidden l c v := by
  unfold State.endTransport
  rw [State.retireLatches_withHidden]
  rfl

end

/-! ### FAULT changes no bus traffic -/

/-- u is s but for FAULT. -/
def EqButFault (s u : State) : Prop := ∃ v, u = s.withHidden s.lines s.cols v

theorem respectedByTransport_eqButFault : RespectedByTransport EqButFault where
  reads := by rintro s _ ⟨v, rfl⟩; exact s.withHidden_reads _ _ v
  opr := by rintro s _ w ⟨v, rfl⟩; exact ⟨v, rfl⟩
  ok := by
    rintro s _ x ⟨v, rfl⟩
    exact ⟨v, by simpa using s.succeed_withHidden s.lines s.cols v x⟩
  fail := by
    rintro s _ x ⟨v, rfl⟩
    exact ⟨true, by simpa using s.fail_withHidden s.lines s.cols v x⟩
  wait := by rintro s _ ms ⟨v, rfl⟩; exact ⟨v, rfl⟩
  begun := by rintro s _ q ⟨v, rfl⟩; exact ⟨v, by simpa using s.begun_withHidden s.lines s.cols v q⟩
  endOp := by rintro s _ ⟨v, rfl⟩; exact ⟨v, by simpa using s.endTransport_withHidden s.lines s.cols v⟩

theorem nibbleInitOp_eqButFault (code : Byte) {s u : State} (h : EqButFault s u) :
    (nibbleInitOp code s).Related EqButFault (nibbleInitOp code u) :=
  (respectedByTransport_eqButFault.micros _ h).andThen fun _ _ ⟨v, hv⟩ => ⟨v, hv ▸ rfl⟩

theorem exec_transportInstr_eqButFault (q : TransportOp) (s : State) (v : Bool) :
    ∃ t u, exec (transportInstr q) s = .next t ∧ exec (transportInstr q) { s with fault := v } = .next u ∧
      EqButFault t u := by
  have h : EqButFault s { s with fault := v } := ⟨v, rfl⟩
  by_cases ht : s.takesTransport
  · exact ⟨_, _, exec_transportInstr q ht, exec_transportInstr q ht,
      (respectedByTransport_eqButFault.baseRequest q h).state⟩
  · by_cases hu : s.phase = .unbuilt ∧ s.op = .none
    · exact ⟨_, _, exec_transportInstr_refused q hu.1 hu.2, exec_transportInstr_refused q hu.1 hu.2, v, rfl⟩
    · exact ⟨_, _, exec_transportInstr_waits q ht hu, exec_transportInstr_waits q ht hu, h⟩

/-- The outcomes of one instruction in s and in s with another FAULT (R16). -/
theorem exec_eqButFault (i : Instr) (s : State) (v : Bool) :
    ∃ t u, exec i s = .next t ∧ exec i { s with fault := v } = .next u ∧ EqButFault t u := by
  have h : EqButFault s { s with fault := v } := ⟨v, rfl⟩
  cases i with
  | init operand p =>
    by_cases ht : s.takesInit
    · by_cases hp : p.lines = 0 ∨ p.cols = 0
      · exact ⟨_, _, exec_init_rejected operand ht hp, exec_init_rejected operand ht hp, v, rfl⟩
      · obtain ⟨hl, hc⟩ := not_or.1 hp
        exact ⟨_, _, exec_init_taken operand ht hl hc, exec_init_taken operand ht hl hc, _, rfl⟩
    · exact ⟨_, _, exec_init_waits operand p ht, exec_init_waits operand p ht, h⟩
  | writeCommand cmd => exact exec_transportInstr_eqButFault (.writeCommand cmd) s v
  | writeData byte => exact exec_transportInstr_eqButFault (.writeData byte) s v
  | backlightOn operand => exact exec_transportInstr_eqButFault (.backlightOn operand) s v
  | backlightOff operand => exact exec_transportInstr_eqButFault (.backlightOff operand) s v
  | nibbleInit code =>
    by_cases hr : s.runsInit
    · exact ⟨_, _, exec_nibbleInit_runs code hr, exec_nibbleInit_runs code hr, (nibbleInitOp_eqButFault code h).state⟩
    · by_cases ho : s.op = .none
      · exact ⟨_, _, exec_nibbleInit_refused code ho, exec_nibbleInit_refused code ho, v, rfl⟩
      · exact ⟨_, _, exec_nibbleInit_waits code hr ho, exec_nibbleInit_waits code hr ho, h⟩
  | reserved op operand =>
    by_cases ho : s.op = .none
    · exact ⟨_, _, exec_reserved_refused op operand ho, exec_reserved_refused op operand ho, v, rfl⟩
    · exact ⟨_, _, exec_reserved_waits op operand ho, exec_reserved_waits op operand ho, h⟩

/-- Settles O35: no branch of exec reads FAULT, an INIT that is taken overwrites it (R71), and the runs respect equality but
for FAULT. -/
theorem faultFlagChangesNoBusTraffic : Obligations.FaultFlagChangesNoBusTraffic := by
  intro i v s t ht
  obtain ⟨t', u, ht', hu, w, rfl⟩ := exec_eqButFault i s v
  rw [ht] at ht'
  cases ht'
  exact ⟨_, hu, rfl⟩

/-! ### LINES and COLS change the final command alone -/

/-- u is s but for LINES and COLS, which are l and c, on the same side of one line (R79). -/
def EqButGeometry (l c : Byte) (s u : State) : Prop := u = s.withHidden l c s.fault ∧ (1#8 < s.lines ↔ 1#8 < l)

theorem finalCmd_congr (c : Config) {l m : Byte} (h : 1#8 < l ↔ 1#8 < m) : finalCmd c l = finalCmd c m := by
  simp only [finalCmd, h]

theorem respectedByInit_eqButGeometry (l c : Byte) : RespectedByInit (EqButGeometry l c) where
  reads := by rintro s _ ⟨rfl, -⟩; exact s.withHidden_reads _ _ _
  opr := by rintro s _ w ⟨rfl, hl⟩; exact ⟨rfl, hl⟩
  ok := by
    rintro s _ x ⟨rfl, hl⟩
    exact ⟨by simpa using s.succeed_withHidden l c s.fault x, by simpa using hl⟩
  fail := by
    rintro s _ x ⟨rfl, hl⟩
    exact ⟨by simpa using s.fail_withHidden l c s.fault x, by simpa using hl⟩
  wait := by rintro s _ ms ⟨rfl, hl⟩; exact ⟨rfl, hl⟩
  begun := by rintro s _ q ⟨rfl, hl⟩; exact ⟨by simpa using s.begun_withHidden l c s.fault q, by simpa using hl⟩
  endOp := by rintro s _ ⟨rfl, hl⟩; exact ⟨by simpa using s.endTransport_withHidden l c s.fault, by simpa using hl⟩
  handoff := by rintro s _ ⟨rfl, hl⟩; exact ⟨rfl, hl⟩
  base := by rintro s _ ts ⟨rfl, hl⟩; exact ⟨rfl, hl⟩
  final := by
    rintro s _ ⟨rfl, hl⟩
    refine ⟨?_, hl⟩
    simp [State.enterFinal, State.withHidden, finalCmd_congr s.cfg hl]
  finish := by rintro s _ ⟨rfl, hl⟩; exact ⟨rfl, hl⟩

/-- Settles O27: the two runs start in states that differ in LINES and COLS alone, and INIT respects that. -/
theorem displayGeometryReachesTheBusOnlyThroughTheFinalCommand :
    Obligations.DisplayGeometryReachesTheBusOnlyThroughTheFinalCommand := by
  intro operand p l c s ht hpl hpc hl hc hside
  have hstart : EqButGeometry l c (s.acceptInit p) (s.acceptInit { p with lines := l, cols := c }) :=
    ⟨rfl, by simpa [BitVec.lt_def] using hside⟩
  obtain ⟨hend, -⟩ := ((respectedByInit_eqButGeometry l c).runInit hstart).state
  refine ⟨_, _, exec_init_taken operand ht hpl hpc, exec_init_taken operand ht hl hc, ?_⟩
  rw [hend]
  exact ⟨rfl, rfl, rfl⟩

end Sys2Proof.Machine
end

section
/-! PROOF. The expander's registers (spec/20_memory.md R40, R41) and what every step keeps (R47, R48). -/

namespace Sys2Proof.Machine

/-! ### What every step keeps -/

/-- Settles O46: everything that a step does keeps the register list in canonical form. -/
theorem everyStepKeepsTheRegisterListCanonical : Obligations.EveryStepKeepsTheRegisterListCanonical :=
  fun _ _ hwf ht => keptBySteps_regsWf.step hwf ht

/-- Settles O47: nothing that a step does writes the configuration. -/
theorem noStepAltersTheConfiguration : Obligations.NoStepAltersTheConfiguration :=
  fun s _ ht => (keptBySteps_cfg s.cfg).step rfl ht

/-- Settles O9: the branch of a step for an idle port with nothing presented. -/
theorem idlePortWithNothingPresentedChangesNothing : Obligations.IdlePortWithNothingPresentedChangesNothing :=
  fun _ hc hidle hi => step_of_nothing_presented hc hidle hi

/-! ### Delivered transactions -/

/-- Settles O38, by the laws of a register write. -/
theorem registerWriteIsHeldByThatRegisterAlone : Obligations.RegisterWriteIsHeldByThatRegisterAlone :=
  fun _ r v s => ⟨s.regByte_storeRegister_same r v, fun _ hk => s.regByte_storeRegister_other r v hk⟩

/-- A raw write inside the register space changes the register list alone (R41). -/
theorem State.deliver_raw {p : Byte} {data : List Byte} (h : p.toNat + data.length ≤ registerSpace) (a : DevAddr)
    (s : State) : s.deliver (.raw a (p :: data)) = { s with regs := s.regs.writeFrom p.toNat data } := if_pos h

/-- Settles O40: the list that a raw write fills, read back place by place. -/
theorem rawWriteFillsSuccessiveRegistersFromItsFirstByte :
    Obligations.RawWriteFillsSuccessiveRegistersFromItsFirstByte := by
  intro a p data s hin
  obtain ⟨hfilled, hframe⟩ := Memory.read_writeFrom data s.regs p.toNat
  rw [State.deliver_raw hin]
  refine ⟨fun i v hi => ?_, fun k hk => ?_, rfl⟩
  · simp [State.regByte, hfilled i v hi]
  · simp [State.regByte, hframe k hk]

/-- Settles O39: the default seed starts at register 0 with 0xFF, and ten zeros follow. -/
theorem defaultSeedReleasesTheLinesAndClearsTheRest : Obligations.DefaultSeedReleasesTheLinesAndClearsTheRest := by
  intro a s
  obtain ⟨hfilled, -, -⟩ :=
    rawWriteFillsSuccessiveRegistersFromItsFirstByte a 0x00 Config.default.seedBytes.tail s (by decide)
  refine ⟨hfilled 0 0xFF (by decide), fun k h1 h10 => ?_⟩
  have hzeros : ∀ k ≤ 10, 1 ≤ k → Config.default.seedBytes.tail[k]? = some 0x00 := by decide
  exact k.zero_add ▸ hfilled k 0x00 (hzeros k h10 h1)

end Sys2Proof.Machine
end

section
/-! PROOF. The GPIO byte read back (spec/30_encoding.md R55, R60): each field of a composed byte holds what it was composed
of, and the spare bit is 0. -/

namespace Sys2Proof.Machine

/-! ### The parts of a composed byte lie in their fields -/

theorem bitByte_shiftLeft_and_maskBl (c : Config) (bl : Bool) :
    (bitByte bl <<< c.shiftBl) &&& maskBl c = bitByte bl <<< c.shiftBl := by
  cases bl <;> simp [bitByte, maskBl]

theorem nibble_shiftLeft_and_maskData (c : Config) (nib : Nibble) :
    (nib.setWidth 8 <<< c.shiftData) &&& maskData c = nib.setWidth 8 <<< c.shiftData := by
  have hnib : nib.setWidth 8 &&& 0x0F#8 = nib.setWidth 8 := by decide +revert
  rw [maskData, ← BitVec.shiftLeft_and_distrib, hnib]

/-- What lies inside a mask misses every byte that the mask misses. -/
theorem and_eq_zero_of_within {x m n : Byte} (hx : x &&& m = x) (hmn : m &&& n = 0) : x &&& n = 0 := by
  rw [← hx, BitVec.and_assoc, hmn]
  exact BitVec.and_zero

theorem registerSelect_and_eq_zero {c : Config} {n : Byte} (h : c.maskRs &&& n = 0) (rs : Bool) :
    (if rs then c.maskRs else 0) &&& n = 0 := by
  cases rs
  · exact BitVec.zero_and
  · exact h

/-- A byte that misses the three fields of a composed byte misses that byte. -/
theorem compose_and_eq_zero {c : Config} {n : Byte} (hrs : c.maskRs &&& n = 0) (hdata : maskData c &&& n = 0)
    (hbl : maskBl c &&& n = 0) (bl rs : Bool) (nib : Nibble) : compose c bl rs nib &&& n = 0 := by
  simp only [compose, BitVec.and_or_distrib_right, and_eq_zero_of_within (bitByte_shiftLeft_and_maskBl c bl) hbl,
    and_eq_zero_of_within (nibble_shiftLeft_and_maskData c nib) hdata, registerSelect_and_eq_zero hrs rs,
    BitVec.or_self]

/-- No signal mask has the spare bit (R6). -/
theorem signalMasks_and_maskSpare (c : Config) :
    c.maskRs &&& maskSpare c = 0 ∧ c.maskE &&& maskSpare c = 0 ∧ maskData c &&& maskSpare c = 0 ∧
      maskBl c &&& maskSpare c = 0 := by
  have h : maskSignals c &&& maskSpare c = 0 := (BitVec.and_comm _ _).trans (dirValue_and_maskSignals c)
  simpa [maskSignals, BitVec.and_or_distrib_right, BitVec.or_eq_zero_iff, and_assoc] using h

/-- The spare bit of every byte that the block writes to the GPIO register is 0, in every layout (R60). -/
theorem withStrobe_compose_and_maskSpare (c : Config) (asserted bl rs : Bool) (nib : Nibble) :
    withStrobe c asserted (compose c bl rs nib) &&& maskSpare c = 0 := by
  obtain ⟨hrs, he, hdata, hbl⟩ := signalMasks_and_maskSpare c
  have hcompose := compose_and_eq_zero hrs hdata hbl bl rs nib
  cases asserted
  · exact hcompose
  · simp only [withStrobe, if_true, BitVec.and_or_distrib_right, hcompose, he, BitVec.or_self]

/-! ### The fields read back -/

theorem ne_zero_of_oneBit {m : Byte} (h : oneBit m = true) : m ≠ 0 := by
  rintro rfl
  revert h
  decide

namespace FieldLayout

variable {c : Config} (h : FieldLayout c)
include h

/-- RS reads back (R55). -/
theorem rsLevel_compose (bl rs : Bool) (nib : Nibble) : rsLevel c (compose c bl rs nib) = rs := by
  have hbl := and_eq_zero_of_within (bitByte_shiftLeft_and_maskBl c bl) ((BitVec.and_comm _ _).trans h.rs_bl)
  have hdata := and_eq_zero_of_within (nibble_shiftLeft_and_maskData c nib) ((BitVec.and_comm _ _).trans h.rs_data)
  have hand : compose c bl rs nib &&& c.maskRs = if rs then c.maskRs else 0 := by
    simp only [compose, BitVec.and_or_distrib_right, hbl, hdata]
    cases rs <;> simp
  cases rs
  · simp [rsLevel, hand]
  · simpa [rsLevel, hand] using ne_zero_of_oneBit h.rs_oneBit

/-- The data nibble reads back (R55). -/
theorem dataField_compose (bl rs : Bool) (nib : Nibble) : dataField c (compose c bl rs nib) = nib := by
  have hbl := and_eq_zero_of_within (bitByte_shiftLeft_and_maskBl c bl) ((BitVec.and_comm _ _).trans h.data_bl)
  have hrs := registerSelect_and_eq_zero h.rs_data rs
  have hand : compose c bl rs nib &&& maskData c = nib.setWidth 8 <<< c.shiftData := by
    simp only [compose, BitVec.and_or_distrib_right, hbl, hrs, nibble_shiftLeft_and_maskData]
    simp
  have hshift : ∀ d ≤ 4, ∀ n : Nibble, ((n.setWidth 8 <<< d) >>> d).setWidth 4 = n := by decide
  rw [dataField, hand, hshift c.shiftData h.shiftData_le nib]

end FieldLayout

end Sys2Proof.Machine
end

section
/-! PROOF. The transactions of a step (spec/20_memory.md R31, R32, R38): what holds of those of an operation in progress,
whose ADDR stays, holds of those of every step. -/

namespace Sys2Proof.Machine

/-- Every transaction that an entry of an event list issues is allowed (R31, R32, R60). -/
theorem Issued.allowed {s : State} {x : Transaction} (h : Issued s x) : x.allowed s.cfg s.addr := by
  cases h with
  | seed => exact ⟨rfl, rfl⟩
  | direction => exact ⟨rfl, .inl ⟨rfl, rfl⟩⟩
  | gpio asserted bl rs nib => exact ⟨rfl, .inr ⟨rfl, withStrobe_compose_and_maskSpare s.cfg asserted bl rs nib⟩⟩

/-- With configuration c, ADDR is a and the trace has grown from tr by events that are allowed at a. -/
def State.GrownAllowed (c : Config) (a : DevAddr) (tr : List Event) (s : State) : Prop :=
  s.addr = a ∧ s.GrownBy c tr (Event.allowed c a)

theorem State.grownAllowed_refl (s : State) : s.GrownAllowed s.cfg s.addr s.trace := ⟨rfl, rfl, [], by simp, by simp⟩

theorem State.GrownAllowed.append {c : Config} {a : DevAddr} {tr : List Event} {s t : State} {e : Event}
    (h : s.GrownAllowed c a tr) (ha : t.addr = s.addr) (hc : t.cfg = s.cfg) (ht : t.trace = s.trace ++ [e])
    (he : e.allowed s.cfg s.addr) : t.GrownAllowed c a tr := by
  obtain ⟨rfl, hgrown⟩ := h
  exact ⟨ha, hgrown.append hc ht (hgrown.1 ▸ he)⟩

/-- An operation in progress keeps ADDR, and the events that it adds are allowed there. -/
theorem keptByRuns_grownAllowed (c : Config) (a : DevAddr) (tr : List Event) : KeptByRuns (State.GrownAllowed c a tr) where
  opr _ _ h := h
  ok _ x h hx := h.append (e := .bus x) (by simp) (by simp) (by simp [State.record]) hx.allowed
  fail s x h hx := h.append (e := .fail x s.op s.step) (by simp) (by simp) (by simp) hx.allowed
  wait _ _ h := h.append rfl rfl rfl trivial
  begin _ _ _ _ h := h
  beginLevel _ _ _ h := h
  endOp _ h := ⟨by simpa using h.1, h.2.congr (by simp) (by simp)⟩
  handoff _ h := h.append rfl rfl rfl trivial
  base _ _ h := h
  final _ h := h
  finish _ h := h

/-- The events that an instruction adds are allowed at the ADDR that it leaves: a taken INIT sets ADDR before its first
one. -/
theorem Executed.grownAllowed {s t : State} {i : Instr} (h : Executed s i t) : ∃ a, t.GrownAllowed s.cfg a s.trace := by
  cases h with
  | waits => exact ⟨_, s.grownAllowed_refl⟩
  | rejected => exact ⟨_, s.takeParamFault.grownAllowed_refl⟩
  | refused => exact ⟨_, s.takeRefused.grownAllowed_refl⟩
  | init operand p => exact ⟨_, (keptByRuns_grownAllowed _ _ _).runInit (s.acceptInit p).grownAllowed_refl⟩
  | transport q => exact ⟨_, (keptByRuns_grownAllowed _ _ _).baseRequest s.grownAllowed_refl q⟩
  | nibbleInit code =>
    exact ⟨_, Flow.andThen_keeps ((keptByRuns_grownAllowed _ _ _).micros _ s.grownAllowed_refl) fun _ h => h⟩

theorem Stepped.grownAllowed {s t : State} (h : Stepped s t) : ∃ a, t.GrownAllowed s.cfg a s.trace := by
  cases h with
  | resumed => exact ⟨_, (keptByRuns_grownAllowed _ _ _).resume s.grownAllowed_refl⟩
  | waited => exact ⟨_, s.grownAllowed_refl⟩
  | reset _ rest => exact ⟨_, (s.withInputs rest).hardwareReset.grownAllowed_refl⟩
  | request _ r rest i t _ _ executed => exact executed.grownAllowed

/-- Settles O50: what any step adds to the trace is allowed at the ADDR that holds after it. -/
theorem everyTransactionGoesToAddrAndIsOneOfThree : Obligations.EveryTransactionGoesToAddrAndIsOneOfThree := by
  intro s t _ ht
  obtain ⟨_, rfl, -, es, hes, hallowed⟩ := (stepped_of_step ht).grownAllowed
  exact ⟨es, hes, hallowed⟩

end Sys2Proof.Machine
end

section
/-! PROOF. What the fault-free operations do at the target (spec/20_memory.md R42 to R44): a transport operation, the base's
list and INIT write the GPIO output register in strobe pairs, each of which latches its nibble (`Strobed`). -/

namespace Sys2Proof.Machine

/-! ### Strobed from one state to another -/

/-- From s to t no register but the GPIO output register has been written, the controller has latched ns, and E is low
in t. -/
structure Strobed (s t : State) (ns : List LatchedNibble) : Prop where
  cfg : t.cfg = s.cfg
  latched : t.latched = s.latched ++ ns
  onlyGpio : s.onlyGpioChanged t
  strobeLow : t.strobeLow

/-- What `Strobed` speaks of. -/
def State.pins (s : State) : Config × Memory × Nat × List LatchedNibble := (s.cfg, s.regs, s.epoch, s.latched)

theorem State.pins_eq_iff {s t : State} :
    s.pins = t.pins ↔ s.cfg = t.cfg ∧ s.regs = t.regs ∧ s.epoch = t.epoch ∧ s.latched = t.latched := by
  simp [State.pins]

theorem State.pins_of_target {s t : State} (h : s.target = t.target) : s.pins = t.pins := by
  obtain ⟨hc, hr, he, -, hl, -⟩ := State.target_eq_iff.1 h
  exact State.pins_eq_iff.2 ⟨hc, hr, he, hl⟩

/-- The output latch is one of the pins (R24). -/
theorem State.lat_congr {s t : State} (h : s.pins = t.pins) : s.lat = t.lat := by
  obtain ⟨hc, hr, he, -⟩ := State.pins_eq_iff.1 h
  simp [State.lat, State.regByte, hc, hr, he]

@[simp] theorem State.begun_pins (s : State) (q : TransportOp) : (s.begun q).pins = s.pins := by simp [State.pins]
@[simp] theorem State.endTransport_pins (s : State) : s.endTransport.pins = s.pins := by simp [State.pins]

theorem Strobed.refl {s : State} (h : s.strobeLow) : Strobed s s [] := ⟨rfl, by simp, fun _ _ => rfl, h⟩

theorem Strobed.trans {s t u : State} {ns ms : List LatchedNibble} (h : Strobed s t ns) (h' : Strobed t u ms) :
    Strobed s u (ns ++ ms) where
  cfg := h'.cfg.trans h.cfg
  latched := by rw [h'.latched, h.latched, List.append_assoc]
  onlyGpio k hk := (h'.onlyGpio k (h.cfg ▸ hk)).trans (h.onlyGpio k hk)
  strobeLow := h'.strobeLow

theorem Strobed.congr {s s' t t' : State} {ns : List LatchedNibble} (h : Strobed s t ns) (hs : s'.pins = s.pins)
    (ht : t'.pins = t.pins) : Strobed s' t' ns := by
  obtain ⟨hsc, hsr, hse, hsl⟩ := State.pins_eq_iff.1 hs
  obtain ⟨htc, htr, hte, htl⟩ := State.pins_eq_iff.1 ht
  refine ⟨by rw [htc, hsc, h.cfg], by rw [htl, hsl, h.latched], fun k hk => ?_, ?_⟩
  · simpa [State.regByte, hsr, hse, htr, hte] using h.onlyGpio k (hsc ▸ hk)
  · simpa [State.strobeLow, htc, htr] using h.strobeLow

/-- A run strobes what the replay of its events strobes. -/
theorem Strobed.of_ran {s t : State} {es : List Event} {ns : List LatchedNibble} (h : Strobed s (s.replay es) ns)
    (hr : Ran s t es) : Strobed s t ns := h.congr rfl (State.pins_of_target hr.target)

theorem Config.regIodir_ne_regGpio {c : Config} (h : c.WellFormed = true) : c.regIodir.toNat ≠ c.regGpio.toNat := by
  simp only [Config.WellFormed, Config.registersDistinct, Bool.and_eq_true, bne_iff_ne, ne_eq] at h
  obtain ⟨⟨⟨⟨⟨-, hne⟩, -⟩, -⟩, -⟩, -⟩ := h
  exact fun heq => hne (BitVec.eq_of_toNat_eq heq)

/-- Strobing leaves the direction register alone (R42). -/
theorem Strobed.dir {s t : State} {ns : List LatchedNibble} (h : Strobed s t ns) (hc : s.cfg.WellFormed = true) :
    t.dir = s.dir := by
  rw [State.dir, h.cfg]
  exact h.onlyGpio _ (Config.regIodir_ne_regGpio hc)

/-! ### The traces of the operations -/

section

variable {s : State} {c : Config} (hc : s.cfg = c) (h : FieldLayout c)
include hc h

/-- A strobe pair latches the one nibble that its byte presents, whatever E was before it (R43, R44). -/
theorem Strobed.strobePair (a : DevAddr) (bl rs : Bool) (nib : Nibble) :
    Strobed s (s.replay (strobePair c a (compose c bl rs nib))) [(rs, nib)] := by
  have hlow := h.eLevel_compose bl rs nib
  have hhigh := h.eLevel_or_maskE (compose c bl rs nib)
  refine ⟨s.replay_cfg _, ?_, fun k hk => ?_, (State.replay_strobePair hc h a hlow).1⟩
  · subst hc
    simp [Machine.strobePair, gpioWrite, State.replay, State.deliver, State.lat_storeRegister_gpio,
      latches_asserted _ hhigh, latches_falling hhigh hlow, h.rsLevel_compose, h.dataField_compose]
  · subst hc
    exact (State.regByte_storeRegister_other _ _ _ hk).trans (State.regByte_storeRegister_other _ _ _ hk)

/-- The two pairs of a byte latch its two nibbles (R35, R44). -/
theorem Strobed.bytePairs (a : DevAddr) (bl rs : Bool) (v : Byte) :
    Strobed s (s.replay (bytePairs c a bl rs v)) (byteNibbles rs v) := by
  rw [Machine.bytePairs, State.replay_append]
  exact (Strobed.strobePair hc h a bl rs (hiNibble v)).trans
    (Strobed.strobePair ((s.replay_cfg _).trans hc) h a bl rs (loNibble v))

omit hc h in
/-- The delay of a command does nothing at the target. -/
theorem State.replay_commandTrace_eq (a : DevAddr) (bl : Bool) (cmd : Byte) :
    s.replay (commandTrace c a bl cmd) = s.replay (bytePairs c a bl false cmd) := by
  rw [commandTrace, State.replay_append]
  split <;> rfl

/-- The one write of a backlight operation latches nothing where E is low (R102). -/
theorem Strobed.levelTrace (a : DevAddr) (bl : Bool) (hlow : s.strobeLow) : Strobed s (s.replay (levelTrace c a bl)) [] := by
  refine ⟨s.replay_cfg _, ?_, fun k hk => ?_, (State.replay_levelTrace hc h a bl hlow).1⟩
  · subst hc
    simp [Machine.levelTrace, gpioWrite, State.replay, State.deliver, latches_of_low _ (State.eLevel_lat_of_strobeLow hlow)]
  · subst hc
    exact State.regByte_storeRegister_other _ _ _ hk

/-- A transport operation latches its nibbles, where it finds E low (R44). -/
theorem Strobed.transportTrace (u : State) (hu : u.cfg = c) (q : TransportOp) (hlow : s.strobeLow) :
    Strobed s (s.replay (transportTrace u q)) (transportNibbles q) := by
  subst hu
  cases q with
  | writeCommand cmd =>
    rw [Machine.transportTrace, State.replay_commandTrace_eq]
    exact .bytePairs hc h _ _ _ cmd
  | writeData byte => exact .bytePairs hc h _ _ _ byte
  | backlightOn operand => exact .levelTrace hc h _ _ hlow
  | backlightOff operand => exact .levelTrace hc h _ _ hlow

omit h in
/-- A byte leaves its low-nibble byte in the output latch (R24). -/
theorem State.lat_replay_bytePairs (a : DevAddr) (bl rs : Bool) (v : Byte) :
    (s.replay (bytePairs c a bl rs v)).lat = compose c bl rs (loNibble v) := by
  subst hc
  exact State.lat_storeRegister_gpio _ _

end

/-! ### Transport operations and the base's list -/

/-- A transport operation that ends fault-free has latched its nibbles (R44). -/
theorem baseRequest_strobed (q : TransportOp) {s : State} (h : FieldLayout s.cfg) (hlow : s.strobeLow) :
    (baseRequest q s).Ends (fun t => Strobed s t (transportNibbles q)) fun _ => True := by
  refine (baseRequest_ends q s).mono ?_ fun _ _ => trivial
  rintro _ ⟨u, rfl, hr⟩
  have hbegun : (s.begun q).strobeLow := by simpa [State.strobeLow] using hlow
  have hrun := (Strobed.transportTrace (s.begun_cfg q) h s rfl q hbegun).of_ran hr
  exact hrun.congr (s.begun_pins q).symm u.endTransport_pins

theorem baseNibbles_cons (q : TransportOp) (qs : List TransportOp) :
    baseNibbles (q :: qs) = transportNibbles q ++ baseNibbles qs := by cases q <;> rfl

/-- The base's requests that end fault-free have latched their nibbles (R44, R78). -/
theorem runBase_strobed (qs : List TransportOp) {s : State} (h : FieldLayout s.cfg) (hlow : s.strobeLow) :
    (runBase qs s).Ends (fun t => Strobed s t (baseNibbles qs)) fun _ => True := by
  induction qs generalizing s with
  | nil => exact .refl hlow
  | cons q qs ih =>
    refine (baseRequest_strobed q (s := s.withBase qs) h hlow).andThen fun t ht => ?_
    rw [baseNibbles_cons]
    exact (ih (ht.cfg ▸ h) ht.strobeLow).mono (fun _ hu => (ht.trans hu).congr rfl rfl) fun _ _ => trivial

/-- Settles O41: the operation replays its trace, which strobes its nibbles, two of them or none. -/
theorem transportLatchesItsNibblesAndLeavesTheStrobeLow : Obligations.TransportLatchesItsNibblesAndLeavesTheStrobeLow := by
  intro q s hc htakes hlow hok
  have hlayout := fieldLayout_of_wellFormed hc
  obtain ⟨u, hgoes, hr⟩ := baseRequest_ok q hok
  have hstrobed : Strobed s u.endTransport (transportNibbles q) := by
    simpa [hgoes] using baseRequest_strobed q hlayout hlow
  refine ⟨u.endTransport, by rw [exec_transportInstr q htakes, hgoes]; rfl, hstrobed.strobeLow,
    fun _ => ⟨hstrobed.latched, fun hi => ?_⟩⟩
  have hbegun : (s.begun q).strobeLow := by simpa [State.strobeLow] using hlow
  have hreplayed := (State.replay_transportTrace (s.begun_cfg q) hlayout s rfl q hbegun ((s.begun_iface q).trans hi)).2
  rw [State.endTransport_iface, State.iface_congr hr.target, hreplayed]

/-! ### INIT -/

/-- The target after the seed and the direction write (R72, R73). -/
def State.opened (s : State) (a : DevAddr) : State :=
  (s.deliver (.raw a s.cfg.seedBytes)).deliver (.reg a s.cfg.regIodir (dirValue s.cfg))

@[simp] theorem State.opened_cfg (s : State) (a : DevAddr) : (s.opened a).cfg = s.cfg := by simp [State.opened]

/-- Neither the seed nor the direction write makes an edge of E (R43). -/
theorem State.opened_latched {s : State} (hc : s.cfg.WellFormed = true) (a : DevAddr) :
    (s.opened a).latched = s.latched := by
  have hne : s.cfg.regIodir ≠ s.cfg.regGpio := fun e => Config.regIodir_ne_regGpio hc (congrArg _ e)
  simp [State.opened, State.deliver, hne]

theorem State.opened_dir (s : State) (a : DevAddr) : (s.opened a).dir = dirValue s.cfg := by
  rw [State.dir, s.opened_cfg]
  exact State.regByte_storeRegister_same _ _ _

/-- The handshake of INIT, event by event: the seed and the direction write, then four nibbles (R72 to R76). -/
theorem State.replay_handshakeTrace (s : State) (a : DevAddr) :
    s.replay (handshakeTrace s.cfg a) =
      ((((s.opened a).replay (nibbleTrace s.cfg a s.cfg.codeFunctionReset)).replay
        (nibbleTrace s.cfg a s.cfg.codeFunctionReset)).replay
          (nibbleTrace s.cfg a s.cfg.codeFunctionReset)).replay (nibbleTrace s.cfg a s.cfg.codeFunction) := by
  simp [handshakeTrace, State.replay_append, State.replay, State.opened]

/-- The nibbles of the handshake (R82). -/
def handshakeNibbles (c : Config) : List LatchedNibble :=
  [(false, hiNibble c.codeFunctionReset), (false, hiNibble c.codeFunctionReset), (false, hiNibble c.codeFunctionReset),
    (false, hiNibble c.codeFunction)]

/-- After the direction write the handshake latches its nibbles, whatever the expander holds (R82). -/
theorem Strobed.handshakeTrace {s : State} (h : FieldLayout s.cfg) (a : DevAddr) :
    Strobed (s.opened a) (s.replay (handshakeTrace s.cfg a)) (handshakeNibbles s.cfg) := by
  have hpair : ∀ (u : State) (code : Byte), u.cfg = s.cfg →
      Strobed u (u.replay (nibbleTrace s.cfg a code)) [(false, hiNibble code)] := fun u code hu =>
    .strobePair hu h a false false (hiNibble code)
  have h1 := hpair (s.opened a) s.cfg.codeFunctionReset (s.opened_cfg a)
  have h2 := h1.trans (hpair _ s.cfg.codeFunctionReset (h1.cfg.trans (s.opened_cfg a)))
  have h3 := h2.trans (hpair _ s.cfg.codeFunctionReset (h2.cfg.trans (s.opened_cfg a)))
  rw [State.replay_handshakeTrace]
  exact h3.trans (hpair _ s.cfg.codeFunction (h3.cfg.trans (s.opened_cfg a)))

theorem initTrace_eq (c : Config) (p : InitParams) :
    initTrace c p = handshakeTrace c p.addr ++ [.handoff] ++ baseTrace c p.addr p.blDefault p.baseOps ++
      commandTrace c p.addr (baseBacklight p.blDefault p.baseOps) (finalCmd c p.lines) := by
  simp [initTrace, finalCmd, BitVec.lt_def]

/-- The stages of a fault-free INIT taken in s: the handshake to u, the base's list to v, the final command to w (R80). -/
structure InitRan (s : State) (p : InitParams) (u v w : State) : Prop where
  handshake : Ran (s.acceptInit p) u (handshakeTrace s.cfg p.addr)
  goesBase : runBase p.baseOps u.enterHandoff = .goes v
  base : BaseRan u.enterHandoff v p.blDefault p.baseOps
  final : Ran v.enterFinal w
    (commandTrace s.cfg p.addr (baseBacklight p.blDefault p.baseOps) (finalCmd s.cfg p.lines))
  goes : runInit (s.acceptInit p) = .goes w.finishInit

/-- What the handshake does when its transactions are ok (R80). -/
theorem runHandshake_ok {p : InitParams} {s : State} (h : s.AnswersOk (transactions (handshakeTrace s.cfg p.addr))) :
    ∃ u, runFromStep (initEvents s.cfg) (s.acceptInit p) = .goes u ∧
      Ran (s.acceptInit p) u (handshakeTrace s.cfg p.addr) := by
  have hplanned : ((initEvents s.cfg).drop 0).flatMap (planned (s.acceptInit p)) = handshakeTrace s.cfg p.addr :=
    planned_initEvents (s.acceptInit p)
  rw [← hplanned] at h ⊢
  exact runMicros_ok (settles_initEvents_drop s.cfg 0) h

/-- What the final command does when its transactions are ok, the flag being b (R79). -/
theorem runFinal_ok {v : State} {b : Bool} (hb : v.bl = some b)
    (h : v.AnswersOk (transactions (commandTrace v.cfg v.addr b (finalCmd v.cfg v.lines)))) :
    ∃ w, runFinal v.enterFinal = .goes w.finishInit ∧
      Ran v.enterFinal w (commandTrace v.cfg v.addr b (finalCmd v.cfg v.lines)) := by
  have hbl : v.enterFinal.backlight = b := by simp [State.backlight, hb]
  have hplanned : commandEvents.flatMap (planned v.enterFinal) =
      commandTrace v.cfg v.addr b (finalCmd v.cfg v.lines) := by
    rw [planned_commandEvents _ rfl, hbl]
    rfl
  rw [← hplanned] at h ⊢
  obtain ⟨w, hgoes, hran⟩ := runMicros_ok (settles_commandEvents_drop 0) h
  exact ⟨w, congrArg (Flow.andThen · fun s' => .goes s'.finishInit) hgoes, hran⟩

/-- WHAT INIT DOES when its transactions are ok (R80). -/
theorem runInit_ok {p : InitParams} {s : State} (h : s.AnswersOk (transactions (initTrace s.cfg p))) :
    ∃ u v w, InitRan s p u v w := by
  simp only [initTrace_eq, transactions_append] at h
  obtain ⟨u, hgoesHand, hu⟩ := runHandshake_ok (p := p) (s := s) fun k hk => h k (by omega)
  have huc : u.cfg = s.cfg := hu.cfg
  have hua : u.addr = p.addr := hu.addr
  obtain ⟨v, hgoesBase, hv⟩ := runBase_ok p.baseOps (s := u.enterHandoff) (b := p.blDefault) (congrArg some hu.blDefault)
    rfl hu.op hu.step fun k hk => (hu.answerAt k).trans (h _ (by simp [huc, hua] at hk; omega))
  have hvc : v.cfg = s.cfg := hv.cfg.trans huc
  have hva : v.addr = p.addr := hv.addr.trans hua
  have hvl : v.lines = p.lines := hv.lines.trans hu.lines
  obtain ⟨w, hgoesFinal, hw⟩ := runFinal_ok hv.bl fun k hk => by
    rw [hvc, hva, hvl] at hk
    rw [hv.answerAt, State.enterHandoff_cfg, State.enterHandoff_addr, huc, hua]
    exact (hu.answerAt _).trans (h _ (by omega))
  rw [hvc, hva, hvl] at hw
  refine ⟨u, v, w, hu, hgoesBase, hv, hw, ?_⟩
  have hlist : u.enterHandoff.baseOps = p.baseOps := hu.baseOps
  rw [runInit, State.acceptInit_cfg, hgoesHand, Flow.goes_andThen, runHandoff, hlist, hgoesBase, Flow.goes_andThen,
    hgoesFinal]

theorem InitRan.exec {s u v w : State} {p : InitParams} (h : InitRan s p u v w) (operand : Byte) (htakes : s.takesInit)
    (hl : p.lines ≠ 0) (hc : p.cols ≠ 0) : exec (.init operand p) s = .next w.finishInit := by
  rw [exec_init_taken operand htakes hl hc, h.goes]
  rfl

/-- A fault-free INIT has latched its nibbles and leaves the direction value and the last byte in the two registers that it
has written (R24, R42, R82). -/
theorem InitRan.target {s u v w : State} {p : InitParams} (h : InitRan s p u v w) (hc : s.cfg.WellFormed = true) :
    w.cfg = s.cfg ∧ w.latched = s.latched ++ initNibbles s.cfg p ∧ w.strobeLow ∧ w.dir = dirValue s.cfg ∧
      w.lat = compose s.cfg (baseBacklight p.blDefault p.baseOps) false (loNibble (finalCmd s.cfg p.lines)) := by
  have hlayout := fieldLayout_of_wellFormed hc
  have hhand : Strobed ((s.acceptInit p).opened p.addr) u (handshakeNibbles s.cfg) :=
    (Strobed.handshakeTrace (s := s.acceptInit p) hlayout p.addr).congr rfl (State.pins_of_target h.handshake.target)
  have huc : u.cfg = s.cfg := h.handshake.cfg
  have hbase : Strobed u.enterHandoff v (baseNibbles p.baseOps) := by
    simpa [h.goesBase] using runBase_strobed p.baseOps (s := u.enterHandoff) (huc ▸ hlayout) hhand.strobeLow
  have hvc : v.enterFinal.cfg = s.cfg := hbase.cfg.trans huc
  have hfinal : Strobed v.enterFinal w (byteNibbles false (finalCmd s.cfg p.lines)) := by
    refine Strobed.of_ran ?_ h.final
    rw [State.replay_commandTrace_eq]
    exact .bytePairs hvc hlayout _ _ _ _
  have hall : Strobed ((s.acceptInit p).opened p.addr) w (initNibbles s.cfg p) :=
    (hhand.trans (hbase.congr rfl rfl)).trans (hfinal.congr rfl rfl)
  have hoc : ((s.acceptInit p).opened p.addr).cfg = s.cfg := State.opened_cfg _ _
  refine ⟨hall.cfg.trans hoc, ?_, hall.strobeLow, ?_, ?_⟩
  · rw [hall.latched, State.opened_latched (s := s.acceptInit p) hc]
    rfl
  · rw [hall.dir (hoc ▸ hc), State.opened_dir]
    rfl
  · rw [State.lat_congr (State.pins_of_target h.final.target), State.replay_commandTrace_eq, State.lat_replay_bytePairs hvc]

/-- Settles O42: INIT has latched the nibbles of its handshake, its base's list and its final command, stage by stage. -/
theorem initLatchesTheHandshakeThenTheFinalCommand : Obligations.InitLatchesTheHandshakeThenTheFinalCommand := by
  intro operand p s hc htakes hl hcols hok
  obtain ⟨u, v, w, hran⟩ := runInit_ok hok
  obtain ⟨-, hlatched, hlow, -, -⟩ := hran.target hc
  exact ⟨w.finishInit, hran.exec operand htakes hl hcols, hlatched, hlow⟩

/-- Settles O43: each line follows from the direction value and the latch that INIT leaves. -/
theorem linesAfterInitAreSevenOutputsAndOneInput : Obligations.LinesAfterInitAreSevenOutputsAndOneInput := by
  intro operand p s hc htakes hl hcols hok
  obtain ⟨u, v, w, hran⟩ := runInit_ok hok
  obtain ⟨-, -, -, hdir, hlat⟩ := hran.target hc
  have hdir' : w.finishInit.dir = dirValue s.cfg := hdir
  refine ⟨w.finishInit, hran.exec operand htakes hl hcols, hdir', hlat, fun i _ => ?_⟩
  rw [State.line, hdir', maskSpare]

end Sys2Proof.Machine
end

section
/-! PROOF. Encodings (spec/30_encoding.md R51 to R53, R58): the request word and its two fields determine each other, so
the decoder and the encoder are inverse, and a request fails to decode for its base list alone. -/

namespace Sys2Proof.Machine

open Sys2Proof.Laws.OpField

/-! ### The word and its fields -/

theorem reqWord_opField_operandField (w : ReqWord) : reqWord (opField w) (operandField w) = w :=
  (BitVec.extractLsb'_append_extractLsb'_eq_extractLsb' rfl).trans BitVec.extractLsb'_eq_self

/-- A word whose op field is known is made of that op and its operand (R51). -/
theorem reqWord_operandField {w : ReqWord} {op : BitVec 3} (h : (opField w).toNat = op.toNat) :
    reqWord op (operandField w) = w := by
  rw [← BitVec.eq_of_toNat_eq h, reqWord_opField_operandField]

/-- R58: the ops above NIBBLE_INIT's are the reserved ones. -/
theorem reserved_wellFormed_iff (op : BitVec 3) (operand : Byte) :
    (Instr.reserved op operand).WellFormed = true ↔ 6 ≤ op.toNat := by
  have hops : ∀ op : BitVec 3, (op == 0b110 || op == 0b111) = true ↔ 6 ≤ op.toNat := by decide
  exact hops op

/-! ### Decoding an encoding -/

theorem decodeBaseWord_encodeBaseWord (t : TransportOp) : decodeBaseWord (encodeBaseWord t) = .ok t := by
  cases t <;> simp [decodeBaseWord, encodeBaseWord, opField_reqWord, operandField_reqWord]

theorem decodeBaseWords_map_encodeBaseWord (ts : List TransportOp) :
    decodeBaseWords (ts.map encodeBaseWord) = .ok ts := by
  induction ts with
  | nil => rfl
  | cons t ts ih => simp [decodeBaseWords, decodeBaseWord_encodeBaseWord, ih]

theorem decodeInitBlock_encodeInitBlock (p : InitParams) : decodeInitBlock (encodeInitBlock p) = .ok p := by
  simp [decodeInitBlock, encodeInitBlock, decodeBaseWords_map_encodeBaseWord]

theorem decode_reqWord_reserved {op : BitVec 3} (h : 6 ≤ op.toNat) (operand : Byte) (b : InitBlock) :
    decode ⟨reqWord op operand, b⟩ = .ok (.reserved op operand) := by
  have hop := op.isLt
  have hcases : op.toNat = 6 ∨ op.toNat = 7 := by omega
  rcases hcases with e | e <;> simp [decode, opField_reqWord, operandField_reqWord, e]

/-- Settles O1, one row of the opcode map for each operation; INIT's block is decoded field by field and word by word. -/
theorem decodeOfEncodeIsTheInstruction : Obligations.DecodeOfEncodeIsTheInstruction := by
  intro i hi
  cases i with
  | init operand p =>
    simp [decode, encode, opField_reqWord, operandField_reqWord, decodeInitBlock_encodeInitBlock]
  | writeCommand _ | writeData _ | backlightOn _ | backlightOff _ | nibbleInit _ =>
    simp [decode, encode, opField_reqWord, operandField_reqWord]
  | reserved op operand => exact decode_reqWord_reserved ((reserved_wellFormed_iff op operand).1 hi) operand .blank

/-! ### Encoding what was decoded -/

/-- Settles O2: in each row of the opcode map the op field is known, and the operand is the rest of the word. -/
theorem decodingDropsNoBitOfTheWord : Obligations.DecodingDropsNoBitOfTheWord := by
  intro r i h
  unfold decode at h
  split at h
  · next h0 =>
    split at h
    · cases h; exact ⟨reqWord_operandField h0, rfl⟩
    · cases h
  · next h1 => cases h; exact ⟨reqWord_operandField h1, rfl⟩
  · next h2 => cases h; exact ⟨reqWord_operandField h2, rfl⟩
  · next h3 => cases h; exact ⟨reqWord_operandField h3, rfl⟩
  · next h4 => cases h; exact ⟨reqWord_operandField h4, rfl⟩
  · next h5 => cases h; exact ⟨reqWord_operandField h5, rfl⟩
  · next h0 h1 h2 h3 h4 h5 =>
    cases h
    have hreserved : 6 ≤ (opField r.word).toNat := by
      simp only [imp_false] at h0 h1 h2 h3 h4 h5
      omega
    exact ⟨reqWord_opField_operandField r.word, (reserved_wellFormed_iff _ _).2 hreserved⟩

/-! ### Which requests decode -/

theorem isBaseWord_of_decodeBaseWord {w : ReqWord} {t : TransportOp} (h : decodeBaseWord w = .ok t) :
    isBaseWord w = true := by
  simp only [isBaseWord, ← opField_toNat]
  unfold decodeBaseWord at h
  split at h
  · next e => rw [e]; rfl
  · next e => rw [e]; rfl
  · next e => rw [e]; rfl
  · next e => rw [e]; rfl
  · cases h

theorem all_isBaseWord_of_decodeBaseWords {ws : List ReqWord} {ts : List TransportOp} (h : decodeBaseWords ws = .ok ts) :
    ws.all isBaseWord = true := by
  induction ws generalizing ts with
  | nil => rfl
  | cons w ws ih =>
    unfold decodeBaseWords at h
    split at h
    · next hw hws => rw [List.all_cons, isBaseWord_of_decodeBaseWord hw, ih hws]; rfl
    · cases h
    · cases h

/-- An INIT request decodes only with a block whose base list does (R53). -/
theorem wellFormed_of_decode {r : Request} {i : Instr} (h : decode r = .ok i) : r.WellFormed = true := by
  by_cases h0 : r.word.toNat / 256 = 0
  · cases hb : decodeBaseWords r.initp.baseOps with
    | ok ts => simp [Request.WellFormed, all_isBaseWord_of_decodeBaseWords hb]
    | error e => simp [decode, opField_toNat, h0, decodeInitBlock, hb] at h
  · simp [Request.WellFormed, h0]

/-- Settles O3: the base list of an INIT request is the one thing that decoding can reject. -/
theorem requestDecodesExactlyWhenWellFormed : Obligations.RequestDecodesExactlyWhenWellFormed :=
  fun _ => ⟨fun ⟨_, h⟩ => wellFormed_of_decode h, decode_ok_of_wellFormed⟩

/-- Settles O4: the decoder run on eight written words. -/
theorem specWordsDecodeToTheirOperations : Obligations.SpecWordsDecodeToTheirOperations := by
  unfold Obligations.SpecWordsDecodeToTheirOperations
  decide

/-- Settles O31: the arms of exec for these operations pass the operand on, and nothing reads it. -/
theorem ignoredOperandsMakeNoDifference : Obligations.IgnoredOperandsMakeNoDifference :=
  fun _ _ _ _ => ⟨rfl, rfl, rfl⟩

end Sys2Proof.Machine
end

section
/-! PROOF. The emitted GPIO byte (spec/30_encoding.md R55, R60): with the strobe asserted or not its fields read back, and
the GPIO bytes of every step lie inside the four fields. -/

namespace Sys2Proof.Machine

/-- The strobe changes no field that its mask misses (R6). -/
theorem withStrobe_and {c : Config} {m : Byte} (h : c.maskE &&& m = 0) (asserted : Bool) (b : Byte) :
    withStrobe c asserted b &&& m = b &&& m := by
  cases asserted
  · rfl
  · simp [withStrobe, BitVec.and_or_distrib_right, h]

namespace FieldLayout

variable {c : Config} (h : FieldLayout c)
include h

theorem dataField_withStrobe (asserted : Bool) (b : Byte) : dataField c (withStrobe c asserted b) = dataField c b := by
  rw [dataField, withStrobe_and h.e_data, dataField]

theorem blLevel_withStrobe (asserted : Bool) (b : Byte) : blLevel c (withStrobe c asserted b) = blLevel c b := by
  rw [blLevel, withStrobe_and h.e_bl, blLevel]

theorem rsLevel_withStrobe (asserted : Bool) (b : Byte) : rsLevel c (withStrobe c asserted b) = rsLevel c b := by
  rw [rsLevel, withStrobe_and ((BitVec.and_comm _ _).trans h.rs_e), rsLevel]

theorem eLevel_withStrobe_compose (asserted bl rs : Bool) (nib : Nibble) :
    eLevel c (withStrobe c asserted (compose c bl rs nib)) = asserted := by
  cases asserted
  · exact h.eLevel_compose bl rs nib
  · exact h.eLevel_or_maskE _

theorem maskBl_ne_zero : maskBl c ≠ 0 :=
  ne_zero_of_oneBit (oneBit_iff_card_setBits.2 h.card_maskBl)

/-- The backlight bit reads back (R55). -/
theorem blLevel_compose (bl rs : Bool) (nib : Nibble) : blLevel c (compose c bl rs nib) = bl := by
  have hdata := and_eq_zero_of_within (nibble_shiftLeft_and_maskData c nib) h.data_bl
  have hrs := registerSelect_and_eq_zero h.rs_bl rs
  have hand : compose c bl rs nib &&& maskBl c = bitByte bl <<< c.shiftBl := by
    simp only [compose, BitVec.and_or_distrib_right, hdata, hrs, bitByte_shiftLeft_and_maskBl]
    simp
  rw [blLevel, hand]
  cases bl
  · simp [bitByte]
  · exact bne_iff_ne.2 h.maskBl_ne_zero

end FieldLayout

/-- Settles O5: the strobe leaves the other fields as they were composed, and each of them reads back. -/
theorem composedFieldsReadBack : Obligations.ComposedFieldsReadBack := by
  intro c bl rs asserted nib hc
  have h := fieldLayout_of_wellFormed hc
  exact ⟨(h.dataField_withStrobe asserted _).trans (h.dataField_compose bl rs nib),
    (h.blLevel_withStrobe asserted _).trans (h.blLevel_compose bl rs nib),
    (h.rsLevel_withStrobe asserted _).trans (h.rsLevel_compose bl rs nib),
    h.eLevel_withStrobe_compose asserted bl rs nib, withStrobe_compose_and_maskSpare c asserted bl rs nib⟩

/-- Of the transactions that the block may issue, the direction write is none to the GPIO register (R5). -/
theorem Transaction.allowed.and_maskSpare {c : Config} {a a' : DevAddr} {v : Byte}
    (h : (Transaction.reg a' c.regGpio v).allowed c a) (hc : c.WellFormed = true) : v &&& maskSpare c = 0 := by
  obtain ⟨-, ⟨hr, -⟩ | ⟨-, hv⟩⟩ := h
  · exact absurd (congrArg BitVec.toNat hr.symm) (Config.regIodir_ne_regGpio hc)
  · exact hv

/-- Settles O48: every transaction that a step adds is allowed, and MASK_SPARE is by definition what MASK_SIGNALS leaves. -/
theorem noEmittedByteHasABitOutsideTheFields : Obligations.NoEmittedByteHasABitOutsideTheFields := by
  intro s t hc ht
  obtain ⟨es, hes, hallowed⟩ := everyTransactionGoesToAddrAndIsOneOfThree s t hc ht
  refine ⟨es, hes, fun a v hv => ?_, rfl, (fieldLayout_of_wellFormed hc).oneBit_dirValue⟩
  have htx : (Transaction.reg a s.cfg.regGpio v).allowed s.cfg t.addr := by
    obtain hbus | ⟨_, _, hfail⟩ := hv
    · exact hallowed _ hbus
    · exact hallowed _ hfail
  exact ⟨htx.and_maskSpare hc, htx.and_maskSpare hc⟩

end Sys2Proof.Machine
end

section
/-! PROOF. INIT as a whole (spec/40_init_sequencer.md R70 to R82): the parameters it leaves however it ends, the trace and
the end of a fault-free one, and where one is cut (`Flow.CutAt`). -/

namespace Sys2Proof.Machine

/-! ### The frame of INIT -/

/-- No operation in progress writes ADDR, LINES and COLS (R13). -/
theorem keptByRuns_parameters (a : DevAddr) (l c : Byte) :
    KeptByRuns (fun s => s.addr = a ∧ s.lines = l ∧ s.cols = c) where
  opr _ _ h := h
  ok _ _ h _ := by simpa using h
  fail _ _ h _ := by simpa using h
  wait _ _ h := h
  begin _ _ _ _ h := h
  beginLevel _ _ _ h := h
  endOp _ h := by simpa using h
  handoff _ h := h
  base _ _ h := h
  final _ h := h
  finish _ h := h

/-- In t ADDR, LINES and COLS are the request's, and the configuration and what the host presents are as in s. -/
def State.InitFrame (s : State) (p : InitParams) (t : State) : Prop :=
  (t.addr = p.addr ∧ t.lines = p.lines ∧ t.cols = p.cols) ∧ t.cfg = s.cfg ∧ t.inputs = s.inputs

/-- However a taken INIT ends, its frame holds (R71, R81). -/
theorem runInit_keepsFrame (s : State) (p : InitParams) : s.InitFrame p (runInit (s.acceptInit p)).state :=
  ⟨(keptByRuns_parameters _ _ _).runInit ⟨rfl, rfl, rfl⟩, (keptBySteps_cfg s.cfg).toKeptByRuns.runInit rfl,
    (keptByRuns_inputs s.inputs).runInit rfl⟩

/-- An INIT that is rejected or not taken reports at most (R15, R71, R112). -/
theorem exec_init_reports_at_most {operand : Byte} {p : InitParams} {s t : State}
    (hnot : ¬ (s.takesInit ∧ p.lines ≠ 0 ∧ p.cols ≠ 0)) (ht : exec (.init operand p) s = .next t) :
    t = { s with err := t.err } := by
  by_cases htakes : s.takesInit
  · have hzero : p.lines = 0 ∨ p.cols = 0 := by tauto
    rw [exec_init_rejected operand htakes hzero] at ht
    cases ht
    rfl
  · rw [exec_init_waits operand p htakes] at ht
    cases ht
    rfl

/-- Settles O37: an INIT that is taken runs from the request's parameters; any other one reports at most. -/
theorem initChangesParametersOnlyToItsOwn : Obligations.InitChangesParametersOnlyToItsOwn := by
  intro operand p s t ht
  by_cases htaken : s.takesInit ∧ p.lines ≠ 0 ∧ p.cols ≠ 0
  · obtain ⟨htakes, hl, hc⟩ := htaken
    rw [exec_init_taken operand htakes hl hc] at ht
    cases ht
    obtain ⟨hown, hkept⟩ := runInit_keepsFrame s p
    exact ⟨hkept, fun _ => hown, fun hnot => absurd ⟨htakes, hl, hc⟩ hnot⟩
  · have hreports := exec_init_reports_at_most htaken ht
    exact ⟨by rw [hreports]; exact ⟨rfl, rfl⟩, fun h => absurd h htaken, fun _ => hreports⟩

/-! ### A fault-free INIT -/

/-- The stages of a fault-free INIT put its whole trace together (R80). -/
theorem InitRan.trace {s u v w : State} {p : InitParams} (h : InitRan s p u v w) :
    w.finishInit.trace = s.trace ++ initTrace s.cfg p := by
  have huc : u.cfg = s.cfg := h.handshake.cfg
  have hua : u.addr = p.addr := h.handshake.addr
  simp [h.final.trace, h.base.trace, h.handshake.trace, huc, hua, initTrace_eq]

/-- The flags that a fault-free INIT leaves (R71, R78). -/
theorem InitRan.flags {s u v w : State} {p : InitParams} (h : InitRan s p u v w) :
    w.finishInit.bl = some (baseBacklight p.blDefault p.baseOps) ∧ w.finishInit.fault = false := by
  simp [h.final.bl, h.base.bl, h.final.fault, h.base.fault, h.handshake.fault]

/-- Settles O23: the trace stage by stage, the parameters by INIT's frame, SEQ and the controller by its last update. -/
theorem initRunsTheWholeSequence : Obligations.InitRunsTheWholeSequence := by
  intro operand p s htakes hl hc hok
  obtain ⟨u, v, w, hran⟩ := runInit_ok hok
  obtain ⟨hbl, hfault⟩ := hran.flags
  have hframe : s.InitFrame p w.finishInit := by simpa [hran.goes] using runInit_keepsFrame s p
  obtain ⟨⟨haddr, hlines, hcols⟩, hcfg, hinputs⟩ := hframe
  exact ⟨w.finishInit, hran.exec operand htakes hl hc, hran.trace, haddr, hlines, hcols, hbl, rfl, rfl, rfl, hfault, rfl,
    rfl, hcfg, hinputs⟩

/-! ### After the direction write -/

/-- The event is no hand-off mark, and its transaction, if it has one, is a GPIO write to the device at a (R82). -/
def Event.WritesGpioAtMost (c : Config) (a : DevAddr) (e : Event) : Prop :=
  e ≠ .handoff ∧ ∀ tx, e = .bus tx → ∃ v, tx = .reg a c.regGpio v

section

variable (c : Config) (a : DevAddr)

theorem writesGpioAtMost_gpioWrite (b : Byte) : (gpioWrite c a b).WritesGpioAtMost c a :=
  ⟨Event.noConfusion, fun _ h => ⟨b, (Event.bus.inj h).symm⟩⟩

theorem writesGpioAtMost_delay (ms : Nat) : (Event.delay ms).WritesGpioAtMost c a :=
  ⟨Event.noConfusion, fun _ => Event.noConfusion⟩

theorem writesGpioAtMost_strobePair (b : Byte) : ∀ e ∈ strobePair c a b, e.WritesGpioAtMost c a := by
  simp [strobePair, writesGpioAtMost_gpioWrite]

theorem writesGpioAtMost_bytePairs (bl rs : Bool) (v : Byte) :
    ∀ e ∈ bytePairs c a bl rs v, e.WritesGpioAtMost c a :=
  List.forall_mem_append.2 ⟨writesGpioAtMost_strobePair c a _, writesGpioAtMost_strobePair c a _⟩

theorem writesGpioAtMost_commandTrace (bl : Bool) (cmd : Byte) :
    ∀ e ∈ commandTrace c a bl cmd, e.WritesGpioAtMost c a := by
  refine List.forall_mem_append.2 ⟨writesGpioAtMost_bytePairs c a bl false cmd, ?_⟩
  split <;> simp [writesGpioAtMost_delay]

theorem writesGpioAtMost_levelTrace (bl : Bool) : ∀ e ∈ levelTrace c a bl, e.WritesGpioAtMost c a := by
  simp [levelTrace, writesGpioAtMost_gpioWrite]

theorem writesGpioAtMost_baseTrace (bl : Bool) (qs : List TransportOp) :
    ∀ e ∈ baseTrace c a bl qs, e.WritesGpioAtMost c a := by
  induction qs generalizing bl with
  | nil => simp [baseTrace]
  | cons q qs ih =>
    cases q with
    | writeCommand cmd => exact List.forall_mem_append.2 ⟨writesGpioAtMost_commandTrace c a bl cmd, ih bl⟩
    | writeData byte => exact List.forall_mem_append.2 ⟨writesGpioAtMost_bytePairs c a bl true byte, ih bl⟩
    | backlightOn operand => exact List.forall_mem_append.2 ⟨writesGpioAtMost_levelTrace c a true, ih true⟩
    | backlightOff operand => exact List.forall_mem_append.2 ⟨writesGpioAtMost_levelTrace c a false, ih false⟩

/-- INIT's events 2 to 14: the waits and the four nibbles (R74 to R76, R80). -/
def handshakeRest : List Event :=
  [.delay 20] ++ nibbleTrace c a c.codeFunctionReset ++ [.delay 5] ++ nibbleTrace c a c.codeFunctionReset ++ [.delay 1] ++
    nibbleTrace c a c.codeFunctionReset ++ [.delay 1] ++ nibbleTrace c a c.codeFunction ++ [.delay 1]

theorem handshakeTrace_eq_opening_append :
    handshakeTrace c a = [.bus (.raw a c.seedBytes), .bus (.reg a c.regIodir (dirValue c))] ++ handshakeRest c a := by
  simp [handshakeTrace, handshakeRest]

theorem delaysOf_handshakeRest : delaysOf (handshakeRest c a) = [20, 5, 1, 1, 1] := rfl

theorem writesGpioAtMost_handshakeRest : ∀ e ∈ handshakeRest c a, e.WritesGpioAtMost c a := by
  simp [handshakeRest, nibbleTrace, strobePair, writesGpioAtMost_delay, writesGpioAtMost_gpioWrite]

end

/-- Settles O25: the whole trace of INIT, cut behind the direction write and around its one hand-off mark. -/
theorem initConfiguresTheExpanderOnceAndWaits : Obligations.InitConfiguresTheExpanderOnceAndWaits := by
  intro operand p s _ htakes hl hc hok
  obtain ⟨u, v, w, hran⟩ := runInit_ok hok
  refine ⟨w.finishInit, handshakeRest s.cfg p.addr,
    baseTrace s.cfg p.addr p.blDefault p.baseOps ++
      commandTrace s.cfg p.addr (baseBacklight p.blDefault p.baseOps) (finalCmd s.cfg p.lines),
    hran.exec operand htakes hl hc, ?_, delaysOf_handshakeRest _ _, ?_⟩
  · rw [hran.trace, initTrace_eq, handshakeTrace_eq_opening_append]
    simp
  · exact List.forall_mem_append.2 ⟨writesGpioAtMost_handshakeRest _ _,
      List.forall_mem_append.2 ⟨writesGpioAtMost_baseTrace _ _ _ _, writesGpioAtMost_commandTrace _ _ _ _⟩⟩

/-! ### Where INIT is cut -/

/-- Behind m transactions that were ok the first failure is m transactions nearer. -/
theorem State.FailsAt.after {s t : State} {m n : Nat} (h : s.FailsAt n) (hm : m ≤ n)
    (ha : ∀ k, t.answerAt k = s.answerAt (k + m)) : t.FailsAt (n - m) :=
  ⟨fun k hk => (ha k).trans (h.1 _ (by omega)), by rw [ha, Nat.sub_add_cancel hm]; exact h.2⟩

/-- The flow, begun with the trace tr, is cut at the n-th transaction of the events es: those before it, pre, have happened,
and t is the state, not in READY, in which the transaction x then fails (R114, R116). -/
structure Flow.CutAt (w : Flow) (tr es : List Event) (n : Nat) (t : State) (pre : List Event) (x : Transaction) : Prop where
  stopped : w = .stopped (t.popAnswer.takeBusFault x)
  planned : ∃ post, es = pre ++ .bus x :: post
  count : transactions pre = n
  trace : t.trace = tr ++ pre
  phase : t.phase ≠ .ready

section

variable {w : Flow} {tr es fs pre : List Event} {n : Nat} {t : State} {x : Transaction}

/-- What would have come behind the cut makes no difference. -/
theorem Flow.CutAt.append (h : w.CutAt tr es n t pre x) (fs : List Event) : w.CutAt tr (es ++ fs) n t pre x where
  __ := h
  planned := by
    obtain ⟨post, hes⟩ := h.planned
    exact ⟨post ++ fs, by simp [hes]⟩

/-- A cut behind the events fs, which have happened. -/
theorem Flow.CutAt.behind (h : w.CutAt (tr ++ fs) es (n - transactions fs) t pre x) (hn : transactions fs ≤ n) :
    w.CutAt tr (fs ++ es) n t (fs ++ pre) x where
  stopped := h.stopped
  planned := by
    obtain ⟨post, hes⟩ := h.planned
    exact ⟨post, by simp [hes]⟩
  count := by rw [transactions_append, h.count]; omega
  trace := by rw [h.trace, List.append_assoc]
  phase := h.phase

/-- Where a flow is cut, nothing comes after it (R114). -/
theorem Flow.CutAt.andThen (h : w.CutAt tr es n t pre x) (f : State → Flow) : (w.andThen f).CutAt tr es n t pre x where
  __ := h
  stopped := by rw [h.stopped]; rfl

end

/-- An event list outside READY, cut at its n-th transaction: SEQ stands at the index of that event (R111). -/
theorem runMicros_cutAt {ms : List MicroOp} (hs : Settles ms) {n : Nat} {s : State} (hp : s.phase ≠ .ready)
    (hn : n < transactions (ms.flatMap (planned s))) (h : s.FailsAt n) :
    ∃ t pre x, (runMicros ms s).CutAt s.trace (ms.flatMap (planned s)) n t pre x ∧ t.op = s.op ∧
      t.step = s.step + pre.length := by
  obtain ⟨t, pre, x, post, hes, hcount, hr, hstop⟩ := runMicros_fail hs hn h
  have hphase : t.phase ≠ .ready := hr.phase ▸ hp
  rcases hstop with hstop | ⟨v, -, hstop⟩
  · exact ⟨t, pre, x, ⟨hstop, ⟨post, hes⟩, hcount, hr.trace, hphase⟩, hr.op, hr.step⟩
  · exact ⟨t.loadOpr v, pre, x, ⟨hstop, ⟨post, hes⟩, hcount, hr.trace, hphase⟩, hr.op, hr.step⟩

/-- The handshake, cut (R81): the index of R80 is how many events have happened. -/
theorem runHandshake_cutAt {p : InitParams} {n : Nat} {s : State} (hn : n < transactions (handshakeTrace s.cfg p.addr))
    (h : s.FailsAt n) :
    ∃ t pre x, (runFromStep (initEvents s.cfg) (s.acceptInit p)).CutAt s.trace (handshakeTrace s.cfg p.addr) n t pre x ∧
      t.op = .init ∧ t.step = pre.length := by
  have hplanned : ((initEvents s.cfg).drop 0).flatMap (planned (s.acceptInit p)) = handshakeTrace s.cfg p.addr :=
    planned_initEvents (s.acceptInit p)
  rw [← hplanned] at hn ⊢
  obtain ⟨t, pre, x, hcut, hop, hstep⟩ := runMicros_cutAt (settles_initEvents_drop s.cfg 0) (by simp) hn h
  exact ⟨t, pre, x, hcut, hop, hstep.trans (Nat.zero_add _)⟩

/-- The final command, cut, the flag being b (R79, R81). -/
theorem runFinal_cutAt {n : Nat} {s : State} {b : Bool} (hb : s.bl = some b)
    (hn : n < transactions (commandTrace s.cfg s.addr b (finalCmd s.cfg s.lines))) (h : s.FailsAt n) :
    ∃ t pre x,
      (runFinal s.enterFinal).CutAt s.trace (commandTrace s.cfg s.addr b (finalCmd s.cfg s.lines)) n t pre x := by
  have hbl : s.enterFinal.backlight = b := by simp [State.backlight, hb]
  have hplanned : commandEvents.flatMap (planned s.enterFinal) =
      commandTrace s.cfg s.addr b (finalCmd s.cfg s.lines) := by
    rw [planned_commandEvents _ rfl, hbl]
    rfl
  rw [← hplanned] at hn ⊢
  obtain ⟨t, pre, x, hcut, -⟩ :=
    runMicros_cutAt (s := s.enterFinal) (settles_commandEvents_drop 0) (by simp) hn h
  exact ⟨t, pre, x, hcut.andThen _⟩

/-- INIT from the hand-off on, cut in the base's list or in the final command (R81, R120). -/
theorem runHandoff_cutAt {n : Nat} {s : State} {b : Bool} (hb : s.bl = some b) (hp : s.phase = .handoff)
    (ho : s.op = .init) (hs : s.step = 15)
    (hn : n < transactions (baseTrace s.cfg s.addr b s.baseOps ++
      commandTrace s.cfg s.addr (baseBacklight b s.baseOps) (finalCmd s.cfg s.lines))) (h : s.FailsAt n) :
    ∃ t pre x, (runHandoff s).CutAt s.trace (baseTrace s.cfg s.addr b s.baseOps ++
      commandTrace s.cfg s.addr (baseBacklight b s.baseOps) (finalCmd s.cfg s.lines)) n t pre x := by
  rw [transactions_append] at hn
  by_cases hlt : n < transactions (baseTrace s.cfg s.addr b s.baseOps)
  · obtain ⟨t, pre, x, post, hes, hcount, hstop, htrace, hphase, -⟩ := runBase_fail s.baseOps hb hp ho hs hlt h
    have hcut : (runBase s.baseOps s).CutAt s.trace (baseTrace s.cfg s.addr b s.baseOps) n t pre x :=
      ⟨hstop, ⟨post, hes⟩, hcount, htrace, by simp [hphase]⟩
    exact ⟨t, pre, x, (hcut.append _).andThen _⟩
  · obtain ⟨v, hgoes, hv⟩ := runBase_ok s.baseOps hb hp ho hs fun k hk => h.1 k (by omega)
    have hfail := h.after (Nat.le_of_not_lt hlt) hv.answerAt
    obtain ⟨t, pre, x, hcut⟩ := runFinal_cutAt hv.bl (by rw [hv.cfg, hv.addr, hv.lines]; omega) hfail
    rw [hv.cfg, hv.addr, hv.lines, hv.trace] at hcut
    rw [runHandoff, hgoes]
    exact ⟨t, _, x, hcut.behind (Nat.le_of_not_lt hlt)⟩

/-- WHERE INIT IS CUT: at its n-th transaction, the first that fails (R81); in the handshake SEQ stands at INIT and the index
of R80, which is how many events have happened. -/
theorem runInit_cutAt {p : InitParams} {n : Nat} {s : State} (hn : n < transactions (initTrace s.cfg p))
    (h : s.FailsAt n) :
    ∃ t pre x, (runInit (s.acceptInit p)).CutAt s.trace (initTrace s.cfg p) n t pre x ∧
      (pre.length < 15 → t.op = .init ∧ t.step = pre.length) := by
  rw [initTrace_eq, List.append_assoc] at hn ⊢
  by_cases hlt : n < transactions (handshakeTrace s.cfg p.addr)
  · obtain ⟨t, pre, x, hcut, hseq⟩ := runHandshake_cutAt hlt h
    rw [List.append_assoc]
    exact ⟨t, pre, x, (hcut.append _).andThen _, fun _ => hseq⟩
  · obtain ⟨u, hgoes, hu⟩ := runHandshake_ok (p := p) (s := s) fun k hk => h.1 k (by omega)
    have hcount : transactions (handshakeTrace s.cfg p.addr ++ [.handoff]) = transactions (handshakeTrace s.cfg p.addr) :=
      transactions_append _ _
    have hcfg : u.enterHandoff.cfg = s.cfg := hu.cfg
    have haddr : u.enterHandoff.addr = p.addr := hu.addr
    have hlines : u.enterHandoff.lines = p.lines := hu.lines
    have hlist : u.enterHandoff.baseOps = p.baseOps := hu.baseOps
    have htrace : u.enterHandoff.trace = s.trace ++ (handshakeTrace s.cfg p.addr ++ [.handoff]) := by simp [hu.trace]
    rw [transactions_append, hcount] at hn
    rw [← hcount] at hlt
    have hfail : u.enterHandoff.FailsAt _ := h.after (Nat.le_of_not_lt hlt) (hcount ▸ hu.answerAt)
    obtain ⟨t, pre, x, hcut⟩ := runHandoff_cutAt (s := u.enterHandoff) (b := p.blDefault)
      (congrArg some hu.blDefault) rfl hu.op hu.step (by rw [hcfg, haddr, hlines, hlist, hcount]; omega) hfail
    rw [hcfg, haddr, hlines, hlist, htrace] at hcut
    rw [runInit, State.acceptInit_cfg, hgoes]
    refine ⟨t, _, x, hcut.behind (Nat.le_of_not_lt hlt), fun hshort => ?_⟩
    have hlength : (handshakeTrace s.cfg p.addr).length = 15 := rfl
    simp [hlength] at hshort

/-- Settles O24: where INIT is cut the BusFault leaves the block in UNBUILT, and INIT's frame holds however it ends. -/
theorem initIsCutAtTheFirstFailedTransaction : Obligations.InitIsCutAtTheFirstFailedTransaction := by
  intro operand p n s htakes hl hc hn hfail
  obtain ⟨t, pre, x, hcut, hseq⟩ := runInit_cutAt hn hfail
  obtain ⟨post, htrace⟩ := hcut.planned
  have hframe : s.InitFrame p (t.popAnswer.takeBusFault x) := by simpa [hcut.stopped] using runInit_keepsFrame s p
  obtain ⟨⟨haddr, hlines, hcols⟩, hcfg, hinputs⟩ := hframe
  refine ⟨t.popAnswer.takeBusFault x, pre, x, post, t.op, t.step, ?_, htrace, hcut.count, ?_, hseq, ?_, by simp, by simp,
    by simp, by simp, by simp, haddr, hlines, hcols, hcfg, hinputs⟩
  · rw [exec_init_taken operand htakes hl hc, hcut.stopped]
    rfl
  · simp [hcut.trace]
  · simp [hcut.phase]

end Sys2Proof.Machine
end

section
/-! PROOF. NIBBLE_INIT inside INIT (spec/41_nibble_primitive.md R85, R86, R88; spec/40_init_sequencer.md R81): its strobe
pair with what it leaves unchanged, and where a failed write cuts it. -/

namespace Sys2Proof.Machine

/-! ### The parameters through a run -/

/-- A run writes no parameter latch and no hand-off flag (R13). -/
theorem Ran.sameParameters {s t : State} {es : List Event} (h : Ran s t es) : s.sameParameters t :=
  ⟨h.cfg, h.addr, h.lines, h.cols, h.blDefault, h.inputs⟩

/-- A BusFault keeps the parameter latches (R114). -/
theorem State.sameParameters.takeBusFault {s t : State} (h : s.sameParameters t) (x : Transaction) :
    s.sameParameters (t.popAnswer.takeBusFault x) := by simpa [State.sameParameters] using h

/-- OPR may be loaded after a run. -/
theorem Ran.loadOpr {s t : State} {es : List Event} (h : Ran s t es) (v : Byte) : Ran s (t.loadOpr v) es := { h with }

/-! ### The expander's registers after a strobe pair -/

/-- A run leaves in each register what the target's replay of its events leaves there. -/
theorem Ran.regByte {s t : State} {es : List Event} (h : Ran s t es) (k : Nat) : t.regByte k = (s.replay es).regByte k := by
  obtain ⟨-, hregs, hepoch, -⟩ := State.target_eq_iff.1 h.target
  simp [State.regByte, hregs, hepoch]

/-- A strobe pair leaves its deasserted byte in the GPIO output register (R40). -/
theorem Ran.regByte_gpio_of_strobePair {s t : State} {a : DevAddr} {b : Byte} (h : Ran s t (strobePair s.cfg a b)) :
    t.regByte s.cfg.regGpio.toNat = b :=
  (h.regByte _).trans (State.regByte_storeRegister_same _ _ _)

/-- A strobe pair writes no register but the GPIO output register (R40). -/
theorem Ran.onlyGpioChanged_of_strobePair {s t : State} {a : DevAddr} {b : Byte} (h : Ran s t (strobePair s.cfg a b)) :
    s.onlyGpioChanged t := fun k hk =>
  calc t.regByte k = (s.replay (strobePair s.cfg a b)).regByte k := h.regByte k
    _ = (s.storeRegister s.cfg.regGpio (b ||| s.cfg.maskE)).regByte k := State.regByte_storeRegister_other _ _ _ hk
    _ = s.regByte k := State.regByte_storeRegister_other _ _ _ hk

/-! ### What NIBBLE_INIT does -/

theorem settles_nibbleEvents (code : Byte) : Settles (nibbleEvents code) :=
  .inl (by simp [nibbleEvents, MicroOp.isFixed])

/-- The planned events of NIBBLE_INIT are its strobe pair (R85). -/
theorem planned_nibbleEvents (code : Byte) (s : State) :
    (nibbleEvents code).flatMap (planned s) = nibbleTrace s.cfg s.addr code := rfl

/-- WHAT NIBBLE_INIT DOES when its transactions are ok (R85). -/
theorem nibbleInitOp_ok (code : Byte) {s : State} (h : s.AnswersOk 2) :
    ∃ t, nibbleInitOp code s = .goes t.releaseOpr ∧ Ran s t (nibbleTrace s.cfg s.addr code) := by
  obtain ⟨t, hgoes, hr⟩ := runMicros_ok (settles_nibbleEvents code) h
  rw [planned_nibbleEvents] at hr
  exact ⟨t, by rw [nibbleInitOp, hgoes]; rfl, hr⟩

/-- WHERE NIBBLE_INIT IS CUT (R81, R85). -/
theorem nibbleInitOp_fail (code : Byte) {n : Nat} {s : State} (hn : n < 2) (h : s.FailsAt n) :
    ∃ t pre x post, nibbleTrace s.cfg s.addr code = pre ++ .bus x :: post ∧ transactions pre = n ∧ Ran s t pre ∧
      nibbleInitOp code s = .stopped (t.popAnswer.takeBusFault x) := by
  obtain ⟨t, pre, x, post, htrace, hcount, hr, hstop | ⟨v, -, hstop⟩⟩ :=
    runMicros_fail (settles_nibbleEvents code) hn h
  all_goals rw [planned_nibbleEvents] at htrace
  · exact ⟨t, pre, x, post, htrace, hcount, hr, by rw [nibbleInitOp, hstop]; rfl⟩
  · exact ⟨t.loadOpr v, pre, x, post, htrace, hcount, hr.loadOpr v, by rw [nibbleInitOp, hstop]; rfl⟩

/-- Settles O21: the run of the strobe pair, after which NIBBLE_INIT only lets go of OPR. -/
theorem nibbleInitStrobesTheHighNibble : Obligations.NibbleInitStrobesTheHighNibble := by
  intro code s hruns hok
  obtain ⟨t, hgoes, hr⟩ := nibbleInitOp_ok code hok
  exact ⟨t.releaseOpr, by rw [exec_nibbleInit_runs code hruns, hgoes]; rfl, hr.trace, hr.step, hr.op, hr.phase, hr.bl,
    hr.rsl, hr.err, hr.fault, hr.sameParameters, hr.baseOps, hr.regByte_gpio_of_strobePair, hr.onlyGpioChanged_of_strobePair⟩

/-! ### A failed write -/

/-- Of events that are all successful transactions each one counts. -/
theorem transactions_eq_length {es : List Event} (h : ∀ e ∈ es, ∃ x, e = .bus x) : transactions es = es.length := by
  induction es with
  | nil => rfl
  | cons e es ih =>
    obtain ⟨⟨x, rfl⟩, hrest⟩ := List.forall_mem_cons.1 h
    simp [transactions, ih hrest]

/-- NIBBLE_INIT has no delay of its own (R85). -/
theorem isBus_of_mem_nibbleTrace {c : Config} {a : DevAddr} {code : Byte} :
    ∀ e ∈ nibbleTrace c a code, ∃ x, e = .bus x := by
  simp [nibbleTrace, strobePair, gpioWrite]

/-- Settles O22: where NIBBLE_INIT is cut SEQ stands as many events on as have happened, and the BusFault is INIT's (R81;
log 14). -/
theorem failedNibbleInitAbortsConstruction : Obligations.FailedNibbleInitAbortsConstruction := by
  intro code n s hruns hn hfail
  obtain ⟨t, pre, x, post, htrace, hcount, hr, hstop⟩ := nibbleInitOp_fail code hn hfail
  obtain ⟨hphase, hop⟩ := hruns
  have hbus : ∀ e ∈ pre, ∃ y, e = .bus y := fun e he =>
    isBus_of_mem_nibbleTrace e (htrace ▸ List.mem_append_left _ he)
  have hlength : pre.length = n := (transactions_eq_length hbus).symm.trans hcount
  obtain ⟨hfaulted, hbl⟩ := State.faultedFrom_takeBusFault hr.phase hr.bl x
  refine ⟨t.popAnswer.takeBusFault x, x, ?_, hfaulted, hfaulted.unbuilt (by simp [hphase]), hbl,
    hr.sameParameters.takeBusFault x, ?_, ?_⟩
  · rw [exec_nibbleInit_runs code ⟨hphase, hop⟩, hstop]
    rfl
  · simp [htrace, ← hlength]
  · simp [htrace, ← hlength, hr.trace, hr.op, hr.step, hop]

end Sys2Proof.Machine
end

section
/-! PROOF. The transport operations (spec/42_transport.md R90 to R98): a fault-free one with what it leaves unchanged, where
one is cut, the bytes it writes, and the delay behind a command, INIT's final one too. -/

namespace Sys2Proof.Machine

/-! ### GPIO writes leave the other registers alone -/

/-- No replay of GPIO writes changes another register (R40). -/
theorem State.onlyGpioChanged_replay {s : State} {c : Config} {a : DevAddr} (hc : s.cfg = c) {es : List Event}
    (h : ∀ e ∈ es, e.WritesGpioAtMost c a) : s.onlyGpioChanged (s.replay es) := by
  induction es generalizing s with
  | nil => exact fun _ _ => rfl
  | cons e es ih =>
    obtain ⟨hhead, hrest⟩ := List.forall_mem_cons.1 h
    cases e with
    | bus x =>
      obtain ⟨v, rfl⟩ := hhead.2 x rfl
      subst hc
      exact fun k hk => (ih (s := s.storeRegister s.cfg.regGpio v) rfl hrest k hk).trans
        (State.regByte_storeRegister_other _ _ _ hk)
    | delay ms => exact ih hc hrest
    | handoff => exact ih hc hrest
    | fail x op k => exact ih hc hrest

theorem Ran.onlyGpioChanged {s t : State} {a : DevAddr} {es : List Event} (hr : Ran s t es)
    (h : ∀ e ∈ es, e.WritesGpioAtMost s.cfg a) : s.onlyGpioChanged t :=
  fun k hk => (hr.regByte k).trans (State.onlyGpioChanged_replay rfl h k hk)

/-- A failed register write leaves every other register alone (R117). -/
theorem State.regByte_takeBusFault_other (s : State) (a : DevAddr) (r v : Byte) {k : Nat} (h : k ≠ r.toNat) :
    (s.takeBusFault (.reg a r v)).regByte k = s.regByte k := by
  simp [State.regByte, State.spoil, Memory.read_write_other _ _ h]

/-- A run of GPIO writes, cut at a GPIO write, changes no other register (R96, R117). -/
theorem Ran.onlyGpioChanged_takeBusFault {s t : State} {a : DevAddr} {pre post : List Event} {x : Transaction}
    (hr : Ran s t pre) (h : ∀ e ∈ pre ++ .bus x :: post, e.WritesGpioAtMost s.cfg a) :
    s.onlyGpioChanged (t.popAnswer.takeBusFault x) := by
  obtain ⟨hpre, hrest⟩ := List.forall_mem_append.1 h
  obtain ⟨v, rfl⟩ := (List.forall_mem_cons.1 hrest).1.2 x rfl
  exact fun k hk => (State.regByte_takeBusFault_other t.popAnswer _ _ _ hk).trans (hr.onlyGpioChanged hpre k hk)

/-! ### The traces of the transport operations -/

theorem writesGpioAtMost_transportTrace (s : State) (q : TransportOp) :
    ∀ e ∈ transportTrace s q, e.WritesGpioAtMost s.cfg s.addr := by
  cases q with
  | writeCommand cmd => exact writesGpioAtMost_commandTrace _ _ _ _
  | writeData byte => exact writesGpioAtMost_bytePairs _ _ _ _ _
  | backlightOn operand => exact writesGpioAtMost_levelTrace _ _ _
  | backlightOff operand => exact writesGpioAtMost_levelTrace _ _ _

theorem transactions_commandTrace (c : Config) (a : DevAddr) (bl : Bool) (cmd : Byte) :
    transactions (commandTrace c a bl cmd) = 4 := by
  rw [commandTrace, transactions_append]
  split <;> rfl

/-- The transactions of the events stand before everything else in them. -/
def BusFirst (es : List Event) : Prop := es.Pairwise fun e f => ∀ y, f = .bus y → ∃ x, e = .bus x

/-- Before a transaction of such events there are transactions alone. -/
theorem BusFirst.before {pre post : List Event} {x : Transaction} (h : BusFirst (pre ++ .bus x :: post)) :
    ∀ e ∈ pre, ∃ y, e = .bus y := by
  obtain ⟨-, -, hbefore⟩ := List.pairwise_append.1 h
  exact fun e he => hbefore e he _ List.mem_cons_self x rfl

/-- The delay of a command comes behind its four writes (R91). -/
theorem busFirst_commandTrace (c : Config) (a : DevAddr) (bl : Bool) (cmd : Byte) : BusFirst (commandTrace c a bl cmd) := by
  unfold commandTrace
  split <;> simp [BusFirst, bytePairs, strobePair, gpioWrite]

theorem busFirst_transportTrace (s : State) (q : TransportOp) : BusFirst (transportTrace s q) := by
  cases q with
  | writeCommand cmd => exact busFirst_commandTrace _ _ _ _
  | writeData byte => simp [transportTrace, dataTrace, BusFirst, bytePairs, strobePair, gpioWrite]
  | backlightOn operand => exact List.pairwise_singleton _ _
  | backlightOff operand => exact List.pairwise_singleton _ _

/-! ### A fault-free transport operation -/

/-- From s to t the transport operation q, taken in s, has run whole and fault-free (R91, R92, R100, R101). -/
structure TransportRan (s : State) (q : TransportOp) (t : State) : Prop where
  exec : exec (transportInstr q) s = .next t
  trace : t.trace = s.trace ++ transportTrace s q
  err : t.err = .ok
  bl : t.bl = transportFlag s q
  fault : t.fault = s.fault
  seq : s.seqAfterTransport t
  parameters : s.sameParameters t
  baseOps : t.baseOps = s.baseOps
  regByte : ∀ k, t.regByte k = (s.replay (transportTrace s q)).regByte k

theorem Ran.seqAfterTransport {s t : State} {q : TransportOp} {es : List Event} (hr : Ran (s.begun q) t es) :
    s.seqAfterTransport t.endTransport := by
  have hp : t.phase = s.phase := by simp [hr.phase]
  refine ⟨by simp [hp], fun h => ?_, fun h => ?_⟩ <;> simp [hp, h]

theorem State.regByte_endTransport (s : State) (k : Nat) : s.endTransport.regByte k = s.regByte k := by
  simp [State.regByte]

/-- At its start an operation has written no register (R14). -/
theorem State.regByte_replay_begun (s : State) (q : TransportOp) (es : List Event) (k : Nat) :
    ((s.begun q).replay es).regByte k = (s.replay es).regByte k := by
  have htarget : (s.begun q).target = s.target := by simp [State.target]
  obtain ⟨-, hregs, hepoch, -⟩ := State.target_eq_iff.1 (State.replay_target htarget es)
  simp [State.regByte, hregs, hepoch]

/-- WHAT A TAKEN TRANSPORT REQUEST DOES when its transactions are ok. -/
theorem exec_transportInstr_ok (q : TransportOp) {s : State} (htakes : s.takesTransport)
    (hok : s.AnswersOk (transactions (transportTrace s q))) : ∃ t, TransportRan s q t := by
  obtain ⟨u, hgoes, hr⟩ := baseRequest_ok q hok
  refine ⟨u.endTransport, ?_, ?_, ?_, ?_, ?_, hr.seqAfterTransport, ?_, ?_, fun k => ?_⟩
  · rw [exec_transportInstr q htakes, hgoes]
    rfl
  · simp [hr.trace]
  · simp
  · simp [hr.bl]
  · simp [hr.fault]
  · simpa [State.sameParameters] using hr.sameParameters
  · simp [hr.baseOps]
  · rw [State.regByte_endTransport, hr.regByte, State.regByte_replay_begun]

theorem TransportRan.onlyGpioChanged {s t : State} {q : TransportOp} (h : TransportRan s q t) : s.onlyGpioChanged t :=
  fun k hk => (h.regByte k).trans (State.onlyGpioChanged_replay rfl (writesGpioAtMost_transportTrace s q) k hk)

/-- The two strobe pairs of a byte leave its low-nibble byte in the GPIO output register (R90). -/
theorem State.regByte_gpio_replay_bytePairs (s : State) (a : DevAddr) (bl rs : Bool) (v : Byte) :
    (s.replay (bytePairs s.cfg a bl rs v)).regByte s.cfg.regGpio.toNat = compose s.cfg bl rs (loNibble v) :=
  State.regByte_storeRegister_same _ _ _

theorem State.regByte_gpio_replay_commandTrace (s : State) (a : DevAddr) (bl : Bool) (cmd : Byte) :
    (s.replay (commandTrace s.cfg a bl cmd)).regByte s.cfg.regGpio.toNat = compose s.cfg bl false (loNibble cmd) := by
  rw [State.replay_commandTrace_eq, State.regByte_gpio_replay_bytePairs]

/-- WHAT A TAKEN WRITE_COMMAND DOES when its four transactions are ok (R91). -/
theorem exec_writeCommand_ok (cmd : Byte) {s : State} (htakes : s.takesTransport) (hok : s.AnswersOk 4) :
    ∃ t, TransportRan s (.writeCommand cmd) t :=
  exec_transportInstr_ok (.writeCommand cmd) htakes ((transactions_commandTrace _ _ _ _).symm ▸ hok)

/-- WHAT A TAKEN WRITE_DATA DOES when its four transactions are ok (R92). -/
theorem exec_writeData_ok (byte : Byte) {s : State} (htakes : s.takesTransport) (hok : s.AnswersOk 4) :
    ∃ t, TransportRan s (.writeData byte) t :=
  exec_transportInstr_ok (.writeData byte) htakes hok

/-- Settles O14: a fault-free transport operation, whose last GPIO write is that of the low nibble. -/
theorem writeCommandSendsBothNibblesAndDelaysUpToThree :
    Obligations.WriteCommandSendsBothNibblesAndDelaysUpToThree := by
  intro cmd s htakes hok
  obtain ⟨t, hran⟩ := exec_writeCommand_ok cmd htakes hok
  exact ⟨t, hran.exec, hran.trace, hran.err, hran.bl, hran.fault, hran.seq, hran.parameters, hran.baseOps,
    (hran.regByte _).trans (s.regByte_gpio_replay_commandTrace _ _ _), hran.onlyGpioChanged⟩

/-- Settles O15: as for WRITE_COMMAND, with the two strobe pairs as the whole trace. -/
theorem writeDataSendsBothNibblesWithoutDelay : Obligations.WriteDataSendsBothNibblesWithoutDelay := by
  intro byte s htakes hok
  obtain ⟨t, hran⟩ := exec_writeData_ok byte htakes hok
  exact ⟨t, hran.exec, hran.trace, hran.err, hran.bl, hran.fault, hran.seq, hran.parameters, hran.baseOps,
    (hran.regByte _).trans (s.regByte_gpio_replay_bytePairs _ _ _ _), hran.onlyGpioChanged⟩

/-! ### The properties (a) to (f) -/

/-- `Hi(v)` as the byte `(v >> 4) & 0xF` (R56). -/
theorem hiNibble_setWidth (v : Byte) : (hiNibble v).setWidth 8 = (v >>> 4) &&& 0x0F := by
  decide +revert

theorem loNibble_setWidth (v : Byte) : (loNibble v).setWidth 8 = v &&& 0x0F := by
  decide +revert

theorem mem_clearHome_iff (v : Byte) : v ∈ [0#8, 1#8, 2#8, 3#8] ↔ v.toNat ≤ 3 := by
  simp [← BitVec.toNat_inj]
  omega

/-- WHAT THE REQUEST OF A BYTE DOES to the trace, its register select rs and its four transactions ok (R91, R92). -/
theorem exec_byte_ok (rs : Bool) (v : Byte) {s : State} (htakes : s.takesTransport) (hok : s.AnswersOk 4) :
    ∃ t, exec (if rs then .writeData v else .writeCommand v) s = .next t ∧
      t.trace = s.trace ++ bytePairs s.cfg s.addr s.backlight rs v ++
        (if rs = false ∧ v.toNat ≤ 3 then [.delay 5] else []) := by
  cases rs with
  | false =>
    obtain ⟨t, hran⟩ := exec_writeCommand_ok v htakes hok
    exact ⟨t, hran.exec, by simp [hran.trace, transportTrace, commandTrace]⟩
  | true =>
    obtain ⟨t, hran⟩ := exec_writeData_ok v htakes hok
    exact ⟨t, hran.exec, by simp [hran.trace, transportTrace, dataTrace]⟩

/-- The fields that the four bytes of a request share, the strobe asserted or not (R97 (b), (c), (e)). -/
theorem sharedFields_readBack {s : State} (hc : s.cfg.WellFormed = true) (rs asserted : Bool) (nib : Nibble) :
    rsLevel s.cfg (withStrobe s.cfg asserted (compose s.cfg s.backlight rs nib)) = rs ∧
      (∀ f, s.bl = some f → blLevel s.cfg (withStrobe s.cfg asserted (compose s.cfg s.backlight rs nib)) = f) ∧
      withStrobe s.cfg asserted (compose s.cfg s.backlight rs nib) &&& maskSpare s.cfg = 0 := by
  obtain ⟨-, hbl, hrs, -, hspare⟩ := composedFieldsReadBack s.cfg s.backlight rs asserted nib hc
  refine ⟨hrs, fun f hf => hbl.trans ?_, hspare⟩
  simp [State.backlight, hf]

/-- Settles O16: the four bytes are composed of the two nibbles, of RS and of the flag, and each of these reads back. -/
theorem transportBytesCarryNibbleRegisterSelectAndBacklight :
    Obligations.TransportBytesCarryNibbleRegisterSelectAndBacklight := by
  intro rs v s hc htakes hok
  obtain ⟨t, hexec, htrace⟩ := exec_byte_ok rs v htakes hok
  have hdata := fun asserted nib => (composedFieldsReadBack s.cfg s.backlight rs asserted nib hc).1
  have hlayout := fieldLayout_of_wellFormed hc
  have hshared := sharedFields_readBack hc rs
  refine ⟨t, withStrobe s.cfg true (compose s.cfg s.backlight rs (hiNibble v)),
    withStrobe s.cfg false (compose s.cfg s.backlight rs (hiNibble v)),
    withStrobe s.cfg true (compose s.cfg s.backlight rs (loNibble v)),
    withStrobe s.cfg false (compose s.cfg s.backlight rs (loNibble v)), hexec, ?_, ?_, ?_, rfl, rfl, ?_, ?_⟩
  · rw [htrace]
    simp only [mem_clearHome_iff]
    rfl
  · simp only [hdata, hiNibble_setWidth, loNibble_setWidth, and_self]
  · exact List.forall_mem_cons.2 ⟨hshared _ _, List.forall_mem_cons.2 ⟨hshared _ _,
      List.forall_mem_cons.2 ⟨hshared _ _, List.forall_mem_singleton.2 (hshared _ _)⟩⟩⟩
  · exact hlayout.eLevel_withStrobe_compose false s.backlight rs (hiNibble v)
  · exact hlayout.eLevel_withStrobe_compose false s.backlight rs (loNibble v)

/-! ### Where a transport operation is cut -/

/-- In t, the transport operation q, taken in s, has emitted its first n events, pre, and its next one is the transaction x,
which fails (R96, R111). -/
structure TransportCut (s : State) (q : TransportOp) (n : Nat) (t : State) (pre : List Event) (x : Transaction) : Prop where
  exec : exec (transportInstr q) s = .next (t.popAnswer.takeBusFault x)
  planned : ∃ post, transportTrace s q = pre ++ .bus x :: post
  bus : ∀ e ∈ pre, ∃ y, e = .bus y
  length : pre.length = n
  ran : Ran (s.begun q) t pre

/-- WHERE A TAKEN TRANSPORT REQUEST IS CUT. -/
theorem exec_transportInstr_cut (q : TransportOp) {n : Nat} {s : State} (htakes : s.takesTransport)
    (hn : n < transactions (transportTrace s q)) (hfail : s.FailsAt n) : ∃ t pre x, TransportCut s q n t pre x := by
  obtain ⟨t, pre, x, post, htrace, hcount, hr, hstop⟩ := baseRequest_fail q hn hfail
  have hbus := (htrace ▸ busFirst_transportTrace s q).before
  refine ⟨t, pre, x, ?_, ⟨post, htrace⟩, hbus, (transactions_eq_length hbus).symm.trans hcount, hr⟩
  rw [exec_transportInstr q htakes, hstop]
  rfl

section

variable {s t : State} {q : TransportOp} {n : Nat} {pre : List Event} {x : Transaction} (h : TransportCut s q n t pre x)
include h

theorem TransportCut.trace :
    (t.popAnswer.takeBusFault x).trace = s.trace ++ pre ++ [.fail x (transportOp q) n] := by
  simp [h.ran.trace, h.ran.op, h.ran.step, h.length]

/-- The BusFault and the flag that it leaves (R103, R114). -/
theorem TransportCut.faultedFrom :
    s.faultedFrom (t.popAnswer.takeBusFault x) ∧ (t.popAnswer.takeBusFault x).bl = transportFlag s q := by
  simp [State.faultedFrom, h.ran.phase, h.ran.bl]

theorem TransportCut.sameParameters : s.sameParameters (t.popAnswer.takeBusFault x) := by
  simpa [State.sameParameters] using h.ran.sameParameters

theorem TransportCut.onlyGpioChanged : s.onlyGpioChanged (t.popAnswer.takeBusFault x) := by
  obtain ⟨post, htrace⟩ := h.planned
  have hwrites := htrace ▸ writesGpioAtMost_transportTrace s q
  have hframe : (s.begun q).onlyGpioChanged (t.popAnswer.takeBusFault x) :=
    h.ran.onlyGpioChanged_takeBusFault (by simpa using hwrites)
  simpa [State.onlyGpioChanged] using hframe

end

/-- Settles O32: the events before the failed transaction are transactions alone, so that STEP is its number. -/
theorem transportIsCutAtTheFirstFailedTransaction : Obligations.TransportIsCutAtTheFirstFailedTransaction := by
  intro q n s htakes hn hfail
  obtain ⟨t, pre, x, hcut⟩ := exec_transportInstr_cut q htakes hn hfail
  obtain ⟨post, htrace⟩ := hcut.planned
  obtain ⟨hfaulted, hbl⟩ := hcut.faultedFrom
  refine ⟨t.popAnswer.takeBusFault x, x, hcut.exec, ?_, ?_, hfaulted, hbl, hcut.sameParameters, hcut.onlyGpioChanged⟩
  · simp [htrace, ← hcut.length]
  · rw [hcut.trace, htrace, ← hcut.length, List.take_left]

/-! ### The frame -/

/-- However a taken transport operation ends, it leaves the parameters, the other registers and, but for its own flag, BL. -/
theorem exec_transportInstr_frame {q : TransportOp} {s t : State} (htakes : s.takesTransport)
    (ht : exec (transportInstr q) s = .next t) :
    s.sameParameters t ∧ s.onlyGpioChanged t ∧ t.bl = transportFlag s q := by
  rcases s.answersOk_or_failsAt (transactions (transportTrace s q)) with hok | ⟨n, hn, hfail⟩
  · obtain ⟨u, hran⟩ := exec_transportInstr_ok q htakes hok
    obtain rfl : u = t := by simpa [hran.exec] using ht
    exact ⟨hran.parameters, hran.onlyGpioChanged, hran.bl⟩
  · obtain ⟨u, pre, x, hcut⟩ := exec_transportInstr_cut q htakes hn hfail
    obtain rfl : u.popAnswer.takeBusFault x = t := by simpa [hcut.exec] using ht
    exact ⟨hcut.sameParameters, hcut.onlyGpioChanged, hcut.faultedFrom.2⟩

theorem writesGpioAtMost_nibbleTrace (c : Config) (a : DevAddr) (code : Byte) :
    ∀ e ∈ nibbleTrace c a code, e.WritesGpioAtMost c a := writesGpioAtMost_strobePair c a _

/-- However NIBBLE_INIT ends, it leaves the parameters, the other registers and BL (R85, R86). -/
theorem nibbleInitOp_frame (code : Byte) (s : State) :
    s.sameParameters (nibbleInitOp code s).state ∧ s.onlyGpioChanged (nibbleInitOp code s).state ∧
      (nibbleInitOp code s).state.bl = s.bl := by
  have hwrites := writesGpioAtMost_nibbleTrace s.cfg s.addr code
  rcases s.answersOk_or_failsAt 2 with hok | ⟨n, hn, hfail⟩
  · obtain ⟨t, hgoes, hr⟩ := nibbleInitOp_ok code hok
    rw [hgoes]
    exact ⟨hr.sameParameters, hr.onlyGpioChanged hwrites, hr.bl⟩
  · obtain ⟨t, pre, x, post, htrace, -, hr, hstop⟩ := nibbleInitOp_fail code hn hfail
    rw [hstop]
    exact ⟨hr.sameParameters.takeBusFault x, hr.onlyGpioChanged_takeBusFault (htrace ▸ hwrites),
      (State.faultedFrom_takeBusFault hr.phase hr.bl x).2⟩

/-- A transport request but those of the backlight leaves the flag (R93). -/
theorem transportFlag_eq_of_not_backlight {s : State} {q : TransportOp} (hon : ∀ a, transportInstr q ≠ .backlightOn a)
    (hoff : ∀ a, transportInstr q ≠ .backlightOff a) : transportFlag s q = s.bl := by
  cases q with
  | writeCommand cmd => rfl
  | writeData byte => rfl
  | backlightOn operand => exact absurd rfl (hon operand)
  | backlightOff operand => exact absurd rfl (hoff operand)

/-- A report changes ERR alone (R17). -/
theorem State.report_frame (s : State) (r : Report) :
    s.sameParameters (s.report r) ∧ s.onlyGpioChanged (s.report r) ∧ (s.report r).bl = s.bl :=
  ⟨⟨rfl, rfl, rfl, rfl, rfl, rfl⟩, fun _ _ => rfl, rfl⟩

/-- Settles O36: of the things that an instruction can do, the reports change ERR alone, and the two kinds of operation have
the same frame, whether they are cut or not. -/
theorem transportLeavesParametersAndOtherRegisters : Obligations.TransportLeavesParametersAndOtherRegisters := by
  intro i s t hinit ht
  cases executed_of_exec ht with
  | waits => exact ⟨⟨rfl, rfl, rfl, rfl, rfl, rfl⟩, fun _ _ => rfl, fun _ _ => rfl⟩
  | rejected =>
    obtain ⟨hparameters, hregisters, hbl⟩ := s.report_frame .paramFault
    exact ⟨hparameters, hregisters, fun _ _ => hbl⟩
  | refused =>
    obtain ⟨hparameters, hregisters, hbl⟩ := s.report_frame .refused
    exact ⟨hparameters, hregisters, fun _ _ => hbl⟩
  | init operand p => exact absurd rfl (hinit operand p)
  | transport q taken =>
    obtain ⟨hparameters, hregisters, hbl⟩ := exec_transportInstr_frame taken ht
    exact ⟨hparameters, hregisters, fun hon hoff => hbl.trans (transportFlag_eq_of_not_backlight hon hoff)⟩
  | nibbleInit code =>
    obtain ⟨hparameters, hregisters, hbl⟩ := nibbleInitOp_frame code s
    exact ⟨hparameters, hregisters, fun _ _ => hbl⟩

/-! ### The delay behind a command -/

/-- No delay stands among transactions of which the last has failed. -/
theorem delay_notMem_append_fail {es : List Event} (h : ∀ e ∈ es, ∃ y, e = .bus y) (x : Transaction) (op : Op)
    (k ms : Nat) : .delay ms ∉ es ++ [.fail x op k] := by
  have hes : .delay ms ∉ es := fun hmem => by
    obtain ⟨y, hy⟩ := h _ hmem
    cases hy
  simp [hes]

/-- A transaction that is none of the first events of a list is one of those behind them. -/
theorem split_behind {fs gs pre post : List Event} {x : Transaction} (h : fs ++ gs = pre ++ .bus x :: post)
    (hn : transactions fs ≤ transactions pre) : ∃ mid, pre = fs ++ mid ∧ gs = mid ++ .bus x :: post := by
  obtain ⟨mid, hpre, hgs⟩ | ⟨mid, hfs, hpost⟩ := List.append_eq_append_iff.1 h
  · exact ⟨mid, hpre, hgs⟩
  · cases mid with
    | nil => exact ⟨[], by simpa using hfs.symm, by simpa using hpost.symm⟩
    | cons e mid =>
      obtain ⟨rfl, -⟩ := List.cons.inj hpost
      rw [hfs, transactions_append, transactions] at hn
      omega

/-- INIT, cut in its final command: its earlier events, transactions alone of that command, and the failed one (R79, R81). -/
theorem exec_init_cut_in_final (operand : Byte) {p : InitParams} {n : Nat} {s : State} (htakes : s.takesInit)
    (hl : p.lines ≠ 0) (hc : p.cols ≠ 0) (hfinal : transactions (initTrace s.cfg p) ≤ n + 4)
    (hn : n < transactions (initTrace s.cfg p)) (hfail : s.FailsAt n) :
    ∃ t mid x op k, exec (.init operand p) s = .next t ∧ (∀ e ∈ mid, ∃ y, e = .bus y) ∧
      t.trace = s.trace ++ handshakeTrace s.cfg p.addr ++ [.handoff] ++
        baseTrace s.cfg p.addr p.blDefault p.baseOps ++ (mid ++ [.fail x op k]) := by
  obtain ⟨t, pre, x, hcut, -⟩ := runInit_cutAt hn hfail
  obtain ⟨post, hplanned⟩ := hcut.planned
  rw [initTrace_eq] at hplanned
  rw [initTrace_eq, transactions_append, transactions_commandTrace] at hfinal
  obtain ⟨mid, hpre, hcommand⟩ := split_behind hplanned (by rw [hcut.count]; omega)
  refine ⟨t.popAnswer.takeBusFault x, mid, x, t.op, t.step, ?_, (hcommand ▸ busFirst_commandTrace _ _ _ _).before, ?_⟩
  · rw [exec_init_taken operand htakes hl hc, hcut.stopped]
    rfl
  · simp [hcut.trace, hpre]

/-- The trace of a command, its four GPIO writes named (R91). -/
theorem commandTrace_eq_writes (c : Config) (a : DevAddr) (bl : Bool) (cmd : Byte) :
    ∃ b0 b1 b2 b3, commandTrace c a bl cmd =
      [gpioWrite c a b0, gpioWrite c a b1, gpioWrite c a b2, gpioWrite c a b3] ++
        (if cmd.toNat ≤ 3 then [.delay 5] else []) := ⟨_, _, _, _, rfl⟩

/-- Settles O17: the trace of a command ends with its delay, and a command that is cut has emitted writes alone; the final
command of INIT likewise, behind what stands before it. -/
theorem postCommandDelayIsPerformedExactlyUpToThree : Obligations.PostCommandDelayIsPerformedExactlyUpToThree := by
  refine ⟨fun cmd s htakes hok => ?_, fun cmd n s htakes hn hfail => ?_, fun operand p s htakes hl hc hok => ?_,
    fun operand p n s htakes hl hc hfinal hn hfail => ?_⟩
  · obtain ⟨t, hran⟩ := exec_writeCommand_ok cmd htakes hok
    obtain ⟨b0, b1, b2, b3, hwrites⟩ := commandTrace_eq_writes s.cfg s.addr s.backlight cmd
    exact ⟨t, b0, b1, b2, b3, hran.exec, hran.err, by rw [hran.trace, transportTrace, hwrites, List.append_assoc]⟩
  · obtain ⟨t, pre, x, hcut⟩ := exec_transportInstr_cut (.writeCommand cmd) htakes
      ((transactions_commandTrace _ _ _ _).symm ▸ hn) hfail
    refine ⟨_, pre ++ [.fail x .writeCommand n], hcut.exec, ?_, by simp [hcut.length],
      delay_notMem_append_fail hcut.bus _ _ _⟩
    rw [hcut.trace, List.append_assoc]
    rfl
  · obtain ⟨u, v, w, hran⟩ := runInit_ok hok
    obtain ⟨b0, b1, b2, b3, hwrites⟩ := commandTrace_eq_writes s.cfg p.addr (baseBacklight p.blDefault p.baseOps)
      (finalCmd s.cfg p.lines)
    refine ⟨w.finishInit, b0, b1, b2, b3, hran.exec operand htakes hl hc, rfl, ?_⟩
    rw [hran.trace, initTrace_eq, hwrites]
    simp only [List.append_assoc]
  · obtain ⟨t, mid, x, op, k, hexec, hbus, htrace⟩ :=
      exec_init_cut_in_final operand htakes hl hc hfinal hn hfail
    exact ⟨t, mid ++ [.fail x op k], hexec, htrace, delay_notMem_append_fail hbus x op k⟩

end Sys2Proof.Machine
end

section
/-! PROOF. BACKLIGHT_ON and BACKLIGHT_OFF (spec/43_backlight.md R100 to R103) as the two cases of one request: the flag first,
then one GPIO byte, with what a fault-free one leaves unchanged and what a failed write leaves behind. -/

namespace Sys2Proof.Machine

/-! ### The two requests as one -/

/-- The backlight request that makes the flag `on`: BACKLIGHT_ON or BACKLIGHT_OFF (R100, R101). -/
def backlightRequest (on : Bool) (operand : Byte) : TransportOp :=
  if on then .backlightOn operand else .backlightOff operand

section

variable (on : Bool) (operand : Byte) (s : State)

theorem transportInstr_backlightRequest :
    transportInstr (backlightRequest on operand) = if on then .backlightOn operand else .backlightOff operand := by
  cases on <;> rfl

@[simp] theorem requestEvents_backlightRequest : requestEvents (backlightRequest on operand) = [.level] := by
  cases on <;> rfl

@[simp] theorem transportTrace_backlightRequest :
    transportTrace s (backlightRequest on operand) = levelTrace s.cfg s.addr on := by
  cases on <;> rfl

theorem transactions_backlightRequest : transactions (transportTrace s (backlightRequest on operand)) = 1 := by
  cases on <;> rfl

@[simp] theorem transportFlag_backlightRequest : transportFlag s (backlightRequest on operand) = some on := by
  cases on <;> rfl

@[simp] theorem transportOp_backlightRequest :
    transportOp (backlightRequest on operand) = if on then .backlightOn else .backlightOff := by
  cases on <;> rfl

end

/-! ### The byte written -/

/-- The byte that sets the backlight bit alone (R100, R102). -/
theorem compose_true_false_zero (c : Config) : compose c true false 0 = maskBl c := by
  simp [compose, bitByte, maskBl]

/-- The byte with no bit set (R101). -/
theorem compose_false_false_zero (c : Config) : compose c false false 0 = 0 := by
  simp [compose, bitByte]

theorem State.regByte_gpio_replay_levelTrace (s : State) (a : DevAddr) (bl : Bool) :
    (s.replay (levelTrace s.cfg a bl)).regByte s.cfg.regGpio.toNat = compose s.cfg bl false 0 :=
  State.regByte_storeRegister_same _ _ _

/-! ### The latches -/

/-- A backlight operation starts with the latches as they were (R100, R101: the state written is BL, STEP and ERR). -/
theorem State.begun_backlightRequest_latches (s : State) (on : Bool) (operand : Byte) :
    (s.begun (backlightRequest on operand)).opr = s.opr ∧ (s.begun (backlightRequest on operand)).rsl = s.rsl := by
  cases on <;> exact ⟨rfl, rfl⟩

/-- At its end it lets go of no latch: it has used none (R12). -/
theorem State.retireLatches_of_backlightRequest {s : State} {on : Bool} {operand : Byte}
    (h : s.op = transportOp (backlightRequest on operand)) : s.retireLatches = s := by
  cases on <;> simp [State.retireLatches, h]

/-- A backlight operation that runs whole leaves OPR and RSL as they were (R100, R101). -/
theorem baseRequest_backlightRequest_latches {s t : State} {on : Bool} {operand : Byte}
    (h : baseRequest (backlightRequest on operand) s = .goes t) : t.opr = s.opr ∧ t.rsl = s.rsl := by
  obtain ⟨hopr, hrsl⟩ := s.begun_backlightRequest_latches on operand
  rw [baseRequest_eq, requestEvents_backlightRequest, runMicros_cons, runMicro, busWriteReg] at h
  rcases transact_cases _ (s.begun (backlightRequest on operand)) with ⟨-, hgoes⟩ | ⟨-, hstop⟩
  · rw [hgoes] at h
    cases h
    rw [State.endTransport_opr, State.endTransport_rsl,
      State.retireLatches_of_backlightRequest (on := on) (operand := operand) (by simp)]
    exact ⟨by simp [hopr], by simp [hrsl]⟩
  · rw [hstop] at h
    cases h

/-! ### A fault-free backlight operation -/

/-- WHAT A TAKEN BACKLIGHT REQUEST DOES when its one transaction is ok, its byte being b (R100, R101). -/
theorem exec_backlightRequest_ok {on : Bool} {b : Byte} (operand : Byte) {s : State}
    (hb : compose s.cfg on false 0 = b) (htakes : s.takesTransport) (hok : s.AnswersOk 1) :
    ∃ t, TransportRan s (backlightRequest on operand) t ∧ t.trace = s.trace ++ [gpioWrite s.cfg s.addr b] ∧
      t.opr = s.opr ∧ t.rsl = s.rsl ∧ t.regByte s.cfg.regGpio.toNat = b := by
  subst hb
  rw [← transactions_backlightRequest on operand s] at hok
  obtain ⟨t, hran⟩ := exec_transportInstr_ok (backlightRequest on operand) htakes hok
  obtain ⟨u, hgoes, -⟩ := baseRequest_ok (backlightRequest on operand) hok
  obtain rfl : u.endTransport = t := by
    simpa [exec_transportInstr _ htakes, hgoes] using hran.exec
  obtain ⟨hopr, hrsl⟩ := baseRequest_backlightRequest_latches hgoes
  refine ⟨u.endTransport, hran, ?_, hopr, hrsl, ?_⟩
  · rw [hran.trace, transportTrace_backlightRequest, levelTrace]
  · rw [hran.regByte, transportTrace_backlightRequest, State.regByte_gpio_replay_levelTrace]

/-- Settles O18: a fault-free backlight request with the flag on, whose byte is MASK_BL. -/
theorem backlightOnSetsTheFlagAndWritesOneByte : Obligations.BacklightOnSetsTheFlagAndWritesOneByte := by
  intro operand s htakes hok
  obtain ⟨t, hran, htrace, hopr, hrsl, hbyte⟩ :=
    exec_backlightRequest_ok operand (compose_true_false_zero s.cfg) htakes hok
  exact ⟨t, hran.exec, hran.bl, htrace, hran.err, hran.fault, hopr, hrsl, hran.seq, hran.parameters, hran.baseOps, hbyte,
    hran.onlyGpioChanged⟩

/-- Settles O19: a fault-free backlight request with the flag off, whose byte is 0. -/
theorem backlightOffClearsTheFlagAndWritesZero : Obligations.BacklightOffClearsTheFlagAndWritesZero := by
  intro operand s htakes hok
  obtain ⟨t, hran, htrace, hopr, hrsl, hbyte⟩ :=
    exec_backlightRequest_ok operand (compose_false_false_zero s.cfg) htakes hok
  exact ⟨t, hran.exec, hran.bl, htrace, hran.err, hran.fault, hopr, hrsl, hran.seq, hran.parameters, hran.baseOps, hbyte,
    hran.onlyGpioChanged⟩

/-! ### A failed write -/

/-- Settles O20: a backlight request is cut at its first and only event, behind the flag (R103). -/
theorem failedBacklightWriteKeepsTheNewFlag : Obligations.FailedBacklightWriteKeepsTheNewFlag := by
  intro on operand s htakes hfail
  obtain ⟨t, pre, x, hcut⟩ := exec_transportInstr_cut (backlightRequest on operand) (n := 0) htakes
    ((transactions_backlightRequest on operand s).symm ▸ Nat.one_pos) ⟨.zero s, hfail⟩
  obtain rfl : pre = [] := List.eq_nil_of_length_eq_zero hcut.length
  obtain ⟨post, hplanned⟩ := hcut.planned
  obtain rfl : .reg s.addr s.cfg.regGpio (compose s.cfg on false 0) = x := by
    rw [transportTrace_backlightRequest] at hplanned
    exact Event.bus.inj (List.cons.inj hplanned).1
  obtain ⟨hfaulted, hbl⟩ := hcut.faultedFrom
  refine ⟨t.popAnswer.takeBusFault _, ?_, ?_, hfaulted, hcut.sameParameters, ?_⟩
  · rw [← transportInstr_backlightRequest, hcut.exec]
  · rw [hbl, transportFlag_backlightRequest]
  · rw [hcut.trace, transportOp_backlightRequest, List.append_nil]

end Sys2Proof.Machine
end

section
/-! PROOF. A failed transaction ends its step (spec/60_exceptions.md R114, R116 to R118): no event of a flow that goes on is
a FAIL, and a flow that is cut has one FAIL, its last event, beside FAULT and ERR. -/

namespace Sys2Proof.Machine

/-- The trace has grown from tr by events that are no FAIL and then by one FAIL, which left its records (R114). -/
def State.FailedLast (tr : List Event) (s : State) : Prop :=
  ∃ pre x o k, s.trace = tr ++ (pre ++ [.fail x o k]) ∧ (∀ e ∈ pre, e.isFail = false) ∧ s.fault = true ∧ s.err = .busFault

theorem State.grownBy_refl (s : State) (E : Event → Prop) : s.GrownBy s.cfg s.trace E := ⟨rfl, [], by simp, by simp⟩

theorem State.GrownBy.failedLast_takeBusFault {c : Config} {tr : List Event} {s : State}
    (h : s.GrownBy c tr (·.isFail = false)) (x : Transaction) : (s.popAnswer.takeBusFault x).FailedLast tr := by
  obtain ⟨-, pre, hpre, hnone⟩ := h
  exact ⟨pre, x, s.op, s.step, by simp [hpre], hnone, by simp, by simp⟩

/-- While an operation goes on it adds no FAIL; where one is cut the FAIL is its last event. -/
theorem endsRuns_failedLast (c : Config) (tr : List Event) :
    EndsRuns (State.GrownBy c tr (·.isFail = false)) (State.FailedLast tr) where
  opr _ _ h := h
  ok _ x h _ := h.append (e := .bus x) (by simp) (by simp [State.record]) rfl
  fail _ x h _ := h.failedLast_takeBusFault x
  wait _ ms h := h.append (e := .delay ms) rfl rfl rfl
  begun _ _ h := h.congr (by simp) (by simp)
  endOp _ h := h.congr (by simp) (by simp)
  handoff _ h := h.append (e := .handoff) rfl rfl rfl
  base _ _ h := h
  final _ h := h
  finish _ h := h

/-- The events that an instruction adds: no FAIL, or one, the last. -/
theorem Executed.failedLast {s t : State} {i : Instr} (h : Executed s i t) :
    t.GrownBy s.cfg s.trace (·.isFail = false) ∨ t.FailedLast s.trace := by
  have hruns := endsRuns_failedLast s.cfg s.trace
  cases h with
  | waits => exact .inl (s.grownBy_refl _)
  | rejected => exact .inl (s.takeParamFault.grownBy_refl _)
  | refused => exact .inl (s.takeRefused.grownBy_refl _)
  | init operand p => exact (hruns.runInit ((s.acceptInit p).grownBy_refl _)).state
  | transport q => exact (hruns.baseRequest q (s.grownBy_refl _)).state
  | nibbleInit code =>
    have hends : (nibbleInitOp code s).Ends (State.GrownBy s.cfg s.trace (·.isFail = false)) (State.FailedLast s.trace) :=
      (hruns.micros _ (s.grownBy_refl _)).andThen fun _ h => h
    exact hends.state

theorem Stepped.failedLast {s t : State} (h : Stepped s t) :
    t.GrownBy s.cfg s.trace (·.isFail = false) ∨ t.FailedLast s.trace := by
  cases h with
  | resumed => exact (endsRuns_failedLast s.cfg s.trace).resume (s.grownBy_refl _)
  | waited => exact .inl (s.grownBy_refl _)
  | reset _ rest => exact .inl ((s.withInputs rest).hardwareReset.grownBy_refl _)
  | request _ r rest i t _ _ executed => exact executed.failedLast

/-- Settles O33: what a step adds to the trace holds no FAIL, or ends with its only one. -/
theorem aFailedTransactionEndsTheOperation : Obligations.AFailedTransactionEndsTheOperation := by
  intro s t ht
  rcases (stepped_of_step ht).failedLast with ⟨-, es, hes, hnone⟩ | ⟨pre, x, o, k, htrace, hnone, hfault, herr⟩
  · exact ⟨es, hes, .inl hnone⟩
  · exact ⟨pre ++ [.fail x o k], htrace, .inr ⟨pre, x, o, k, rfl, hnone, hfault, herr⟩⟩

end Sys2Proof.Machine
end

section
/-! PROOF. ERR (spec/10_state.md R17; spec/60_exceptions.md R112, R113, R115): what each operation reports at its end, and
the causes of every report that an instruction makes (`Reported`). -/

namespace Sys2Proof.Machine

/-! ### The report of an operation -/

/-- The operation reports its end: ERR is 0 where it completes, and FAULT is set with BUS_FAULT where it is cut (R17, R114). -/
def Flow.Reports (w : Flow) : Prop := w.Ends (fun t => t.err = .ok) (fun t => t.fault = true ∧ t.err = .busFault)

theorem Flow.Reports.err {w : Flow} (h : w.Reports) : w.state.err = .ok ∨ w.state.err = .busFault :=
  (Flow.Ends.state h).imp_right fun hcut => hcut.2

theorem runFinal_reports (s : State) : (runFinal s).Reports :=
  ((endsRuns_fault s.fault).micros _ rfl).andThen fun _ _ => rfl

theorem runHandoff_reports (s : State) : (runHandoff s).Reports :=
  ((endsRuns_fault s.fault).runBase _ rfl).andThen fun s' _ => runFinal_reports s'.enterFinal

theorem runInit_reports (s : State) : (runInit s).Reports :=
  ((endsRuns_fault s.fault).micros _ rfl).andThen fun s' _ => runHandoff_reports s'.enterHandoff

theorem baseRequest_reports (q : TransportOp) (s : State) : (baseRequest q s).Reports := by
  rw [baseRequest_eq]
  exact ((endsRuns_fault s.fault).micros _ (by simp)).andThen fun s' _ => by simp

/-- An event list writes ERR only where a BusFault cuts it (R17). -/
theorem endsEvents_err (r : Report) : EndsEvents (fun s => s.err = r) (fun s => s.err = .busFault) where
  opr _ _ h := h
  ok _ _ h _ := by simpa using h
  fail _ _ _ _ := by simp
  wait _ _ h := h

/-- A NIBBLE_INIT that is not cut leaves ERR as it was (R85). -/
theorem nibbleInitOp_reports (code : Byte) (s : State) :
    (nibbleInitOp code s).Ends (fun t => t.err = s.err) (fun t => t.err = .busFault) :=
  ((endsEvents_err s.err).micros _ rfl).andThen fun _ h => h

/-! ### The causes of a report -/

/-- The values of ERR after an instruction, each with its cause: the instruction wrote none, it completed, a BusFault cut
it, INIT was rejected (R112), or the request was out of place (R113). -/
inductive Reported (s : State) : Instr → Report → Prop
  | kept (i : Instr) {r : Report} (same : r = s.err) : Reported s i r
  | completed (i : Instr) : Reported s i .ok
  | cut (i : Instr) : Reported s i .busFault
  | rejected (operand : Byte) (p : InitParams) (taken : s.takesInit) (zero : p.lines = 0 ∨ p.cols = 0) :
      Reported s (.init operand p) .paramFault
  | reserved (op : BitVec 3) (operand : Byte) : Reported s (.reserved op operand) .refused
  | nibbleInit (code : Byte) (host : ¬ s.runsInit) : Reported s (.nibbleInit code) .refused
  | transport (q : TransportOp) (unbuilt : s.phase = .unbuilt) : Reported s (transportInstr q) .refused

theorem Flow.Reports.reported {w : Flow} (h : w.Reports) (s : State) (i : Instr) : Reported s i w.state.err := by
  rcases h.err with hok | hcut
  · rw [hok]; exact .completed i
  · rw [hcut]; exact .cut i

theorem exec_init_reported {operand : Byte} {p : InitParams} {s t : State} (h : exec (.init operand p) s = .next t) :
    Reported s (.init operand p) t.err := by
  by_cases ht : s.takesInit
  · by_cases hp : p.lines = 0 ∨ p.cols = 0
    · rw [exec_init_rejected operand ht hp] at h
      cases h; exact .rejected operand p ht hp
    · obtain ⟨hl, hc⟩ := not_or.1 hp
      rw [exec_init_taken operand ht hl hc] at h
      cases h; exact (runInit_reports _).reported s _
  · rw [exec_init_waits operand p ht] at h
    cases h; exact .kept _ rfl

theorem exec_transportInstr_reported {q : TransportOp} {s t : State} (h : exec (transportInstr q) s = .next t) :
    Reported s (transportInstr q) t.err := by
  by_cases ht : s.takesTransport
  · rw [exec_transportInstr q ht] at h
    cases h; exact (baseRequest_reports q s).reported s _
  · by_cases hu : s.phase = .unbuilt ∧ s.op = .none
    · rw [exec_transportInstr_refused q hu.1 hu.2] at h
      cases h; exact .transport q hu.1
    · rw [exec_transportInstr_waits q ht hu] at h
      cases h; exact .kept _ rfl

theorem exec_nibbleInit_reported {code : Byte} {s t : State} (h : exec (.nibbleInit code) s = .next t) :
    Reported s (.nibbleInit code) t.err := by
  by_cases hr : s.runsInit
  · rw [exec_nibbleInit_runs code hr] at h
    cases h
    rcases (nibbleInitOp_reports code s).state with hkept | hcut
    · exact .kept _ hkept
    · rw [hcut]; exact .cut _
  · by_cases ho : s.op = .none
    · rw [exec_nibbleInit_refused code ho] at h
      cases h; exact .nibbleInit code hr
    · rw [exec_nibbleInit_waits code hr ho] at h
      cases h; exact .kept _ rfl

theorem exec_reserved_reported {op : BitVec 3} {operand : Byte} {s t : State}
    (h : exec (.reserved op operand) s = .next t) : Reported s (.reserved op operand) t.err := by
  by_cases ho : s.op = .none
  · rw [exec_reserved_refused op operand ho] at h
    cases h; exact .reserved op operand
  · rw [exec_reserved_waits op operand ho] at h
    cases h; exact .kept _ rfl

/-- Every report that an instruction leaves has one of the causes above. -/
theorem reported_of_exec {i : Instr} {s t : State} (h : exec i s = .next t) : Reported s i t.err := by
  cases i with
  | init operand p => exact exec_init_reported h
  | writeCommand cmd => exact exec_transportInstr_reported (q := .writeCommand cmd) h
  | writeData byte => exact exec_transportInstr_reported (q := .writeData byte) h
  | backlightOn operand => exact exec_transportInstr_reported (q := .backlightOn operand) h
  | backlightOff operand => exact exec_transportInstr_reported (q := .backlightOff operand) h
  | nibbleInit code => exact exec_nibbleInit_reported h
  | reserved op operand => exact exec_reserved_reported h

theorem Reported.paramFault_cause {s : State} {i : Instr} {r : Report} (h : Reported s i r) (hr : r = .paramFault)
    (hs : s.err ≠ .paramFault) : s.takesInit ∧ ∃ operand p, i = .init operand p ∧ (p.lines = 0 ∨ p.cols = 0) := by
  subst hr
  cases h with
  | kept i same => exact absurd same.symm hs
  | rejected operand p taken zero => exact ⟨taken, operand, p, rfl, zero⟩

theorem Reported.refused_cause {s : State} {i : Instr} {r : Report} (h : Reported s i r) (hr : r = .refused)
    (hs : s.err ≠ .refused) : (∃ op operand, i = .reserved op operand) ∨ (∃ code, i = .nibbleInit code ∧ ¬ s.runsInit) ∨
      (∃ q, i = transportInstr q ∧ s.phase = .unbuilt) := by
  subst hr
  cases h with
  | kept i same => exact absurd same.symm hs
  | reserved op operand => exact .inl ⟨op, operand, rfl⟩
  | nibbleInit code host => exact .inr (.inl ⟨code, rfl, host⟩)
  | transport q unbuilt => exact .inr (.inr ⟨q, rfl, unbuilt⟩)

/-- Settles O28: a rejected INIT changes ERR alone, a valid one ends ok or cut, and nothing else reports a ParamFault. -/
theorem paramFaultIsRaisedExactlyByZeroLinesOrColumns : Obligations.ParamFaultIsRaisedExactlyByZeroLinesOrColumns := by
  refine ⟨fun operand p s htakes hzero => exec_init_rejected operand htakes hzero, rfl,
    fun operand p s t htakes hl hc ht => ?_, fun i s t ht hs herr => (reported_of_exec ht).paramFault_cause herr hs⟩
  rw [exec_init_taken operand htakes hl hc] at ht
  cases ht
  rcases (runInit_reports (s.acceptInit p)).err with hok | hcut
  · simp [hok]
  · simp [hcut]

/-- Settles O29: each request out of place changes ERR alone, and nothing else is Refused. -/
theorem exactlyTheRequestsOutOfPlaceAreRefused : Obligations.ExactlyTheRequestsOutOfPlaceAreRefused :=
  ⟨⟨fun op operand _ ho => exec_reserved_refused op operand ho, fun code _ ho => exec_nibbleInit_refused code ho,
      fun q _ hp ho => exec_transportInstr_refused q hp ho⟩,
    rfl, fun _ _ _ ht hs herr => (reported_of_exec ht).refused_cause herr hs⟩

/-! ### Every instruction answers -/

/-- Settles O52: each instruction has one of the outcomes of `Executed`. -/
theorem everyInstructionAnswersANextState : Obligations.EveryInstructionAnswersANextState := fun i s =>
  (exec_executed i s).imp fun _ h => h.1

end Sys2Proof.Machine
end

section
/-! PROOF. Reset, the stops of the step and the waits of INIT (spec/70_reset_and_hazards.md R130, R134, R147, R148): what
hardware reset leaves, which of its three names a step stops with, and the least time that the DELAY events of a
fault-free INIT stand for. -/

namespace Sys2Proof.Machine

/-! ### Hardware reset -/

/-- Settles O7: the step that takes a reset is `State.hardwareReset`, which writes the reset values and nothing else that
the statement names. -/
theorem hardwareResetLeavesAnUnbuiltBlock : Obligations.HardwareResetLeavesAnUnbuiltBlock := by
  refine ⟨⟨rfl, rfl, rfl, rfl, rfl, rfl, rfl⟩, fun s rest hc hidle hi => ?_⟩
  exact ⟨(s.withInputs rest).hardwareReset, step_of_reset hc hidle hi, rfl, rfl, rfl, rfl, rfl, rfl, rfl, rfl, rfl, rfl⟩

/-! ### The stops of the step -/

theorem step_of_illFormedConfig {s : State} (hc : s.cfg.WellFormed = false) : step s = .refused .illFormedConfig := by
  simp [step, hc]

theorem step_of_illegal {s : State} (hc : s.cfg.WellFormed = true) (h : s.seqStatus = .illegal) :
    step s = .fault .illegalSequencer := by
  simp [step, hc, h]

theorem step_of_undecoded {s : State} {r : Request} {rest : List HostInput} {e : DecodeError}
    (hc : s.cfg.WellFormed = true) (h : s.seqStatus = .idle) (hi : s.inputs = .request r :: rest)
    (hr : decode r = .error e) : step s = .refused .malformedBaseRequest := by
  simp [step, hc, h, hi, hr]

/-- Whatever decodes is well formed, so the decoder rejects the rest (R53). -/
theorem decode_error_of_not_wellFormed {r : Request} (h : r.WellFormed = false) : ∃ e, decode r = .error e := by
  cases hd : decode r with
  | error e => exact ⟨e, rfl⟩
  | ok i => exact absurd (wellFormed_of_decode hd) (by simp [h])

/-- Settles O13: one equation of the step for each stop; the third is reached where the request does not decode. -/
theorem stepStopsByName : Obligations.StepStopsByName := by
  refine ⟨fun _ => step_of_illFormedConfig, fun _ => step_of_illegal, fun s r rest hc hidle hi hr => ?_⟩
  obtain ⟨e, he⟩ := decode_error_of_not_wellFormed hr
  exact step_of_undecoded hc hidle hi he

/-! ### The waits of INIT -/

/-- R74 to R76: 20 ms after power-up, then 5, 1, 1 and 1 behind the four nibbles. -/
theorem leastMillis_handshakeTrace (c : Config) (a : DevAddr) : leastMillis (handshakeTrace c a) = 28 := rfl

/-- R94: a command waits exactly when it clears the display or moves the cursor home. -/
theorem leastMillis_commandTrace (c : Config) (a : DevAddr) (bl : Bool) (cmd : Byte) :
    leastMillis (commandTrace c a bl cmd) = if isClearHome cmd then 5 else 0 := by
  have hbytes : leastMillis (bytePairs c a bl false cmd) = 0 := rfl
  rw [commandTrace, leastMillis_append, hbytes]
  simp only [isClearHome_iff]
  split <;> rfl

/-- R148: INIT waits 28 ms before the hand-off, then as long as the base's requests and the final command do. -/
theorem leastMillis_initTrace (c : Config) (p : InitParams) :
    leastMillis (initTrace c p) = 28 + leastMillis (baseTrace c p.addr p.blDefault p.baseOps) +
      if isClearHome (finalCmd c p.lines) then 5 else 0 := by
  have hmark : leastMillis [.handoff] = 0 := rfl
  simp only [initTrace_eq, leastMillis_append, leastMillis_handshakeTrace, leastMillis_commandTrace, hmark]

/-- Settles O26: the events of a fault-free INIT are its whole trace, whose waits `leastMillis_initTrace` sums. -/
theorem initWaitsAtLeast28Milliseconds : Obligations.InitWaitsAtLeast28Milliseconds := by
  intro operand p s htakes hl hc hok
  obtain ⟨u, v, w, hran⟩ := runInit_ok hok
  refine ⟨w.finishInit, initTrace s.cfg p, hran.exec operand htakes hl hc, hran.trace, ?_, fun hbase hfinal => ?_⟩
  · rw [leastMillis_initTrace]
    omega
  · have hnone : leastMillis (baseTrace s.cfg p.addr p.blDefault p.baseOps) = 0 := by rw [hbase]; rfl
    simp [leastMillis_initTrace, hnone, hfinal]

end Sys2Proof.Machine
end
